-- ==== Sys2Proof/Word.lean ====
section
/-! DEFINITION. The byte, the byte string and the counter words of the block (00_scope.md R10, R13 to R15). -/

namespace Sys2Proof

/-- A byte is 8 bits (R10, BYTE). Bit 0 is the least significant (R13). -/
abbrev Byte := BitVec 8

/-- A byte string: a finite sequence of bytes, index 0 the first sent or stored (R14). -/
abbrev Bytes := List Byte

/-- `u16`, an unsigned field below 2^16 (R15). -/
abbrev U16 := BitVec 16

/-- `u24`, an unsigned field below 2^24: the width of a counter on the wire (R10, R15). -/
abbrev U24 := BitVec 24

/-- `zeros(n)`: n bytes of 0x00 (R14). -/
abbrev zeros (n : Nat) : Bytes := List.replicate n 0

end Sys2Proof
end

