-- ==== Sys2Proof/Machine/Bytes.lean ====
section
/-! DEFINITION. Byte order and byte-string access: the big-endian words of 00_scope.md R15 and 20_memory.md R52 to
R54, the reads of R16, and the length-prefixed fields of 30_encoding.md R80. -/

namespace Sys2Proof

/-- A `u16` field, most significant byte first (R54). -/
def be16 (v : U16) : Bytes := [v.extractLsb' 8 8, v.extractLsb' 0 8]

/-- `be24(v) = [v[23:16], v[15:8], v[7:0]]` (R15). -/
def be24 (v : U24) : Bytes := [v.extractLsb' 16 8, v.extractLsb' 8 8, v.extractLsb' 0 8]

/-- The inverse of `be16` on 2 bytes. Only 2-byte strings reach it. -/
def fromBe16 : Bytes → U16
  | [hi, lo] => hi ++ lo
  | _ => 0

/-- `from_be24`, the inverse of `be24` on 3 bytes (R15). Only 3-byte strings reach it. -/
def fromBe24 : Bytes → U24
  | [hi, mid, lo] => hi ++ mid ++ lo
  | _ => 0

/-- `MemRead(s, i, n)` is `s[i .. i+n)`; its precondition `i + n ≤ |s|` is checked by every caller (R16). -/
def memRead (s : Bytes) (i n : Nat) : Bytes := (s.drop i).take n

/-- `s[i]`, for an index that the caller has checked to be below `|s|` (R14, R16). -/
def byteAt (s : Bytes) (i : Nat) : Byte := s.getD i 0

/-- A byte string as exactly `n` bytes, the form the AEAD takes its key, nonce and tag in (44_aead_interface.md R160). Every
string a command gives it has `n` bytes already; of another length the first `n` bytes count, zeros where it has ended
(log entry 13). -/
def fixedBytes (n : Nat) (s : Bytes) : Vector Byte n := ⟨((List.range n).map (byteAt s)).toArray, by simp⟩

/-- A length or count stored in a byte; every caller has range-checked it (R15). -/
def lenByte (n : Nat) : Byte := BitVec.ofNat 8 n

/-- A Boolean as a byte: 0x00 or 0x01 (R15, R80); `zext8` of a Boolean is the same. -/
def boolByte (b : Bool) : Byte := if b then 1 else 0

/-- A `vb8` field: a `u8` length, then the bytes (R80). -/
def vb8 (s : Bytes) : Bytes := lenByte s.length :: s

/-- A `vb16` field: a `u16` big-endian length, then the bytes (R80). -/
def vb16 (s : Bytes) : Bytes := be16 (BitVec.ofNat 16 s.length) ++ s

end Sys2Proof
end

