-- ==== Sys2Proof/Syntax.lean ====
section
/-! DEFINITION. The value types that commands carry (10_state.md §3) and the commands themselves: one
constructor of `Instr` per row of spec/opcode_table.json, its operands in the order of 30_encoding.md R84. -/

namespace Sys2Proof

/-- The closed set of outcomes of a command (R37, R220). -/
inductive Status where
  | ok
  | invalidBodyLength
  | invalidIdLength
  | bodyTooLargeForSecureBlock
  | truncated
  | checksumMismatch
  | malformedHeader
  | unsupportedAlgorithm
  | authenticationFailure
  | illegalCommand
  | illegalOperand
  deriving DecidableEq, Repr

/-- The body of a frame (R30). `valvePos` is carried raw, 101 to 126 included (R31); `flags` is carried as
8 raw bits (R32); `stats` is an opaque byte string, empty for no stats (R33). -/
structure Body where
  callForHeat : Bool
  valvePos : BitVec 7
  flags : Byte
  stats : Bytes
  deriving DecidableEq, Repr

/-- The unit of exchange (R29). Its length byte is no input field: the encoder computes it (90_conflicts.md C7). -/
structure Frame where
  secure : Bool
  frameType : BitVec 7
  seqNo : BitVec 4
  id : Bytes
  body : Option Body
  deriving DecidableEq, Repr

/-- The sender's context for one encode (R34). -/
structure TxContext where
  key : Bytes
  presharedId : Bytes
  restartCounter : U24
  msgCounter : U24
  deriving DecidableEq, Repr

/-- The receiver's context for one decode (R35). -/
structure RxContext where
  key : Bytes
  presharedId : Bytes
  deriving DecidableEq, Repr

/-- The successful result of FRAME.DEC: the frame, its length byte, and the counters of its trailer, both 0 for
an insecure frame (R36). -/
structure DecodedFrame where
  frame : Frame
  flen : Byte
  rxRestartCounter : U24
  rxMsgCounter : U24
  deriving DecidableEq, Repr

/-- The header fields as HDR.PARSE returns them (R85, R117). -/
structure Header where
  len : Byte
  secure : Bool
  frameType : BitVec 7
  seqNo : BitVec 4
  id : Bytes
  bodyLen : Byte
  deriving DecidableEq, Repr

/-- The secure trailer's fields as TRL.PARSE returns them (R77, R85, R130). -/
structure Trailer where
  restartCounter : U24
  msgCounter : U24
  tag : Bytes
  alg : Byte
  deriving DecidableEq, Repr

/-- The assigned opcodes (R83). -/
inductive Opcode where
  | crc7Upd | crc7Frame
  | hdrPack | hdrParse | bodyPack | bodyParse | trlPack | trlParse
  | nonceBuild | aadBuild
  | padBody | padUnpad
  | frameEnc | frameDec
  deriving DecidableEq, Repr

/-- The kinds of operand and result fields (R80). -/
inductive FieldKind where
  | u8 | u16 | u24 | bool
  | fixed (n : Nat)
  | vb8 | vb16
  deriving DecidableEq, Repr

/-- One field of a request format: its kind (R84) and, where R86 narrows it, the largest legal value. -/
structure Field where
  kind : FieldKind
  limit : Option Nat := none
  deriving DecidableEq, Repr

/-- A command record, as R81 delivers it and R83, R84 lay it out: one constructor per opcode, its operands in the
order of the request. Operands that R86 narrows (`bool`, `ftype`, `seq`, `valve`) have the narrow type; the
lengths of `b[n]`, `vb8` and `vb16` operands are checked in WellFormed. -/
inductive Instr where
  | crc7Upd (acc d : Byte)
  | crc7Frame (buf : Bytes) (off len : U16)
  | hdrPack (len : Byte) (sec : Bool) (ftype : BitVec 7) (seq : BitVec 4) (id : Bytes) (blen : Byte)
  | hdrParse (buf : Bytes)
  | bodyPack (cfh : Bool) (valve : BitVec 7) (flags : Byte) (stats : Bytes)
  | bodyParse (body : Bytes)
  | trlPack (rc mc : U24) (tag : Bytes) (alg : Byte)
  | trlParse (trl : Bytes)
  | nonceBuild (id4 pre : Bytes) (rc mc : U24)
  | aadBuild (buf : Bytes) (hbc : U16)
  | padBody (cfh : Bool) (valve : BitVec 7) (flags : Byte) (stats : Bytes) (dbl : Byte)
  | padUnpad (pt : Bytes)
  | frameEnc (sec : Bool) (ftype : BitVec 7) (seq : BitVec 4) (id : Bytes) (hasBody cfh : Bool)
      (valve : BitVec 7) (flags : Byte) (stats key pre : Bytes) (rc mc : U24)
  | frameDec (buf key pre : Bytes)
  deriving DecidableEq, Repr

/-- The result fields of a successful response, one constructor per row of R85. -/
inductive Result where
  | acc (acc : Byte)
  | crc (crc : Byte)
  | hdr (hdr : Bytes)
  | header (h : Header)
  | body (body : Bytes)
  | parsedBody (b : Option Body)
  | trl (trl : Bytes)
  | trailer (t : Trailer)
  | nonce (nonce : Bytes)
  | aad (aad : Bytes)
  | pt (pt : Bytes)
  | unpadded (b : Body)
  | frame (frame : Bytes)
  | decoded (d : DecodedFrame)
  deriving DecidableEq, Repr

end Sys2Proof
end

