-- ==== Sys2Proof/WellFormed.lean ====
section
/-! DEFINITION. When a command record is one that a request can carry: the length of every variable and fixed
byte-string operand (30_encoding.md R80, R84). The value ranges of R86 are in the operand types. -/

namespace Sys2Proof

/-- A `b[n]` operand is exactly n bytes (R80). -/
def fixedOk (n : Nat) (s : Bytes) : Bool := s.length == n

/-- A `vb8` operand holds at most 255 bytes: its length is a `u8` (R80). -/
def vb8Ok (s : Bytes) : Bool := decide (s.length < 256)

/-- A `vb16` operand holds at most 65535 bytes: its length is a `u16` (R12, R80). -/
def vb16Ok (s : Bytes) : Bool := decide (s.length < 65536)

/-- The operand lengths of R84, per opcode. -/
def Instr.wf : Instr → Bool
  | .crc7Upd _ _ => true
  | .crc7Frame buf _ _ => vb16Ok buf
  | .hdrPack _ _ _ _ id _ => vb8Ok id
  | .hdrParse buf => vb16Ok buf
  | .bodyPack _ _ _ stats => vb16Ok stats
  | .bodyParse body => vb16Ok body
  | .trlPack _ _ tag _ => fixedOk 16 tag
  | .trlParse trl => fixedOk 23 trl
  | .nonceBuild id4 pre _ _ => fixedOk 4 id4 && fixedOk 2 pre
  | .aadBuild buf _ => vb16Ok buf
  | .padBody _ _ _ stats _ => vb16Ok stats
  | .padUnpad pt => fixedOk 32 pt
  | .frameEnc _ _ _ id _ _ _ _ stats key pre _ _ => vb8Ok id && vb16Ok stats && fixedOk 16 key && fixedOk 2 pre
  | .frameDec buf key pre => vb16Ok buf && fixedOk 16 key && fixedOk 2 pre

/-- The opcode of a command (R83). -/
def Instr.opcode : Instr → Opcode
  | .crc7Upd _ _ => .crc7Upd
  | .crc7Frame _ _ _ => .crc7Frame
  | .hdrPack _ _ _ _ _ _ => .hdrPack
  | .hdrParse _ => .hdrParse
  | .bodyPack _ _ _ _ => .bodyPack
  | .bodyParse _ => .bodyParse
  | .trlPack _ _ _ _ => .trlPack
  | .trlParse _ => .trlParse
  | .nonceBuild _ _ _ _ => .nonceBuild
  | .aadBuild _ _ => .aadBuild
  | .padBody _ _ _ _ _ => .padBody
  | .padUnpad _ => .padUnpad
  | .frameEnc _ _ _ _ _ _ _ _ _ _ _ _ _ => .frameEnc
  | .frameDec _ _ _ => .frameDec

/-- A `TxContext` has the sizes of R34. -/
def TxContext.wf (tx : TxContext) : Bool := fixedOk 16 tx.key && fixedOk 2 tx.presharedId

/-- An `RxContext` has the sizes of R35. -/
def RxContext.wf (rx : RxContext) : Bool := fixedOk 16 rx.key && fixedOk 2 rx.presharedId

/-- A frame is well formed for encoding when `|id| ≤ 15`, and `|id| ≥ 4` when secure (R29). -/
def Frame.wf (f : Frame) : Bool := decide (f.id.length ≤ 15) && (!f.secure || decide (4 ≤ f.id.length))

end Sys2Proof
end

