-- ==== Sys2Proof/Decode.lean ====
section
/-! DEFINITION. `DecodeRequest` (30_encoding.md R81), total on any byte string and refusing by status, and the encoder
of requests (R79, R84). Both are written from the opcode map of R83 and the formats of R84 and R86. -/

namespace Sys2Proof

/-- The opcode value of a command (R83). -/
def opcodeByte : Opcode → Byte
  | .crc7Upd => 0x01
  | .crc7Frame => 0x02
  | .hdrPack => 0x10
  | .hdrParse => 0x11
  | .bodyPack => 0x12
  | .bodyParse => 0x13
  | .trlPack => 0x14
  | .trlParse => 0x15
  | .nonceBuild => 0x20
  | .aadBuild => 0x21
  | .padBody => 0x30
  | .padUnpad => 0x31
  | .frameEnc => 0x40
  | .frameDec => 0x41

/-- The opcodes in the order of R83. -/
def opcodes : List Opcode :=
  [.crc7Upd, .crc7Frame, .hdrPack, .hdrParse, .bodyPack, .bodyParse, .trlPack, .trlParse,
    .nonceBuild, .aadBuild, .padBody, .padUnpad, .frameEnc, .frameDec]

/-- The opcode map of R83 read from an opcode byte; every other value is reserved (R87). -/
def opcodeOf (b : Byte) : Option Opcode := opcodes.find? fun o => opcodeByte o == b

/-- The mnemonic of an opcode (R83). -/
def mnemonic : Opcode → String
  | .crc7Upd => "CRC7.UPD"
  | .crc7Frame => "CRC7.FRAME"
  | .hdrPack => "HDR.PACK"
  | .hdrParse => "HDR.PARSE"
  | .bodyPack => "BODY.PACK"
  | .bodyParse => "BODY.PARSE"
  | .trlPack => "TRL.PACK"
  | .trlParse => "TRL.PARSE"
  | .nonceBuild => "NONCE.BUILD"
  | .aadBuild => "AAD.BUILD"
  | .padBody => "PAD.BODY"
  | .padUnpad => "PAD.UNPAD"
  | .frameEnc => "FRAME.ENC"
  | .frameDec => "FRAME.DEC"

/-- `ftype` is at most 0x7F (R86). -/
def ftypeField : Field := { kind := .u8, limit := some 0x7F }

/-- `seq` is at most 0x0F (R86). -/
def seqField : Field := { kind := .u8, limit := some 0x0F }

/-- `valve` is at most 0x7F (R86). -/
def valveField : Field := { kind := .u8, limit := some 0x7F }

/-- Every `bool` is 0x00 or 0x01 (R80, R86). -/
def boolField : Field := { kind := .bool, limit := some 1 }

/-- `Format(op)`: the operand fields after the opcode byte (R84), with the ranges of R86. -/
def requestFormat : Opcode → List Field
  | .crc7Upd => [⟨.u8, none⟩, ⟨.u8, none⟩]
  | .crc7Frame => [⟨.vb16, none⟩, ⟨.u16, none⟩, ⟨.u16, none⟩]
  | .hdrPack => [⟨.u8, none⟩, boolField, ftypeField, seqField, ⟨.vb8, none⟩, ⟨.u8, none⟩]
  | .hdrParse => [⟨.vb16, none⟩]
  | .bodyPack => [boolField, valveField, ⟨.u8, none⟩, ⟨.vb16, none⟩]
  | .bodyParse => [⟨.vb16, none⟩]
  | .trlPack => [⟨.u24, none⟩, ⟨.u24, none⟩, ⟨.fixed 16, none⟩, ⟨.u8, none⟩]
  | .trlParse => [⟨.fixed 23, none⟩]
  | .nonceBuild => [⟨.fixed 4, none⟩, ⟨.fixed 2, none⟩, ⟨.u24, none⟩, ⟨.u24, none⟩]
  | .aadBuild => [⟨.vb16, none⟩, ⟨.u16, none⟩]
  | .padBody => [boolField, valveField, ⟨.u8, none⟩, ⟨.vb16, none⟩, ⟨.u8, none⟩]
  | .padUnpad => [⟨.fixed 32, none⟩]
  | .frameEnc => [boolField, ftypeField, seqField, ⟨.vb8, none⟩, boolField, boolField, valveField, ⟨.u8, none⟩,
      ⟨.vb16, none⟩, ⟨.fixed 16, none⟩, ⟨.fixed 2, none⟩, ⟨.u24, none⟩, ⟨.u24, none⟩]
  | .frameDec => [⟨.vb16, none⟩, ⟨.fixed 16, none⟩, ⟨.fixed 2, none⟩]

/-- The first `n` bytes and the rest, or nothing when fewer are there (R81: `p + n > |r|`). -/
def takeBytes (n : Nat) (r : Bytes) : Option (Bytes × Bytes) :=
  if r.length < n then none else some (r.take n, r.drop n)

/-- One field taken from the front of a request: its value (of a `vb8` or `vb16`, the bytes after the length
prefix) and the rest; nothing when the field does not fit (R81). -/
def takeField : FieldKind → Bytes → Option (Bytes × Bytes)
  | .u8, r => takeBytes 1 r
  | .u16, r => takeBytes 2 r
  | .u24, r => takeBytes 3 r
  | .bool, r => takeBytes 1 r
  | .fixed n, r => takeBytes n r
  | .vb8, k :: r => takeBytes k.toNat r
  | .vb8, [] => none
  | .vb16, hi :: lo :: r => takeBytes (fromBe16 [hi, lo]).toNat r
  | .vb16, _ => none

/-- The field loop of R81: the values in order and what is left. -/
def takeFields : List FieldKind → Bytes → Option (List Bytes × Bytes)
  | [], r => some ([], r)
  | k :: ks, r =>
    match takeField k r with
    | none => none
    | some (v, r') =>
      match takeFields ks r' with
      | none => none
      | some (vs, r'') => some (v :: vs, r'')

/-- The range check of R81 and R86 on one field's value. -/
def fieldInRange (f : Field) (v : Bytes) : Bool :=
  match f.limit with
  | none => true
  | some m => decide ((byteAt v 0).toNat ≤ m)

/-- The range check on every field (R81, R86). -/
def fieldsInRange (fs : List Field) (vs : List Bytes) : Bool := (fs.zip vs).all fun p => fieldInRange p.1 p.2

/-- The value of a `u8` field. -/
def u8Of (v : Bytes) : Byte := byteAt v 0

/-- The value of a `bool` field whose byte is in range. -/
def boolOf (v : Bytes) : Bool := byteAt v 0 != 0

/-- The value of a 7-bit field whose byte is in range (R86: `ftype`, `valve`). -/
def bits7Of (v : Bytes) : BitVec 7 := (byteAt v 0).setWidth 7

/-- The value of a 4-bit field whose byte is in range (R86: `seq`). -/
def bits4Of (v : Bytes) : BitVec 4 := (byteAt v 0).setWidth 4

/-- The command record of an opcode and its field values (R81). Field lists of another length than the opcode's
format never reach it. -/
def commandOf : Opcode → List Bytes → Option Instr
  | .crc7Upd, [acc, d] => some (.crc7Upd (u8Of acc) (u8Of d))
  | .crc7Frame, [buf, off, len] => some (.crc7Frame buf (fromBe16 off) (fromBe16 len))
  | .hdrPack, [len, sec, ftype, seq, id, blen] =>
    some (.hdrPack (u8Of len) (boolOf sec) (bits7Of ftype) (bits4Of seq) id (u8Of blen))
  | .hdrParse, [buf] => some (.hdrParse buf)
  | .bodyPack, [cfh, valve, flags, stats] => some (.bodyPack (boolOf cfh) (bits7Of valve) (u8Of flags) stats)
  | .bodyParse, [body] => some (.bodyParse body)
  | .trlPack, [rc, mc, tag, alg] => some (.trlPack (fromBe24 rc) (fromBe24 mc) tag (u8Of alg))
  | .trlParse, [trl] => some (.trlParse trl)
  | .nonceBuild, [id4, pre, rc, mc] => some (.nonceBuild id4 pre (fromBe24 rc) (fromBe24 mc))
  | .aadBuild, [buf, hbc] => some (.aadBuild buf (fromBe16 hbc))
  | .padBody, [cfh, valve, flags, stats, dbl] =>
    some (.padBody (boolOf cfh) (bits7Of valve) (u8Of flags) stats (u8Of dbl))
  | .padUnpad, [pt] => some (.padUnpad pt)
  | .frameEnc, [sec, ftype, seq, id, hasBody, cfh, valve, flags, stats, key, pre, rc, mc] =>
    some (.frameEnc (boolOf sec) (bits7Of ftype) (bits4Of seq) id (boolOf hasBody) (boolOf cfh) (bits7Of valve)
      (u8Of flags) stats key pre (fromBe24 rc) (fromBe24 mc))
  | .frameDec, [buf, key, pre] => some (.frameDec buf key pre)
  | _, _ => none

/-- The part of `DecodeRequest` after the opcode is known: the fields must parse, nothing may trail, and every
value must be in range; each failure is IllegalOperand (R81). -/
def decodeOperands (op : Opcode) (r : Bytes) : Except Status Instr :=
  match takeFields ((requestFormat op).map Field.kind) r with
  | none => .error .illegalOperand
  | some (vs, rest) =>
    if rest ≠ [] then .error .illegalOperand
    else if !fieldsInRange (requestFormat op) vs then .error .illegalOperand
    else
      match commandOf op vs with
      | none => .error .illegalOperand
      | some i => .ok i

/-- `DecodeRequest(r)` (R81): IllegalCommand for an empty request or a reserved opcode (R87), otherwise the
command record or IllegalOperand. -/
def decode : Bytes → Except Status Instr
  | [] => .error .illegalCommand
  | op :: r =>
    match opcodeOf op with
    | none => .error .illegalCommand
    | some o => decodeOperands o r

/-- The operand fields of a request, in the order of R84. -/
def encodeOperands : Instr → Bytes
  | .crc7Upd acc d => [acc, d]
  | .crc7Frame buf off len => vb16 buf ++ be16 off ++ be16 len
  | .hdrPack len sec ftype seq id blen =>
    [len, boolByte sec, ftype.setWidth 8, seq.setWidth 8] ++ vb8 id ++ [blen]
  | .hdrParse buf => vb16 buf
  | .bodyPack cfh valve flags stats => [boolByte cfh, valve.setWidth 8, flags] ++ vb16 stats
  | .bodyParse body => vb16 body
  | .trlPack rc mc tag alg => be24 rc ++ be24 mc ++ tag ++ [alg]
  | .trlParse trl => trl
  | .nonceBuild id4 pre rc mc => id4 ++ pre ++ be24 rc ++ be24 mc
  | .aadBuild buf hbc => vb16 buf ++ be16 hbc
  | .padBody cfh valve flags stats dbl => [boolByte cfh, valve.setWidth 8, flags] ++ vb16 stats ++ [dbl]
  | .padUnpad pt => pt
  | .frameEnc sec ftype seq id hasBody cfh valve flags stats key pre rc mc =>
    [boolByte sec, ftype.setWidth 8, seq.setWidth 8] ++ vb8 id ++
      [boolByte hasBody, boolByte cfh, valve.setWidth 8, flags] ++ vb16 stats ++ key ++ pre ++ be24 rc ++ be24 mc
  | .frameDec buf key pre => vb16 buf ++ key ++ pre

/-- The request of a command: its opcode, then its operand fields with nothing between them (R79, R84). -/
def encode (i : Instr) : Bytes := opcodeByte i.opcode :: encodeOperands i

/-- The number of bytes a field takes at the front of `r`, its length prefix included (R81, R82). -/
def fieldSize : FieldKind → Bytes → Option Nat
  | .u8, _ => some 1
  | .u16, _ => some 2
  | .u24, _ => some 3
  | .bool, _ => some 1
  | .fixed n, _ => some n
  | .vb8, k :: _ => some (1 + k.toNat)
  | .vb8, [] => none
  | .vb16, hi :: lo :: _ => some (2 + (fromBe16 [hi, lo]).toNat)
  | .vb16, _ => none

/-- The number of bytes a list of fields takes at the front of `r` (R82). -/
def fieldsSize : List FieldKind → Bytes → Option Nat
  | [], _ => some 0
  | k :: ks, r =>
    match fieldSize k r with
    | none => none
    | some n =>
      match fieldsSize ks (r.drop n) with
      | none => none
      | some m => some (n + m)

/-- The length of the request that starts with `r`, told from the opcode's format and the length prefixes inside it
(R82); nothing for a reserved opcode or where a length prefix is cut off. -/
def requestSize : Bytes → Option Nat
  | [] => none
  | op :: r =>
    match opcodeOf op with
    | none => none
    | some o => (fieldsSize ((requestFormat o).map Field.kind) r).map (1 + ·)

/-- `n` bytes from the front of `r`, zeros where `r` has ended. -/
def takeZeroFilled (n : Nat) (r : Bytes) : Bytes := r.take n ++ zeros (n - r.length)

/-- One field's bytes from the front of `r`, zeros where `r` has ended. -/
def zeroFilledField : FieldKind → Bytes → Bytes
  | .u8, r => takeZeroFilled 1 r
  | .u16, r => takeZeroFilled 2 r
  | .u24, r => takeZeroFilled 3 r
  | .bool, r => takeZeroFilled 1 r
  | .fixed n, r => takeZeroFilled n r
  | .vb8, r => takeZeroFilled (1 + (byteAt r 0).toNat) r
  | .vb16, r => takeZeroFilled (2 + (fromBe16 [byteAt r 0, byteAt r 1]).toNat) r

/-- A request's operand fields completed with zeros; bytes past the last field stay. -/
def zeroFilledFields : List FieldKind → Bytes → Bytes
  | [], r => r
  | k :: ks, r =>
    let v := zeroFilledField k r
    v ++ zeroFilledFields ks (r.drop v.length)

/-- The request that starts with these bytes and whose every later byte is 0, up to the length its own format and
prefixes give (R82, R84). A reserved opcode has no format, so nothing is added. -/
def zeroFilledRequest : Bytes → Bytes
  | [] => []
  | op :: r =>
    match opcodeOf op with
    | none => op :: r
    | some o => op :: zeroFilledFields ((requestFormat o).map Field.kind) r

/-- The bytes of an opcode-table word: bit 0 is the least significant bit of the first byte, and the second byte is
bits 15 to 8 (the table's numbering). -/
def tableWordBytes (nbits w : Nat) : Bytes :=
  (List.range (nbits / 8)).map fun k => BitVec.ofNat 8 (w >>> (8 * k))

/-- The request that an opcode-table word stands for: its bytes, and zeros for every operand byte the word gives
no bits. -/
def tableWordRequest (nbits w : Nat) : Bytes := zeroFilledRequest (tableWordBytes nbits w)

/-- The command the decoder reads from an opcode-table word; nothing where it refuses. -/
def decodeTableWord (nbits w : Nat) : Option Instr :=
  match decode (tableWordRequest nbits w) with
  | .ok i => some i
  | .error _ => none

/-- The result fields that follow the status byte of a successful response (R85). -/
def responseFormat : Opcode → List FieldKind
  | .crc7Upd => [.u8]
  | .crc7Frame => [.u8]
  | .hdrPack => [.vb16]
  | .hdrParse => [.u8, .bool, .u8, .u8, .vb8, .u8]
  | .bodyPack => [.vb16]
  | .bodyParse => [.bool, .bool, .u8, .u8, .vb16]
  | .trlPack => [.fixed 23]
  | .trlParse => [.u24, .u24, .fixed 16, .u8]
  | .nonceBuild => [.fixed 12]
  | .aadBuild => [.vb16]
  | .padBody => [.fixed 32]
  | .padUnpad => [.bool, .u8, .u8, .vb16]
  | .frameEnc => [.vb16]
  | .frameDec => [.u8, .bool, .u8, .u8, .vb8, .bool, .bool, .u8, .u8, .vb16, .u24, .u24]

/-- The length of the response that starts with `r`, told from the request's opcode and the status byte (R82): one
byte when the status is not OK (R79, R222), otherwise the status byte and the result fields of R85. -/
def responseSize (op : Opcode) : Bytes → Option Nat
  | [] => none
  | st :: r => if st ≠ 0x00 then some 1 else (fieldsSize (responseFormat op) r).map (1 + ·)

end Sys2Proof
end

