-- ==== Sys2Proof/Config.lean ====
section
/-! DEFINITION. The configuration of the block: the three open parameters (00_scope.md R11), fixed before reset and
read or written by no command (10_state.md R23), and the free values of this block. -/

namespace Sys2Proof

/-- A configuration: what 00_scope.md R11 leaves open. It is no state (R23), so it may hold functions.
`aadIncludesBodyLen` is `P_AAD_INCLUDES_BODYLEN` (R144); `aeadSeal key nonce aad pt` is `AEAD_SEAL`, total, giving the
ciphertext and the tag; `aeadOpen key nonce aad ct tag` is `AEAD_OPEN`. Key, nonce and tag have the sizes of R160: 16, 12
and 16 bytes (R160, R166). -/
structure Config where
  aadIncludesBodyLen : Bool
  aeadSeal : Vector Byte 16 → Vector Byte 12 → Bytes → Bytes → Bytes × Vector Byte 16
  aeadOpen : Vector Byte 16 → Vector Byte 12 → Bytes → Bytes → Vector Byte 16 → Option Bytes

/-- OPEN parameter `P_AAD_INCLUDES_BODYLEN` of this block (R11, 92_eei_decisions.md D9): log entry 1. -/
opaque Config.freeAadIncludesBodyLen : Bool

/-- OPEN parameter `AEAD_SEAL` of this block (R11, D43): log entry 2. -/
opaque Config.freeAeadSeal : Vector Byte 16 → Vector Byte 12 → Bytes → Bytes → Bytes × Vector Byte 16

/-- OPEN parameter `AEAD_OPEN` of this block (R11, D43): log entry 2. -/
opaque Config.freeAeadOpen : Vector Byte 16 → Vector Byte 12 → Bytes → Bytes → Vector Byte 16 → Option Bytes

/-- FREE: which of several waiting hosts is served at the n-th contended choice (20_memory.md R63, 60_exceptions.md
R240: the order between hosts is unspecified): log entry 3. -/
opaque Config.freeArbiter : Nat → Nat

/-- The configuration of the block that `step` runs: every open parameter open. -/
def Config.block : Config where
  aadIncludesBodyLen := Config.freeAadIncludesBodyLen
  aeadSeal := Config.freeAeadSeal
  aeadOpen := Config.freeAeadOpen

end Sys2Proof
end

