-- ==== Sys2Proof/Machine/Flags.lean ====
section
/-! DEFINITION. The block has no status flags (10_state.md R22): the outcome of a command is its status. Here stand the
status codes (60_exceptions.md R220), their classes, and the fields of a body's `flags` byte (10_state.md R32), which the
block carries and never computes or checks. -/

namespace Sys2Proof

/-- The status byte of a response (R220). -/
def statusCode : Status → Byte
  | .ok => 0x00
  | .invalidBodyLength => 0x01
  | .invalidIdLength => 0x02
  | .bodyTooLargeForSecureBlock => 0x03
  | .truncated => 0x10
  | .checksumMismatch => 0x11
  | .malformedHeader => 0x12
  | .unsupportedAlgorithm => 0x13
  | .authenticationFailure => 0x14
  | .illegalCommand => 0xF0
  | .illegalOperand => 0xF1

/-- The eleven statuses, in the order of R220. -/
def statuses : List Status :=
  [.ok, .invalidBodyLength, .invalidIdLength, .bodyTooLargeForSecureBlock, .truncated, .checksumMismatch,
    .malformedHeader, .unsupportedAlgorithm, .authenticationFailure, .illegalCommand, .illegalOperand]

/-- The document's three encode errors (R37, R220). -/
def isEncodeError : Status → Bool
  | .invalidBodyLength | .invalidIdLength | .bodyTooLargeForSecureBlock => true
  | _ => false

/-- The document's five decode errors (R37, R220). -/
def isDecodeError : Status → Bool
  | .truncated | .checksumMismatch | .malformedHeader | .unsupportedAlgorithm | .authenticationFailure => true
  | _ => false

/-- The two interface errors (R37, R220). -/
def isInterfaceError : Status → Bool
  | .illegalCommand | .illegalOperand => true
  | _ => false

/-- The statuses, besides OK, IllegalCommand and a request-level IllegalOperand, that a command can raise (R221). -/
def commandStatuses : Opcode → List Status
  | .crc7Upd => []
  | .crc7Frame => [.illegalOperand]
  | .hdrPack => [.invalidIdLength]
  | .hdrParse => [.truncated]
  | .bodyPack => [.invalidBodyLength]
  | .bodyParse => [.malformedHeader]
  | .trlPack => []
  | .trlParse => []
  | .nonceBuild => []
  | .aadBuild => [.truncated]
  | .padBody => [.bodyTooLargeForSecureBlock, .invalidBodyLength]
  | .padUnpad => [.malformedHeader]
  | .frameEnc => [.bodyTooLargeForSecureBlock, .invalidIdLength, .invalidBodyLength]
  | .frameDec => [.truncated, .malformedHeader, .checksumMismatch, .unsupportedAlgorithm, .authenticationFailure]

/-- Bit 7 of a flags byte (R32). -/
def flagFault (f : Byte) : Bool := f.getLsbD 7

/-- Bit 6 of a flags byte (R32). -/
def flagLowBattery (f : Byte) : Bool := f.getLsbD 6

/-- Bit 5 of a flags byte (R32). -/
def flagTamper (f : Byte) : Bool := f.getLsbD 5

/-- Bit 4 of a flags byte (R32). -/
def flagStatsPresent (f : Byte) : Bool := f.getLsbD 4

/-- Bits 3:2 of a flags byte: the occupancy code, whose values the source does not give (R32). -/
def flagOccupancy (f : Byte) : BitVec 2 := f.extractLsb' 2 2

/-- Bits 1:0 of a flags byte: reserved, fixed at 0b01 by a sender and never checked by the block (R32). -/
def flagReserved (f : Byte) : BitVec 2 := f.extractLsb' 0 2

end Sys2Proof
end

