-- ==== Sys2Proof/Machine/Params.lean ====
section
/-! DEFINITION. The fixed parameters of the block (00_scope.md R10). -/

namespace Sys2Proof.Params

abbrev maxIdLen : Nat := 15
abbrev minSecureIdLen : Nat := 4
abbrev maxInsecureBodyLen : Nat := 251
abbrev secureBlock : Nat := 32
abbrev insecureTrailer : Nat := 1
abbrev secureTrailer : Nat := 23
abbrev tagBytes : Nat := 16
abbrev crcPoly : BitVec 7 := 0x37
abbrev crcInit : Byte := 0x7F
abbrev crcZeroSubst : Byte := 0x80
abbrev algAes128Gcm : Byte := 0x80
/-- A bound on the phase steps of one FRAME.ENC or FRAME.DEC: "at most about 300 byte steps" (45_encoder.md R184;
46_decoder.md R207 bounds the decoder's bytes the same way). The step functions of the state machines take fuel from it. -/
abbrev fsmSteps : Nat := 300
abbrev valveNone : BitVec 7 := 0x7F

end Sys2Proof.Params
end

