-- ==== Sys2Proof/Machine/Operands.lean ====
section
/-! DEFINITION. Operand and result forms: how a command's operands spread over the records of 10_state.md §3 (45_encoder.md
R170), and how a result is laid out after the status byte (30_encoding.md R79, R85). -/

namespace Sys2Proof

/-- The frame that FRAME.ENC's operands spread: with `hasBody = 0` there is no body and the four body operands are
ignored (R170). -/
def frameOfOperands (sec : Bool) (ftype : BitVec 7) (seq : BitVec 4) (id : Bytes) (hasBody cfh : Bool)
    (valve : BitVec 7) (flags : Byte) (stats : Bytes) : Frame where
  secure := sec
  frameType := ftype
  seqNo := seq
  id := id
  body := if hasBody then some { callForHeat := cfh, valvePos := valve, flags := flags, stats := stats } else none

/-- Whether a valve position says that a valve is present: 0x7F means none (R31). DESIGN CHOICE: the meaning of 101 to 126 is
the application's, and the answer that they say a valve is present is the model's (log entry 21). No command uses it. -/
def hasValve (v : BitVec 7) : Bool := v != Params.valveNone

/-- The fields `cfh, valve, flags, stats` of a body (R85). -/
def bodyFields (b : Body) : Bytes := [boolByte b.callForHeat, b.valvePos.setWidth 8, b.flags] ++ vb16 b.stats

/-- The fields `present, cfh, valve, flags, stats` of an optional body: zeros and empty stats when there is none
(R85, 92_eei_decisions.md D42). -/
def optionalBodyFields : Option Body → Bytes
  | some b => boolByte true :: bodyFields b
  | none => boolByte false :: bodyFields { callForHeat := false, valvePos := 0, flags := 0, stats := [] }

/-- The fields `sec, ftype, seq, id` of a decoded header (R85). -/
def headerPrefixFields (sec : Bool) (ftype : BitVec 7) (seq : BitVec 4) (id : Bytes) : Bytes :=
  [boolByte sec, ftype.setWidth 8, seq.setWidth 8] ++ vb8 id

/-- The result fields after the status byte 0x00 (R85). -/
def resultFields : Result → Bytes
  | .acc a => [a]
  | .crc c => [c]
  | .hdr h => vb16 h
  | .header h => [h.len] ++ headerPrefixFields h.secure h.frameType h.seqNo h.id ++ [h.bodyLen]
  | .body b => vb16 b
  | .parsedBody b => optionalBodyFields b
  | .trl t => t
  | .trailer t => be24 t.restartCounter ++ be24 t.msgCounter ++ t.tag ++ [t.alg]
  | .nonce n => n
  | .aad a => vb16 a
  | .pt p => p
  | .unpadded b => bodyFields b
  | .frame f => vb16 f
  | .decoded d =>
    [d.flen] ++ headerPrefixFields d.frame.secure d.frame.frameType d.frame.seqNo d.frame.id ++
      optionalBodyFields d.frame.body ++ be24 d.rxRestartCounter ++ be24 d.rxMsgCounter

/-- The response bytes: the status 0x00 and the result fields, or an error's status byte alone (R79, R222). -/
def responseBytes : Except Status Result → Bytes
  | .ok r => statusCode .ok :: resultFields r
  | .error e => [statusCode e]

end Sys2Proof
end

