-- ==== Sys2Proof/Machine/State.lean ====
section
/-! DEFINITION. The state of the block: its interface phase (10_state.md R25), the requests waiting at its interface, the
responses it has delivered, and the hidden state of the encoder and decoder state machines (R27, 45_encoder.md R184,
46_decoder.md R205). The block has no register file, program counter, flag, control register or memory (R20 to R23,
20_memory.md R50). -/

namespace Sys2Proof.Machine

/-- A request as submitted: its bytes (R79), and the host that sent it, which is where its response goes (R240). The
number only tells one sender from another; the block treats all hosts alike. -/
structure Request where
  host : Nat
  bytes : Bytes
  deriving DecidableEq, Repr

/-- A response as delivered: its bytes (R79) and the host it went to (R240). -/
structure Response where
  host : Nat
  bytes : Bytes
  deriving DecidableEq, Repr

/-- The two phases of the interface (R25). -/
inductive Phase where
  | idle
  | busy (req : Request)
  deriving DecidableEq, Repr

/-- The phases of the encoder state machine, E_IDLE to E_ERR(code) (R184). -/
inductive EncPhase where
  | idle | check | hdr | body | crc | pad | seals | ct | trl | done
  | err (code : Status)
  deriving DecidableEq, Repr

/-- The phases of the decoder state machine, D_IDLE to D_ERR(code) (R205). -/
inductive DecPhase where
  | idle | len | pre | bound | hdr | id | blen | crc | body | trl | opens | unpad | done
  | err (code : Status)
  deriving DecidableEq, Repr

/-- The hidden state inside a command: the elements of R27, and after them the other latches that the phase tables of
R184 and R205 write in one phase and read in a later one. -/
structure Hidden where
  encPhase : EncPhase
  decPhase : DecPhase
  idx : Nat
  acc : Byte
  len : Byte
  secure : Bool
  frameType : BitVec 7
  seqNo : BitVec 4
  idLen : BitVec 4
  bodyLen : Byte
  out : Bytes
  pt : Bytes
  id : Bytes
  ct : Bytes
  restartCounter : U24
  msgCounter : U24
  tag : Bytes
  body : Option Body
  deriving DecidableEq, Repr

/-- The latches cleared, both state machines idle: what R184 and R205 leave at the end of a command. The value of a
cleared element is the model's (log entry 4). -/
def Hidden.cleared : Hidden where
  encPhase := .idle
  decPhase := .idle
  idx := 0
  acc := 0
  len := 0
  secure := false
  frameType := 0
  seqNo := 0
  idLen := 0
  bodyLen := 0
  out := []
  pt := []
  id := []
  ct := []
  restartCounter := 0
  msgCounter := 0
  tag := []
  body := none

/-- One phase step of the encoder or decoder state machine: it goes on with new latches, or it responds and leaves the
latches it is given (R184, R205). -/
inductive Micro (α : Type) where
  | go (h : Hidden)
  | respond (h : Hidden) (r : Except Status α)

/-- The state of the block and of its interface. `waiting` holds the requests that hosts have submitted and the block
has not accepted, oldest first; `delivered` the responses handed over, oldest first; `choices` counts the contended
choices among hosts, the argument of the free arbiter (the model's own field). -/
structure State where
  phase : Phase
  waiting : List Request
  delivered : List Response
  hidden : Hidden
  choices : Nat
  deriving DecidableEq, Repr

/-- Why the machine would stop with a fault. There is no constructor: the block has no fault that stops it and no stuck
state, and every error is a response (60_exceptions.md R223, 93_implementation_defined.md). Safe: nothing is claimed
of a fault. -/
inductive Fault where
  deriving DecidableEq, Repr

/-- Why the model would give an instruction no meaning. -/
inductive Refusal where
  /-- Raised by an arm of `exec` whose instruction has no meaning yet; no arm raises it now. Safe: a refused
  instruction has no next state, so nothing is claimed of one. -/
  | notModelled (mnemonic : String)
  deriving DecidableEq, Repr

/-- After reset the block is IDLE with no accepted request (R45, R250). The hidden state is unspecified by R45; the
model takes it cleared (log entry 4). The interface holds no request and no response (log entry 5). -/
def State.reset : State where
  phase := .idle
  waiting := []
  delivered := []
  hidden := Hidden.cleared
  choices := 0

end Sys2Proof.Machine
end

