-- ==== Sys2Proof/Machine/Ops.lean ====
section
/-! DEFINITION. The operations on State that every command shares: accepting a request, delivering a response, and the
error response, which is the block's trap (10_state.md R25, 60_exceptions.md R226); and what a host and the reset line
do at the interface. -/

namespace Sys2Proof.Machine

/-- The host that the current command answers (R226, R240). No command runs in IDLE; the value there is arbitrary
(log entry 6). -/
def sender (s : State) : Nat :=
  match s.phase with
  | .busy r => r.host
  | .idle => 0

/-- One response is delivered whole to the sender and the block returns to IDLE (R25, 20_memory.md R60). -/
def deliver (bytes : Bytes) (s : State) : State :=
  { s with phase := .idle, delivered := s.delivered ++ [{ host := sender s, bytes := bytes }] }

/-- Trap entry (R226): the error response is the status byte alone (R222), and the block returns to IDLE. No state is
saved and nothing vectors, because the block has neither; there is no return from a trap (R227): the next step accepts
the next request as after a success. -/
def raiseError (e : Status) (s : State) : State := deliver (responseBytes (.error e)) s

/-- A command ends: OK with its result, or its error (00_scope.md R17). -/
def complete (r : Except Status Result) (s : State) : Host.Outcome State Fault Refusal :=
  match r with
  | .ok v => .next (deliver (responseBytes (.ok v)) s)
  | .error e => .next (raiseError e s)

/-- The positions in `waiting` that hold the oldest request of their host, counted from `k`; `seen` are the hosts met
before. Only these can be accepted, because one host's requests are accepted in its issue order (R63). -/
def firstOfHost (seen : List Nat) (k : Nat) : List Request → List Nat
  | [] => []
  | r :: rs => if seen.contains r.host then firstOfHost seen (k + 1) rs else k :: firstOfHost (r.host :: seen) (k + 1) rs

/-- The position accepted next: the only candidate, or among several hosts' candidates the one the free arbiter
names (R63, R240; log entry 3). -/
def choose (n : Nat) : List Nat → Nat
  | [] => 0
  | [k] => k
  | ks => ks.getD (Config.freeArbiter n % ks.length) 0

/-- Whether hosts contend: more than one candidate. -/
def contended (w : List Request) : Bool := decide (1 < (firstOfHost [] 0 w).length)

/-- From IDLE the block accepts one request and moves to BUSY (R25); the request is taken as a snapshot (R59). With
nothing waiting it stays IDLE. -/
def accept (s : State) : State :=
  let k := choose s.choices (firstOfHost [] 0 s.waiting)
  match s.waiting[k]? with
  | none => s
  | some r =>
    { s with
      phase := .busy r
      waiting := s.waiting.eraseIdx k
      choices := if contended s.waiting then s.choices + 1 else s.choices }

/-- A host submits a request: it waits, behind that host's earlier ones, neither lost nor merged (R25, R63). DESIGN CHOICE: the
waiting request holds the bytes as submitted, and only `rewriteWaiting` changes them before acceptance (log entry 22). -/
def submit (host : Nat) (bytes : Bytes) (s : State) : State :=
  { s with waiting := s.waiting ++ [{ host := host, bytes := bytes }] }

/-- A host changes the buffer of its `k`-th waiting request after it submitted it. The snapshot is taken at acceptance (R59),
so the block then sees the new bytes; a request already accepted is out of reach. That a host may do so at all is a
DESIGN CHOICE: the spec binds it before submission and says nothing of the time between (R257; log entry 22). -/
def rewriteWaiting (k : Nat) (bytes : Bytes) (s : State) : State :=
  { s with waiting := s.waiting.modify k fun r => { r with bytes := bytes } }

/-- The reset line (R45, R250): IDLE, the request in flight discarded with no response, the hidden state unspecified
(here cleared, log entry 4). Requests not yet accepted and responses already delivered lie outside the block and stay
(log entry 5). DESIGN CHOICE: the count of contended choices goes on too, so the order among hosts does not start over at
reset (log entry 23). -/
def resetLine (s : State) : State := { s with phase := .idle, hidden := Hidden.cleared }

end Sys2Proof.Machine
end

