-- ==== Sys2Proof/Machine/Crc.lean ====
section
/-! DEFINITION. The CRC-7 polynomial engine: CRC7.UPD and CRC7.FRAME (40_crc7.md R100 to R108). -/

namespace Sys2Proof

/-- One bit of the serial register (R101): feedback is bit 6 XOR the data bit; shift left, truncate to 7 bits, and XOR
0x37 on feedback. -/
def crc7Bit (c : BitVec 7) (b : Bool) : BitVec 7 :=
  if c.getLsbD 6 != b then (c <<< 1) ^^^ Params.crcPoly else c <<< 1

/-- The bits of a byte, most significant first (R56, R101). -/
def msbFirst (d : Byte) : List Bool := [7, 6, 5, 4, 3, 2, 1, 0].map fun i => d.getLsbD i

/-- `Crc7Update(acc, d)` (R101): bit 7 of `acc` is ignored and bit 7 of the result is 0. -/
def crc7Update (acc d : Byte) : Byte := ((msbFirst d).foldl crc7Bit (acc.setWidth 7)).setWidth 8

/-- The step table of 95_test_vectors.md V-CRC-T: `T[x] = Crc7Update(0, x)`, copied from the spec (R102). -/
def crcTable : List Byte :=
  [0x00, 0x37, 0x6e, 0x59, 0x6b, 0x5c, 0x05, 0x32, 0x61, 0x56, 0x0f, 0x38, 0x0a, 0x3d, 0x64, 0x53,
   0x75, 0x42, 0x1b, 0x2c, 0x1e, 0x29, 0x70, 0x47, 0x14, 0x23, 0x7a, 0x4d, 0x7f, 0x48, 0x11, 0x26,
   0x5d, 0x6a, 0x33, 0x04, 0x36, 0x01, 0x58, 0x6f, 0x3c, 0x0b, 0x52, 0x65, 0x57, 0x60, 0x39, 0x0e,
   0x28, 0x1f, 0x46, 0x71, 0x43, 0x74, 0x2d, 0x1a, 0x49, 0x7e, 0x27, 0x10, 0x22, 0x15, 0x4c, 0x7b,
   0x0d, 0x3a, 0x63, 0x54, 0x66, 0x51, 0x08, 0x3f, 0x6c, 0x5b, 0x02, 0x35, 0x07, 0x30, 0x69, 0x5e,
   0x78, 0x4f, 0x16, 0x21, 0x13, 0x24, 0x7d, 0x4a, 0x19, 0x2e, 0x77, 0x40, 0x72, 0x45, 0x1c, 0x2b,
   0x50, 0x67, 0x3e, 0x09, 0x3b, 0x0c, 0x55, 0x62, 0x31, 0x06, 0x5f, 0x68, 0x5a, 0x6d, 0x34, 0x03,
   0x25, 0x12, 0x4b, 0x7c, 0x4e, 0x79, 0x20, 0x17, 0x44, 0x73, 0x2a, 0x1d, 0x2f, 0x18, 0x41, 0x76,
   0x1a, 0x2d, 0x74, 0x43, 0x71, 0x46, 0x1f, 0x28, 0x7b, 0x4c, 0x15, 0x22, 0x10, 0x27, 0x7e, 0x49,
   0x6f, 0x58, 0x01, 0x36, 0x04, 0x33, 0x6a, 0x5d, 0x0e, 0x39, 0x60, 0x57, 0x65, 0x52, 0x0b, 0x3c,
   0x47, 0x70, 0x29, 0x1e, 0x2c, 0x1b, 0x42, 0x75, 0x26, 0x11, 0x48, 0x7f, 0x4d, 0x7a, 0x23, 0x14,
   0x32, 0x05, 0x5c, 0x6b, 0x59, 0x6e, 0x37, 0x00, 0x53, 0x64, 0x3d, 0x0a, 0x38, 0x0f, 0x56, 0x61,
   0x17, 0x20, 0x79, 0x4e, 0x7c, 0x4b, 0x12, 0x25, 0x76, 0x41, 0x18, 0x2f, 0x1d, 0x2a, 0x73, 0x44,
   0x62, 0x55, 0x0c, 0x3b, 0x09, 0x3e, 0x67, 0x50, 0x03, 0x34, 0x6d, 0x5a, 0x68, 0x5f, 0x06, 0x31,
   0x4a, 0x7d, 0x24, 0x13, 0x21, 0x16, 0x4f, 0x78, 0x2b, 0x1c, 0x45, 0x72, 0x40, 0x77, 0x2e, 0x19,
   0x3f, 0x08, 0x51, 0x66, 0x54, 0x63, 0x3a, 0x0d, 0x5e, 0x69, 0x30, 0x07, 0x35, 0x02, 0x5b, 0x6c]

/-- The fold of `Crc7Update` over a byte string, in increasing index order (R103). -/
def crc7Fold (acc : Byte) (s : Bytes) : Byte := s.foldl crc7Update acc

/-- The whitening step: 0x00 becomes 0x80, every other value stays (R104). -/
def whiten (c : Byte) : Byte := if c = 0x00 then Params.crcZeroSubst else c

/-- `FrameCrc(buf, off, len)` (R103, R107). -/
def frameCrc (buf : Bytes) (off len : Nat) : Except Status Byte :=
  if buf.length < off + len then .error .illegalOperand
  else .ok (whiten (crc7Fold Params.crcInit (memRead buf off len)))

/-- What CRC7.UPD answers (R100). -/
def crc7UpdResult (acc d : Byte) : Except Status Result := .ok (.acc (crc7Update acc d))

/-- What CRC7.FRAME answers (R103). -/
def crc7FrameResult (buf : Bytes) (off len : U16) : Except Status Result :=
  match frameCrc buf off.toNat len.toNat with
  | .error e => .error e
  | .ok c => .ok (.crc c)

namespace Machine

/-- CRC7.UPD (R100). -/
def execCrc7Upd (acc d : Byte) (s : State) : Host.Outcome State Fault Refusal := complete (crc7UpdResult acc d) s

/-- CRC7.FRAME (R103). -/
def execCrc7Frame (buf : Bytes) (off len : U16) (s : State) : Host.Outcome State Fault Refusal :=
  complete (crc7FrameResult buf off len) s

end Machine

end Sys2Proof
end

