-- ==== Sys2Proof/Machine/NonceAad.lean ====
section
/-! DEFINITION. The nonce and AAD serializer: NONCE.BUILD and AAD.BUILD (42_nonce_aad.md R140 to R147). -/

namespace Sys2Proof

/-- `BuildNonce` (R140): bytes 0 to 3 the leading ID bytes, 4 to 5 the pre-shared ID bytes, 6 to 8 the restart counter,
9 to 11 the message counter. -/
def buildNonce (id4 pre : Bytes) (rc mc : U24) : Bytes := id4 ++ pre ++ be24 rc ++ be24 mc

/-- `FrameNonce` (R141): the first 4 header ID bytes whatever idLen is (R142), then the pre-shared bytes and the two
counters. The encoder passes its own counters, the decoder those of the trailer. -/
def frameNonce (id pre : Bytes) (rc mc : U24) : Bytes := buildNonce (memRead id 0 4) pre rc mc

/-- `BuildAad` (R143). -/
def buildAad (buf : Bytes) (hbc : Nat) : Except Status Bytes :=
  if buf.length < hbc then .error .truncated else .ok (memRead buf 0 hbc)

/-- `FrameAad` of a frame or header with idLen `n`: its clear header, with the bodyLen byte only when the open parameter
says so (R144, R146). -/
def frameAad (cfg : Config) (frame : Bytes) (n : Nat) : Except Status Bytes :=
  buildAad frame (if cfg.aadIncludesBodyLen then 4 + n else 3 + n)

/-- What NONCE.BUILD answers (R140). -/
def nonceBuildResult (id4 pre : Bytes) (rc mc : U24) : Except Status Result := .ok (.nonce (buildNonce id4 pre rc mc))

/-- What AAD.BUILD answers (R143). -/
def aadBuildResult (buf : Bytes) (hbc : U16) : Except Status Result :=
  match buildAad buf hbc.toNat with
  | .error e => .error e
  | .ok a => .ok (.aad a)

namespace Machine

/-- NONCE.BUILD (R140). -/
def execNonceBuild (id4 pre : Bytes) (rc mc : U24) (s : State) : Host.Outcome State Fault Refusal :=
  complete (nonceBuildResult id4 pre rc mc) s

/-- AAD.BUILD (R143). -/
def execAadBuild (buf : Bytes) (hbc : U16) (s : State) : Host.Outcome State Fault Refusal :=
  complete (aadBuildResult buf hbc) s

end Machine

end Sys2Proof
end

