-- ==== Sys2Proof/Machine/Fields.lean ====
section
/-! DEFINITION. The frame header, body and trailer bit-packer and parser: HDR.PACK, HDR.PARSE, BODY.PACK, BODY.PARSE,
TRL.PACK and TRL.PARSE (41_fields.md R110 to R132). The encoder and decoder call the same functions. -/

namespace Sys2Proof

/-- The type byte: bit 7 the secure flag, bits 6 to 0 the frame type (30_encoding.md R72). -/
def typeByte (sec : Bool) (ftype : BitVec 7) : Byte := (boolByte sec <<< 7) ||| ftype.setWidth 8

/-- The seq/idLen byte: bits 7 to 4 seqNo, bits 3 to 0 idLen (30_encoding.md R73). -/
def seqIdLenByte (seq : BitVec 4) (idLen : Nat) : Byte := (seq.setWidth 8 <<< 4) ||| lenByte idLen

/-- The valve/heat byte: bit 7 callForHeat, bits 6 to 0 the valve position (30_encoding.md R74). -/
def valveHeatByte (cfh : Bool) (valve : BitVec 7) : Byte := (boolByte cfh <<< 7) ||| valve.setWidth 8

/-- Bit 7 of a byte: the secure flag of a type byte (R117), or callForHeat of a valve/heat byte (R123). -/
def topBit (b : Byte) : Bool := b.getLsbD 7

/-- Bits 6 to 0 of a byte: frameType (R117), or the valve position (R123). -/
def low7 (b : Byte) : BitVec 7 := b.extractLsb' 0 7

/-- Bits 7 to 4 of the seq/idLen byte: seqNo (R117). -/
def seqOf (b : Byte) : BitVec 4 := b.extractLsb' 4 4

/-- Bits 3 to 0 of the seq/idLen byte: idLen (R117). -/
def idLenOf (b : Byte) : BitVec 4 := b.extractLsb' 0 4

/-- `PackHeader` (R110, R111). -/
def packHeader (len : Byte) (sec : Bool) (ftype : BitVec 7) (seq : BitVec 4) (id : Bytes) (blen : Byte) :
    Except Status Bytes :=
  if Params.maxIdLen < id.length then .error .invalidIdLength
  else .ok ([len, typeByte sec ftype, seqIdLenByte seq id.length] ++ id ++ [blen])

/-- `ParseHeader` (R117, R118). -/
def parseHeader (buf : Bytes) : Except Status Header :=
  if buf.length < 3 then .error .truncated
  else
    let idLen := (idLenOf (byteAt buf 2)).toNat
    if buf.length < 4 + idLen then .error .truncated
    else
      .ok {
        len := byteAt buf 0
        secure := topBit (byteAt buf 1)
        frameType := low7 (byteAt buf 1)
        seqNo := seqOf (byteAt buf 2)
        id := memRead buf 3 idLen
        bodyLen := byteAt buf (3 + idLen) }

/-- The content of a body: the valve/heat byte, the flags byte and the stats bytes (R120, 43_padding.md R150). -/
def bodyContent (b : Body) : Bytes := [valveHeatByte b.callForHeat b.valvePos, b.flags] ++ b.stats

/-- `PackBody` (R120, R121). -/
def packBody (b : Body) : Except Status Bytes :=
  if Params.maxInsecureBodyLen < 2 + b.stats.length then .error .invalidBodyLength else .ok (bodyContent b)

/-- The fields of a body string of 2 bytes or more (R123). -/
def bodyOf (s : Bytes) : Body where
  callForHeat := topBit (byteAt s 0)
  valvePos := low7 (byteAt s 0)
  flags := byteAt s 1
  stats := s.drop 2

/-- `ParseBody` (R123, R124). -/
def parseBody (s : Bytes) : Except Status (Option Body) :=
  if s.length = 0 then .ok none
  else if s.length = 1 then .error .malformedHeader
  else .ok (some (bodyOf s))

/-- `PackTrailer` (R127). -/
def packTrailer (t : Trailer) : Bytes := be24 t.restartCounter ++ be24 t.msgCounter ++ t.tag ++ [t.alg]

/-- `ParseTrailer` (R130), of a 23-byte string. -/
def parseTrailer (t : Bytes) : Trailer where
  restartCounter := fromBe24 (memRead t 0 3)
  msgCounter := fromBe24 (memRead t 3 3)
  tag := memRead t 6 Params.tagBytes
  alg := byteAt t 22

/-- What HDR.PACK answers (R110). -/
def hdrPackResult (len : Byte) (sec : Bool) (ftype : BitVec 7) (seq : BitVec 4) (id : Bytes) (blen : Byte) :
    Except Status Result :=
  match packHeader len sec ftype seq id blen with
  | .error e => .error e
  | .ok h => .ok (.hdr h)

/-- What HDR.PARSE answers (R117). -/
def hdrParseResult (buf : Bytes) : Except Status Result :=
  match parseHeader buf with
  | .error e => .error e
  | .ok h => .ok (.header h)

/-- What BODY.PACK answers (R120). -/
def bodyPackResult (cfh : Bool) (valve : BitVec 7) (flags : Byte) (stats : Bytes) : Except Status Result :=
  match packBody { callForHeat := cfh, valvePos := valve, flags := flags, stats := stats } with
  | .error e => .error e
  | .ok b => .ok (.body b)

/-- What BODY.PARSE answers (R123). -/
def bodyParseResult (body : Bytes) : Except Status Result :=
  match parseBody body with
  | .error e => .error e
  | .ok b => .ok (.parsedBody b)

/-- What TRL.PACK answers (R127). -/
def trlPackResult (rc mc : U24) (tag : Bytes) (alg : Byte) : Except Status Result :=
  .ok (.trl (packTrailer { restartCounter := rc, msgCounter := mc, tag := tag, alg := alg }))

/-- What TRL.PARSE answers (R130). -/
def trlParseResult (trl : Bytes) : Except Status Result := .ok (.trailer (parseTrailer trl))

namespace Machine

/-- HDR.PACK (R110). -/
def execHdrPack (len : Byte) (sec : Bool) (ftype : BitVec 7) (seq : BitVec 4) (id : Bytes) (blen : Byte) (s : State) :
    Host.Outcome State Fault Refusal :=
  complete (hdrPackResult len sec ftype seq id blen) s

/-- HDR.PARSE (R117). -/
def execHdrParse (buf : Bytes) (s : State) : Host.Outcome State Fault Refusal := complete (hdrParseResult buf) s

/-- BODY.PACK (R120). -/
def execBodyPack (cfh : Bool) (valve : BitVec 7) (flags : Byte) (stats : Bytes) (s : State) :
    Host.Outcome State Fault Refusal :=
  complete (bodyPackResult cfh valve flags stats) s

/-- BODY.PARSE (R123). -/
def execBodyParse (body : Bytes) (s : State) : Host.Outcome State Fault Refusal := complete (bodyParseResult body) s

/-- TRL.PACK (R127). -/
def execTrlPack (rc mc : U24) (tag : Bytes) (alg : Byte) (s : State) : Host.Outcome State Fault Refusal :=
  complete (trlPackResult rc mc tag alg) s

/-- TRL.PARSE (R130). -/
def execTrlParse (trl : Bytes) (s : State) : Host.Outcome State Fault Refusal := complete (trlParseResult trl) s

end Machine

end Sys2Proof
end

