-- ==== Sys2Proof/Machine/Padding.lean ====
section
/-! DEFINITION. The AEAD plaintext-padding codec: PAD.BODY and PAD.UNPAD (43_padding.md R150 to R157). -/

namespace Sys2Proof

/-- `PadBody` (R150 to R152): the content, zeros, and the count of those zeros. -/
def padBlock (b : Body) (dbl : Nat) : Except Status Bytes :=
  if Params.secureBlock ≤ dbl then .error .bodyTooLargeForSecureBlock
  else if dbl ≠ 2 + b.stats.length then .error .invalidBodyLength
  else .ok (bodyContent b ++ zeros (31 - dbl) ++ [lenByte (31 - dbl)])

/-- `UnpadBody` (R153 to R155), of a 32-byte block: the content length is 31 minus the count (90_conflicts.md C3). -/
def unpadBlock (pt : Bytes) : Except Status Body :=
  let c := (byteAt pt 31).toNat
  if 31 < c then .error .malformedHeader
  else
    let dbl := 31 - c
    if dbl < 2 then .error .malformedHeader
    else if (memRead pt dbl c).any (fun b => b != 0x00) then .error .malformedHeader
    else
      match parseBody (memRead pt 0 dbl) with
      | .error e => .error e
      | .ok none => .error .malformedHeader
      | .ok (some b) => .ok b

/-- What PAD.BODY answers (R150). -/
def padBodyResult (cfh : Bool) (valve : BitVec 7) (flags : Byte) (stats : Bytes) (dbl : Byte) : Except Status Result :=
  match padBlock { callForHeat := cfh, valvePos := valve, flags := flags, stats := stats } dbl.toNat with
  | .error e => .error e
  | .ok p => .ok (.pt p)

/-- What PAD.UNPAD answers (R153). -/
def padUnpadResult (pt : Bytes) : Except Status Result :=
  match unpadBlock pt with
  | .error e => .error e
  | .ok b => .ok (.unpadded b)

namespace Machine

/-- PAD.BODY (R150). -/
def execPadBody (cfh : Bool) (valve : BitVec 7) (flags : Byte) (stats : Bytes) (dbl : Byte) (s : State) :
    Host.Outcome State Fault Refusal :=
  complete (padBodyResult cfh valve flags stats dbl) s

/-- PAD.UNPAD (R153). -/
def execPadUnpad (pt : Bytes) (s : State) : Host.Outcome State Fault Refusal := complete (padUnpadResult pt) s

end Machine

end Sys2Proof
end

