-- ==== Sys2Proof/Machine/Encoder.lean ====
section
/-! DEFINITION. The frame encoder FRAME.ENC (45_encoder.md): the pure function of R170, which is what a host observes, and
the hidden state machine of R184, which `execFrameEnc` runs over the hidden state. -/

namespace Sys2Proof

/-- The declared body length (R172): 0 without a body, `2 + |stats|` with one. -/
def declaredBodyLen (f : Frame) : Nat :=
  match f.body with
  | none => 0
  | some b => 2 + b.stats.length

/-- The trailer length: 23 bytes secure, 1 byte insecure (R175). -/
def trailerLen (secure : Bool) : Nat := if secure then Params.secureTrailer else Params.insecureTrailer

/-- The bodyLen byte of the encoded frame: the ciphertext length of a secure frame (R174), the plaintext length of an
insecure one (R176). -/
def wireBodyLen (f : Frame) : Nat :=
  if f.secure then (if f.body.isSome then Params.secureBlock else 0) else declaredBodyLen f

/-- `L = 3 + idLen + bodyLen + trailerLen` (R175). -/
def frameLength (f : Frame) : Nat := 3 + f.id.length + wireBodyLen f + trailerLen f.secure

/-- The first encode error that applies, in the order of R181 (R171, R173, R174). -/
def encodeError (f : Frame) : Option Status :=
  if f.secure && f.body.isSome && decide (Params.secureBlock ≤ declaredBodyLen f) then some .bodyTooLargeForSecureBlock
  else if Params.maxIdLen < f.id.length then some .invalidIdLength
  else if f.secure && decide (f.id.length < Params.minSecureIdLen) then some .invalidIdLength
  else if !f.secure && (decide (Params.maxInsecureBodyLen < declaredBodyLen f)
      || decide (255 < 4 + f.id.length + declaredBodyLen f)) then some .invalidBodyLength
  else none

/-- The header `H` of the frame, bodyLen included in both modes (R176, R177, 90_conflicts.md C5). -/
def frameHeader (f : Frame) : Except Status Bytes :=
  packHeader (lenByte (frameLength f)) f.secure f.frameType f.seqNo f.id (lenByte (wireBodyLen f))

/-- The packed body of an insecure frame, empty without a body (R176). -/
def insecureBody (f : Frame) : Except Status Bytes :=
  match f.body with
  | none => .ok []
  | some b => packBody b

/-- The plaintext of a secure frame: the padded block, or the empty block without a body (R177, 44_aead_interface.md
R163). -/
def securePlaintext (f : Frame) : Except Status Bytes :=
  match f.body with
  | none => .ok []
  | some b => padBlock b (declaredBodyLen f)

/-- The insecure path after the header (R176): the packed body, then the CRC of every byte written so far. -/
def encodeInsecure (f : Frame) (header : Bytes) : Except Status Bytes :=
  match insecureBody f with
  | .error e => .error e
  | .ok body =>
    match frameCrc (header ++ body) 0 (header ++ body).length with
    | .error e => .error e
    | .ok c => .ok (header ++ body ++ [c])

/-- The call of the AEAD for one frame: ciphertext and 16-byte tag (R177, 44_aead_interface.md R160). -/
def sealFrame (cfg : Config) (tx : TxContext) (id aad pt : Bytes) : Bytes × Vector Byte 16 :=
  cfg.aeadSeal (fixedBytes 16 tx.key)
    (fixedBytes 12 (frameNonce id tx.presharedId tx.restartCounter tx.msgCounter)) aad pt

/-- The trailer of a secure frame: the counters that went into the nonce, the tag, and always algorithm id 0x80
(R179, R180). -/
def secureTrailerOf (tx : TxContext) (tag : Vector Byte 16) : Trailer where
  restartCounter := tx.restartCounter
  msgCounter := tx.msgCounter
  tag := tag.toList
  alg := Params.algAes128Gcm

/-- The secure path after the header (R177 to R180). -/
def encodeSecure (cfg : Config) (f : Frame) (tx : TxContext) (header : Bytes) : Except Status Bytes :=
  match securePlaintext f with
  | .error e => .error e
  | .ok pt =>
    match frameAad cfg header f.id.length with
    | .error e => .error e
    | .ok aad =>
      .ok (header ++ (sealFrame cfg tx f.id aad pt).1 ++ packTrailer (secureTrailerOf tx (sealFrame cfg tx f.id aad pt).2))

/-- `EncodeFrame(f, tx)` (R170). -/
def encodeFrame (cfg : Config) (f : Frame) (tx : TxContext) : Except Status Bytes :=
  match encodeError f with
  | some e => .error e
  | none =>
    match frameHeader f with
    | .error e => .error e
    | .ok header => if f.secure then encodeSecure cfg f tx header else encodeInsecure f header

namespace Machine

/-- E_ERR(code) is entered (R184). -/
def encFail (e : Status) (h : Hidden) : Micro Bytes := .go { h with encPhase := .err e }

/-- E_IDLE: FRAME.ENC is accepted and its operands latched; every element a later phase uses starts afresh (R45,
R184). The body, the key and the pre-shared bytes stay in the accepted request, which `encStep` is given. -/
def encIdle (f : Frame) (tx : TxContext) (h : Hidden) : Hidden :=
  { h with
    encPhase := .check, idx := 0, acc := 0, secure := f.secure, frameType := f.frameType, seqNo := f.seqNo
    id := f.id, restartCounter := tx.restartCounter, msgCounter := tx.msgCounter
    out := [], pt := [], ct := [], tag := [] }

/-- E_CHECK: the encode errors in the order of R181, then bodyLen and L (R184). -/
def encCheck (f : Frame) (h : Hidden) : Micro Bytes :=
  match encodeError f with
  | some e => encFail e h
  | none =>
    .go { h with
      encPhase := .hdr
      idLen := BitVec.ofNat 4 f.id.length, bodyLen := lenByte (wireBodyLen f), len := lenByte (frameLength f) }

/-- E_HDR: the header bytes are appended and `idx` counts them (R184). -/
def encHdr (h : Hidden) : Micro Bytes :=
  match packHeader h.len h.secure h.frameType h.seqNo h.id h.bodyLen with
  | .error e => encFail e h
  | .ok header =>
    .go { h with
      encPhase := if h.secure then .pad else .body, out := h.out ++ header, idx := h.idx + header.length }

/-- E_BODY: the packed body is appended, if any; the CRC starts at 0x7F (R184). -/
def encBody (f : Frame) (h : Hidden) : Micro Bytes :=
  match insecureBody f with
  | .error e => encFail e h
  | .ok body => .go { h with encPhase := .crc, out := h.out ++ body, idx := 0, acc := Params.crcInit }

/-- E_CRC: `out[0..L)` is folded one byte a step; then the whitened value is appended (R184). -/
def encCrc (h : Hidden) : Micro Bytes :=
  if h.idx < h.len.toNat then .go { h with acc := crc7Update h.acc (byteAt h.out h.idx), idx := h.idx + 1 }
  else .go { h with encPhase := .done, out := h.out ++ [whiten h.acc] }

/-- E_PAD: the plaintext is built, 32 bytes or empty (R184). -/
def encPad (f : Frame) (h : Hidden) : Micro Bytes :=
  match securePlaintext f with
  | .error e => encFail e h
  | .ok pt => .go { h with encPhase := .seals, pt := pt }

/-- E_SEAL: nonce and AAD are built and `AEAD_SEAL` is called (R184). -/
def encSeal (cfg : Config) (tx : TxContext) (h : Hidden) : Micro Bytes :=
  match frameAad cfg h.out h.id.length with
  | .error e => encFail e h
  | .ok aad =>
    .go { h with
      encPhase := .ct
      ct := (sealFrame cfg tx h.id aad h.pt).1, tag := (sealFrame cfg tx h.id aad h.pt).2.toList }

/-- E_TRL: the counters, the tag and 0x80 are appended (R184). -/
def encTrl (h : Hidden) : Micro Bytes :=
  .go { h with
    encPhase := .done
    out := h.out ++ packTrailer {
      restartCounter := h.restartCounter, msgCounter := h.msgCounter, tag := h.tag, alg := Params.algAes128Gcm } }

/-- One phase step of the encoder state machine on the operands of the accepted request (R184). E_DONE and E_ERR
respond and clear the latches. -/
def encStep (cfg : Config) (f : Frame) (tx : TxContext) (h : Hidden) : Micro Bytes :=
  match h.encPhase with
  | .idle => .go (encIdle f tx h)
  | .check => encCheck f h
  | .hdr => encHdr h
  | .body => encBody f h
  | .crc => encCrc h
  | .pad => encPad f h
  | .seals => encSeal cfg tx h
  | .ct => .go { h with encPhase := .trl, out := h.out ++ h.ct }
  | .trl => encTrl h
  | .done => .respond Hidden.cleared (.ok h.out)
  | .err e => .respond Hidden.cleared (.error e)

/-- The encoder state machine run for at most `n` phase steps: its response and the latches it leaves, or nothing when
it has not responded by then. -/
def encRun (cfg : Config) (f : Frame) (tx : TxContext) : Nat → Hidden → Option (Hidden × Except Status Bytes)
  | 0, _ => none
  | n + 1, h =>
    match encStep cfg f tx h with
    | .go h' => encRun cfg f tx n h'
    | .respond h' r => some (h', r)

/-- The latches after `n` phase steps from `h`, while the machine has not responded. -/
def encAfter (cfg : Config) (f : Frame) (tx : TxContext) : Nat → Hidden → Option Hidden
  | 0, h => some h
  | n + 1, h =>
    match encStep cfg f tx h with
    | .go h' => encAfter cfg f tx n h'
    | .respond _ _ => none

/-- A command starts its state machine in E_IDLE, whatever the hidden state held (R45). -/
def encStart (h : Hidden) : Hidden := { h with encPhase := .idle }

/-- The hidden state after one FRAME.ENC (R184). -/
def encHidden (cfg : Config) (f : Frame) (tx : TxContext) (h : Hidden) : Hidden :=
  match encRun cfg f tx Params.fsmSteps (encStart h) with
  | some p => p.1
  | none => h

end Machine

/-- What FRAME.ENC answers under a configuration (R170). -/
def frameEncResult (cfg : Config) (sec : Bool) (ftype : BitVec 7) (seq : BitVec 4) (id : Bytes) (hasBody cfh : Bool)
    (valve : BitVec 7) (flags : Byte) (stats key pre : Bytes) (rc mc : U24) : Except Status Result :=
  match encodeFrame cfg (frameOfOperands sec ftype seq id hasBody cfh valve flags stats)
      { key := key, presharedId := pre, restartCounter := rc, msgCounter := mc } with
  | .error e => .error e
  | .ok w => .ok (.frame w)

namespace Machine

/-- FRAME.ENC (R170): the response is that of `EncodeFrame`, and the hidden state is what the state machine of R184
leaves. -/
def execFrameEnc (sec : Bool) (ftype : BitVec 7) (seq : BitVec 4) (id : Bytes) (hasBody cfh : Bool)
    (valve : BitVec 7) (flags : Byte) (stats key pre : Bytes) (rc mc : U24) (s : State) :
    Host.Outcome State Fault Refusal :=
  complete (frameEncResult Config.block sec ftype seq id hasBody cfh valve flags stats key pre rc mc)
    { s with
      hidden := encHidden Config.block (frameOfOperands sec ftype seq id hasBody cfh valve flags stats)
        { key := key, presharedId := pre, restartCounter := rc, msgCounter := mc } s.hidden }

end Machine

end Sys2Proof
end

