-- ==== Sys2Proof/Machine/Decoder.lean ====
section
/-! DEFINITION. The frame decoder FRAME.DEC (46_decoder.md): the pure function of R190, which is what a host observes, and
the hidden state machine of R205, which `execFrameDec` runs over the hidden state. -/

namespace Sys2Proof

/-- The bodyLen values that a mode refuses: anything but 0 or 32 secure (R194), 1 insecure (R196). -/
def badBodyLen (secure : Bool) (bodyLen : Nat) : Bool :=
  if secure then bodyLen != 0 && bodyLen != Params.secureBlock else bodyLen == 1

/-- `E`, the length byte that the structure calls for (R195). -/
def expectedLength (h : Header) : Nat := 3 + h.id.length + h.bodyLen.toNat + trailerLen h.secure

/-- The body region `F[4+idLen .. 4+idLen+bodyLen)` (R197, R200). -/
def bodyRegion (frame : Bytes) (h : Header) : Bytes := memRead frame (4 + h.id.length) h.bodyLen.toNat

/-- The decoded header of an insecure or secure frame with its body and counters (R36, R203). -/
def decodedOf (h : Header) (body : Option Body) (rc mc : U24) : DecodedFrame where
  frame := { secure := h.secure, frameType := h.frameType, seqNo := h.seqNo, id := h.id, body := body }
  flen := h.len
  rxRestartCounter := rc
  rxMsgCounter := mc

/-- The insecure path (R197): the CRC over every byte before the trailer, then the body. -/
def decodeInsecure (frame : Bytes) (h : Header) : Except Status DecodedFrame :=
  match frameCrc frame 0 h.len.toNat with
  | .error e => .error e
  | .ok c =>
    if c ≠ byteAt frame h.len.toNat then .error .checksumMismatch
    else
      match parseBody (bodyRegion frame h) with
      | .error e => .error e
      | .ok body => .ok (decodedOf h body 0 0)

/-- The body of an opened plaintext (R202): its length is checked, then it is unpadded; with bodyLen 0 there is none. -/
def openedBody (bodyLen : Nat) (pt : Bytes) : Except Status (Option Body) :=
  if pt.length ≠ bodyLen then .error .malformedHeader
  else if bodyLen = 0 then .ok none
  else
    match unpadBlock pt with
    | .error e => .error e
    | .ok b => .ok (some b)

/-- The trailer of a secure frame: its last 23 bytes (R198). -/
def trailerOf (frame : Bytes) (h : Header) : Trailer :=
  parseTrailer (memRead frame (4 + h.id.length + h.bodyLen.toNat) Params.secureTrailer)

/-- The call of the AEAD for one received frame (R200). -/
def openFrame (cfg : Config) (rx : RxContext) (id aad ct : Bytes) (t : Trailer) : Option Bytes :=
  cfg.aeadOpen (fixedBytes 16 rx.key) (fixedBytes 12 (frameNonce id rx.presharedId t.restartCounter t.msgCounter)) aad ct
    (fixedBytes 16 t.tag)

/-- The secure path (R198 to R203). -/
def decodeSecure (cfg : Config) (frame : Bytes) (h : Header) (rx : RxContext) : Except Status DecodedFrame :=
  let t := trailerOf frame h
  if t.alg ≠ Params.algAes128Gcm then .error .unsupportedAlgorithm
  else
    match frameAad cfg frame h.id.length with
    | .error e => .error e
    | .ok aad =>
      match openFrame cfg rx h.id aad (bodyRegion frame h) t with
      | none => .error .authenticationFailure
      | some pt =>
        match openedBody h.bodyLen.toNat pt with
        | .error e => .error e
        | .ok body => .ok (decodedOf h body t.restartCounter t.msgCounter)

/-- The decoder from the frame `F` on, once `|F| = L + 1` (R192, R194 to R196). -/
def decodeStructure (cfg : Config) (frame : Bytes) (rx : RxContext) : Except Status DecodedFrame :=
  match parseHeader frame with
  | .error e => .error e
  | .ok h =>
    if badBodyLen h.secure h.bodyLen.toNat then .error .malformedHeader
    else if h.len.toNat < expectedLength h then .error .truncated
    else if expectedLength h < h.len.toNat then .error .malformedHeader
    else if h.secure then decodeSecure cfg frame h rx
    else decodeInsecure frame h

/-- `DecodeFrame(buf, rx)` (R190), its checks in the order of R204. -/
def decodeFrame (cfg : Config) (buf : Bytes) (rx : RxContext) : Except Status DecodedFrame :=
  if buf.length < 1 then .error .truncated
  else
    let len := (byteAt buf 0).toNat
    if len < 2 ∨ buf.length < 3 then .error .truncated
    else if topBit (byteAt buf 1) && decide ((idLenOf (byteAt buf 2)).toNat < Params.minSecureIdLen) then
      .error .malformedHeader
    else if buf.length < len + 1 then .error .truncated
    else decodeStructure cfg (memRead buf 0 (len + 1)) rx

namespace Machine

/-- D_ERR(code) is entered (R205). -/
def decFail (e : Status) (h : Hidden) : Micro DecodedFrame := .go { h with decPhase := .err e }

/-- D_IDLE: FRAME.DEC is accepted; every element a later phase uses starts afresh (R45, R205). -/
def decIdle (h : Hidden) : Hidden :=
  { h with
    decPhase := .len, idx := 0, acc := 0, id := [], out := [], pt := [], ct := [], tag := [], body := none
    restartCounter := 0, msgCounter := 0 }

/-- D_LEN: the length byte is latched; L and the buffer reach the type and seq/idLen bytes (R191, R205). -/
def decLen (buf : Bytes) (h : Hidden) : Micro DecodedFrame :=
  if buf.length < 1 then decFail .truncated h
  else if (byteAt buf 0).toNat < 2 ∨ buf.length < 3 then decFail .truncated { h with len := byteAt buf 0 }
  else .go { h with decPhase := .pre, len := byteAt buf 0 }

/-- D_PRE: the secure flag against idLen (R193, R205). -/
def decPre (buf : Bytes) (h : Hidden) : Micro DecodedFrame :=
  if topBit (byteAt buf 1) && decide ((idLenOf (byteAt buf 2)).toNat < Params.minSecureIdLen) then
    decFail .malformedHeader h
  else .go { h with decPhase := .bound }

/-- D_BOUND: the whole frame is in the buffer (R191, R205). -/
def decBound (buf : Bytes) (h : Hidden) : Micro DecodedFrame :=
  if buf.length < h.len.toNat + 1 then decFail .truncated h else .go { h with decPhase := .hdr }

/-- D_HDR: the type and seq/idLen bytes are latched; the frame reaches its bodyLen byte (R192, R205). -/
def decHdr (buf : Bytes) (h : Hidden) : Micro DecodedFrame :=
  let h' := { h with
    secure := topBit (byteAt buf 1), frameType := low7 (byteAt buf 1)
    seqNo := seqOf (byteAt buf 2), idLen := idLenOf (byteAt buf 2) }
  if h.len.toNat < 3 + (idLenOf (byteAt buf 2)).toNat then decFail .truncated h'
  else .go { h' with decPhase := .id, idx := 3 }

/-- D_ID: the ID is latched, one byte a step, `idx` from 3 to 2+idLen (R205). -/
def decId (buf : Bytes) (h : Hidden) : Micro DecodedFrame :=
  if h.idx < 3 + h.idLen.toNat then .go { h with id := h.id ++ [byteAt buf h.idx], idx := h.idx + 1 }
  else .go { h with decPhase := .blen }

/-- The header fields that the latches hold once bodyLen is latched (R205). -/
def latchedHeader (h : Hidden) : Header where
  len := h.len
  secure := h.secure
  frameType := h.frameType
  seqNo := h.seqNo
  id := h.id
  bodyLen := h.bodyLen

/-- D_BLEN: bodyLen is latched; R194 or R196, then R195 (R205). The CRC starts at 0x7F. -/
def decBlen (buf : Bytes) (h : Hidden) : Micro DecodedFrame :=
  let h' := { h with bodyLen := byteAt buf (3 + h.idLen.toNat) }
  if badBodyLen h'.secure h'.bodyLen.toNat then decFail .malformedHeader h'
  else if h'.len.toNat < expectedLength (latchedHeader h') then decFail .truncated h'
  else if expectedLength (latchedHeader h') < h'.len.toNat then decFail .malformedHeader h'
  else .go { h' with decPhase := if h'.secure then .trl else .crc, idx := 0, acc := Params.crcInit }

/-- D_CRC: `F[0..L)` is folded one byte a step; then the whitened value is compared with `F[L]` (R197, R205). -/
def decCrc (buf : Bytes) (h : Hidden) : Micro DecodedFrame :=
  if h.idx < h.len.toNat then .go { h with acc := crc7Update h.acc (byteAt buf h.idx), idx := h.idx + 1 }
  else if whiten h.acc ≠ byteAt buf h.len.toNat then decFail .checksumMismatch h
  else .go { h with decPhase := .body }

/-- D_BODY: the body is unpacked (R197, R205). -/
def decBody (buf : Bytes) (h : Hidden) : Micro DecodedFrame :=
  match parseBody (bodyRegion buf (latchedHeader h)) with
  | .error e => decFail e h
  | .ok b => .go { h with decPhase := .done, body := b }

/-- D_TRL: the trailer is latched and its algorithm id checked (R198, R199, R205). -/
def decTrl (buf : Bytes) (h : Hidden) : Micro DecodedFrame :=
  let t := trailerOf buf (latchedHeader h)
  let h' := { h with restartCounter := t.restartCounter, msgCounter := t.msgCounter, tag := t.tag }
  if t.alg ≠ Params.algAes128Gcm then decFail .unsupportedAlgorithm h' else .go { h' with decPhase := .opens }

/-- D_OPEN: nonce and AAD are built and `AEAD_OPEN` is called (R200, R201, R205). -/
def decOpen (cfg : Config) (buf : Bytes) (rx : RxContext) (h : Hidden) : Micro DecodedFrame :=
  match frameAad cfg buf h.id.length with
  | .error e => decFail e h
  | .ok aad =>
    match openFrame cfg rx h.id aad (bodyRegion buf (latchedHeader h)) {
        restartCounter := h.restartCounter, msgCounter := h.msgCounter, tag := h.tag, alg := Params.algAes128Gcm } with
    | none => decFail .authenticationFailure h
    | some pt => .go { h with decPhase := .unpad, pt := pt }

/-- D_UNPAD: the plaintext's length is checked and it is unpadded (R202, R205). -/
def decUnpad (h : Hidden) : Micro DecodedFrame :=
  match openedBody h.bodyLen.toNat h.pt with
  | .error e => decFail e h
  | .ok b => .go { h with decPhase := .done, body := b }

/-- One phase step of the decoder state machine on the operands of the accepted request (R205). D_DONE and D_ERR
respond and clear the latches. -/
def decStep (cfg : Config) (buf : Bytes) (rx : RxContext) (h : Hidden) : Micro DecodedFrame :=
  match h.decPhase with
  | .idle => .go (decIdle h)
  | .len => decLen buf h
  | .pre => decPre buf h
  | .bound => decBound buf h
  | .hdr => decHdr buf h
  | .id => decId buf h
  | .blen => decBlen buf h
  | .crc => decCrc buf h
  | .body => decBody buf h
  | .trl => decTrl buf h
  | .opens => decOpen cfg buf rx h
  | .unpad => decUnpad h
  | .done => .respond Hidden.cleared (.ok (decodedOf (latchedHeader h) h.body h.restartCounter h.msgCounter))
  | .err e => .respond Hidden.cleared (.error e)

/-- The decoder state machine run for at most `n` phase steps: its response and the latches it leaves, or nothing when
it has not responded by then. -/
def decRun (cfg : Config) (buf : Bytes) (rx : RxContext) :
    Nat → Hidden → Option (Hidden × Except Status DecodedFrame)
  | 0, _ => none
  | n + 1, h =>
    match decStep cfg buf rx h with
    | .go h' => decRun cfg buf rx n h'
    | .respond h' r => some (h', r)

/-- The latches after `n` phase steps from `h`, while the machine has not responded. -/
def decAfter (cfg : Config) (buf : Bytes) (rx : RxContext) : Nat → Hidden → Option Hidden
  | 0, h => some h
  | n + 1, h =>
    match decStep cfg buf rx h with
    | .go h' => decAfter cfg buf rx n h'
    | .respond _ _ => none

/-- A command starts its state machine in D_IDLE, whatever the hidden state held (R45). -/
def decStart (h : Hidden) : Hidden := { h with decPhase := .idle }

/-- The hidden state after one FRAME.DEC (R205). -/
def decHidden (cfg : Config) (buf : Bytes) (rx : RxContext) (h : Hidden) : Hidden :=
  match decRun cfg buf rx Params.fsmSteps (decStart h) with
  | some p => p.1
  | none => h

end Machine

/-- What FRAME.DEC answers under a configuration (R190). -/
def frameDecResult (cfg : Config) (buf key pre : Bytes) : Except Status Result :=
  match decodeFrame cfg buf { key := key, presharedId := pre } with
  | .error e => .error e
  | .ok d => .ok (.decoded d)

namespace Machine

/-- FRAME.DEC (R190): the response is that of `DecodeFrame`, and the hidden state is what the state machine of R205
leaves. -/
def execFrameDec (buf key pre : Bytes) (s : State) : Host.Outcome State Fault Refusal :=
  complete (frameDecResult Config.block buf key pre)
    { s with hidden := decHidden Config.block buf { key := key, presharedId := pre } s.hidden }

end Machine

end Sys2Proof
end

