-- ==== Sys2Proof/Machine/Dispatch.lean ====
section
/-! DEFINITION. The dispatch: one arm per command, each one call of its meaning (30_encoding.md R83). -/

namespace Sys2Proof.Machine

def exec (i : Instr) (s : State) : Host.Outcome State Fault Refusal :=
  match i with
  | .crc7Upd acc d => Sys2Proof.Machine.execCrc7Upd acc d s
  | .crc7Frame buf off len => Sys2Proof.Machine.execCrc7Frame buf off len s
  | .hdrPack len sec ftype seq id blen => Sys2Proof.Machine.execHdrPack len sec ftype seq id blen s
  | .hdrParse buf => Sys2Proof.Machine.execHdrParse buf s
  | .bodyPack cfh valve flags stats => Sys2Proof.Machine.execBodyPack cfh valve flags stats s
  | .bodyParse body => Sys2Proof.Machine.execBodyParse body s
  | .trlPack rc mc tag alg => Sys2Proof.Machine.execTrlPack rc mc tag alg s
  | .trlParse trl => Sys2Proof.Machine.execTrlParse trl s
  | .nonceBuild id4 pre rc mc => Sys2Proof.Machine.execNonceBuild id4 pre rc mc s
  | .aadBuild buf hbc => Sys2Proof.Machine.execAadBuild buf hbc s
  | .padBody cfh valve flags stats dbl => Sys2Proof.Machine.execPadBody cfh valve flags stats dbl s
  | .padUnpad pt => Sys2Proof.Machine.execPadUnpad pt s
  | .frameEnc sec ftype seq id hasBody cfh valve flags stats key pre rc mc => Sys2Proof.Machine.execFrameEnc sec ftype seq id hasBody cfh valve flags stats key pre rc mc s
  | .frameDec buf key pre => Sys2Proof.Machine.execFrameDec buf key pre s

end Sys2Proof.Machine
end

