-- ==== Sys2Proof/Machine/Request.lean ====
section
/-! DEFINITION. `Exec : Config × Request → Response` (10_state.md R24) for any configuration, and the block's own use of it:
what it does with the accepted request. -/

namespace Sys2Proof

/-- What a command answers under a configuration (R24): the function of its rule, on its operands alone. -/
def commandResult (cfg : Config) : Instr → Except Status Result
  | .crc7Upd acc d => crc7UpdResult acc d
  | .crc7Frame buf off len => crc7FrameResult buf off len
  | .hdrPack len sec ftype seq id blen => hdrPackResult len sec ftype seq id blen
  | .hdrParse buf => hdrParseResult buf
  | .bodyPack cfh valve flags stats => bodyPackResult cfh valve flags stats
  | .bodyParse body => bodyParseResult body
  | .trlPack rc mc tag alg => trlPackResult rc mc tag alg
  | .trlParse trl => trlParseResult trl
  | .nonceBuild id4 pre rc mc => nonceBuildResult id4 pre rc mc
  | .aadBuild buf hbc => aadBuildResult buf hbc
  | .padBody cfh valve flags stats dbl => padBodyResult cfh valve flags stats dbl
  | .padUnpad pt => padUnpadResult pt
  | .frameEnc sec ftype seq id hasBody cfh valve flags stats key pre rc mc =>
    frameEncResult cfg sec ftype seq id hasBody cfh valve flags stats key pre rc mc
  | .frameDec buf key pre => frameDecResult cfg buf key pre

/-- `Exec(cfg, req)` (R24): the request is decoded whole before the command starts (60_exceptions.md R225), and the
response is that of the command, or the request-level error alone. -/
def respond (cfg : Config) (req : Bytes) : Bytes :=
  match decode req with
  | .error e => responseBytes (.error e)
  | .ok i => responseBytes (commandResult cfg i)

/-- A program is a host's list of requests (10_state.md R21); its responses, in order. -/
def runProgram (cfg : Config) (reqs : List Bytes) : List Bytes := reqs.map (respond cfg)

namespace Machine

/-- BUSY: the accepted request is executed, or answered with its request-level error (10_state.md R25, R81). -/
def serve (r : Request) (s : State) : Host.Outcome State Fault Refusal :=
  match decode r.bytes with
  | .error e => complete (.error e) s
  | .ok i => exec i s

/-- The fetch of this block is the acceptance of a request: a table word's request stands accepted from a host, so that
the next step runs it (log entry 7). -/
def acceptTableWord (nbits w : Nat) (s : State) : State :=
  { s with phase := .busy { host := 0, bytes := tableWordRequest nbits w } }

end Machine

end Sys2Proof
end

