-- ==== Sys2Proof/Machine/Step.lean ====
section
/-! DEFINITION. One step of the block (10_state.md R25): from IDLE it accepts a waiting request; from BUSY it delivers the
response to the accepted one, a whole command being one step, because a command is atomic. -/

namespace Sys2Proof.Machine

/-- One step (R25). -/
def step (s : State) : Host.Outcome State Fault Refusal :=
  match s.phase with
  | .idle => .next (accept s)
  | .busy r => serve r s

/-- The state in which the request of an opcode-table word is the accepted one (log entry 7). -/
def State.withFetchWord (s : State) (nbits w : Nat) : State := acceptTableWord nbits w s

end Sys2Proof.Machine
end

