-- ==== Sys2Proof/Machine/AesGcm.lean ====
section
/-! DEFINITION. AES-128-GCM, the default realisation of the AEAD collaborator (44_aead_interface.md R164): 96-bit nonce used
directly as the IV, 128-bit tag. The source names the suite and its sizes only; the algorithm (FIPS 197, NIST SP 800-38D)
is PRESUMED, as R164 itself marks it (log entry 8). The block's own AEAD stays the open parameter of Config. -/

namespace Sys2Proof

/-- The AES S-box, row by row: row r holds S(16r) to S(16r+15), the first in the most significant byte. -/
def aesSboxRows : List Nat :=
  [0x637c777bf26b6fc53001672bfed7ab76,
   0xca82c97dfa5947f0add4a2af9ca472c0,
   0xb7fd9326363ff7cc34a5e5f171d83115,
   0x04c723c31896059a071280e2eb27b275,
   0x09832c1a1b6e5aa0523bd6b329e32f84,
   0x53d100ed20fcb15b6acbbe394a4c58cf,
   0xd0efaafb434d338545f9027f503c9fa8,
   0x51a3408f929d38f5bcb6da2110fff3d2,
   0xcd0c13ec5f974417c4a77e3d645d1973,
   0x60814fdc222a908846eeb814de5e0bdb,
   0xe0323a0a4906245cc2d3ac629195e479,
   0xe7c8376d8dd54ea96c56f4ea657aae08,
   0xba78252e1ca6b4c6e8dd741f4bbd8b8a,
   0x703eb5664803f60e613557b986c11d9e,
   0xe1f8981169d98e949b1e87e9ce5528df,
   0x8ca1890dbfe6426841992d0fb054bb16]

/-- SubBytes on one byte. -/
def aesSbox (b : Byte) : Byte :=
  BitVec.ofNat 8 (aesSboxRows.getD (b.toNat / 16) 0 >>> (8 * (15 - b.toNat % 16)))

/-- Multiplication by x in GF(2^8) modulo x^8 + x^4 + x^3 + x + 1. -/
def aesXtime (b : Byte) : Byte := if b.getLsbD 7 then (b <<< 1) ^^^ 0x1b else b <<< 1

/-- The XOR of two byte strings, up to the shorter one. -/
def xorBytes (s t : Bytes) : Bytes := List.zipWith (fun a b => a ^^^ b) s t

/-- The round constants of the AES-128 key schedule. -/
def aesRcon : List Byte := [0x01, 0x02, 0x04, 0x08, 0x10, 0x20, 0x40, 0x80, 0x1b, 0x36]

/-- The next round key from a round key and a round constant. -/
def aesNextKey (k : Bytes) (rcon : Byte) : Bytes :=
  let t := [aesSbox (byteAt k 13) ^^^ rcon, aesSbox (byteAt k 14), aesSbox (byteAt k 15), aesSbox (byteAt k 12)]
  let w0 := xorBytes (memRead k 0 4) t
  let w1 := xorBytes (memRead k 4 4) w0
  let w2 := xorBytes (memRead k 8 4) w1
  let w3 := xorBytes (memRead k 12 4) w2
  w0 ++ w1 ++ w2 ++ w3

/-- The round keys after the first, in order. -/
def aesRoundKeys (k : Bytes) : List Byte → List Bytes
  | [] => []
  | c :: cs => aesNextKey k c :: aesRoundKeys (aesNextKey k c) cs

/-- ShiftRows on a block of 16 bytes in column order. -/
def aesShiftRows (s : Bytes) : Bytes := [0, 5, 10, 15, 4, 9, 14, 3, 8, 13, 2, 7, 12, 1, 6, 11].map fun i => byteAt s i

/-- MixColumns on the column that starts at byte `i`. -/
def aesMixColumn (s : Bytes) (i : Nat) : Bytes :=
  let a := byteAt s i
  let b := byteAt s (i + 1)
  let c := byteAt s (i + 2)
  let d := byteAt s (i + 3)
  [aesXtime a ^^^ aesXtime b ^^^ b ^^^ c ^^^ d, a ^^^ aesXtime b ^^^ aesXtime c ^^^ c ^^^ d,
    a ^^^ b ^^^ aesXtime c ^^^ aesXtime d ^^^ d, aesXtime a ^^^ a ^^^ b ^^^ c ^^^ aesXtime d]

/-- MixColumns. -/
def aesMixColumns (s : Bytes) : Bytes := aesMixColumn s 0 ++ aesMixColumn s 4 ++ aesMixColumn s 8 ++ aesMixColumn s 12

/-- The rounds of AES-128 with the round keys that are left; the last one has no MixColumns. -/
def aesRounds (s : Bytes) : List Bytes → Bytes
  | [] => s
  | [k] => xorBytes (aesShiftRows (s.map aesSbox)) k
  | k :: ks => aesRounds (xorBytes (aesMixColumns (aesShiftRows (s.map aesSbox))) k) ks

/-- The AES-128 block cipher on 16 bytes under a 16-byte key. -/
def aesEncrypt (key block : Bytes) : Bytes := aesRounds (xorBytes block key) (aesRoundKeys key aesRcon)

/-- 16 bytes as a 128-bit block, the first byte most significant. -/
def blockOf (s : Bytes) : BitVec 128 := s.foldl (fun acc b => (acc <<< 8) ||| b.setWidth 128) 0

/-- A 128-bit block as 16 bytes, the most significant first. -/
def blockBytes (b : BitVec 128) : Bytes := (List.range 16).map fun i => b.extractLsb' (8 * (15 - i)) 8

/-- Multiplication in GF(2^128) as GHASH orders its bits: `n` bits of `x` are left, `z` the sum so far, `v` the
multiple of the other factor. -/
def gcmMulFrom (x : BitVec 128) : Nat → BitVec 128 → BitVec 128 → BitVec 128
  | 0, z, _ => z
  | n + 1, z, v =>
    gcmMulFrom x n (if x.getLsbD n then z ^^^ v else z)
      (if v.getLsbD 0 then (v >>> 1) ^^^ 0xe1000000000000000000000000000000 else v >>> 1)

/-- Multiplication in GF(2^128). -/
def gcmMul (x y : BitVec 128) : BitVec 128 := gcmMulFrom x 128 0 y

/-- The first `n` blocks of a byte string. -/
def gcmBlocks : Nat → Bytes → List (BitVec 128)
  | 0, _ => []
  | n + 1, s => blockOf (s.take 16) :: gcmBlocks n (s.drop 16)

/-- A byte string filled with zeros to a multiple of 16 bytes. -/
def gcmPad (s : Bytes) : Bytes := s ++ zeros ((16 - s.length % 16) % 16)

/-- A bit length as 8 bytes, most significant first. -/
def gcmBitLength (s : Bytes) : Bytes :=
  (List.range 8).map fun i => (BitVec.ofNat 64 (8 * s.length)).extractLsb' (8 * (7 - i)) 8

/-- GHASH over the AAD and the ciphertext with their bit lengths, under the hash key `h`. -/
def gcmHash (h : BitVec 128) (aad ct : Bytes) : BitVec 128 :=
  let s := gcmPad aad ++ gcmPad ct ++ gcmBitLength aad ++ gcmBitLength ct
  (gcmBlocks (s.length / 16) s).foldl (fun y x => gcmMul (y ^^^ x) h) 0

/-- The keystream block for the counter value `c`: the cipher of the nonce and the 32-bit counter. -/
def gcmStreamBlock (key nonce : Bytes) (c : Nat) : Bytes :=
  let ctr : BitVec 32 := BitVec.ofNat 32 c
  blockBytes (blockOf (aesEncrypt key (nonce ++
    [ctr.extractLsb' 24 8, ctr.extractLsb' 16 8, ctr.extractLsb' 8 8, ctr.extractLsb' 0 8])))

/-- The keystream of `n` blocks from counter 2, the block after J0. -/
def gcmStream (key nonce : Bytes) (n : Nat) : Bytes := (List.range n).flatMap fun i => gcmStreamBlock key nonce (i + 2)

/-- Counter-mode encryption, which is its own inverse. -/
def gcmCrypt (key nonce s : Bytes) : Bytes := xorBytes s (gcmStream key nonce (s.length / 16 + 1))

/-- The 16-byte tag over the AAD and the ciphertext. -/
def gcmTag (key nonce aad ct : Bytes) : Vector Byte 16 :=
  fixedBytes 16 (blockBytes (gcmHash (blockOf (aesEncrypt key (zeros 16))) aad ct ^^^ blockOf (gcmStreamBlock key nonce 1)))

/-- AES-128-GCM as `AEAD_SEAL` (R160, R164). -/
def aesGcmSeal (key : Vector Byte 16) (nonce : Vector Byte 12) (aad pt : Bytes) : Bytes × Vector Byte 16 :=
  let ct := gcmCrypt key.toList nonce.toList pt
  (ct, gcmTag key.toList nonce.toList aad ct)

/-- AES-128-GCM as `AEAD_OPEN` (R160, R164): nothing where the tag does not verify. -/
def aesGcmOpen (key : Vector Byte 16) (nonce : Vector Byte 12) (aad ct : Bytes) (tag : Vector Byte 16) : Option Bytes :=
  if tag = gcmTag key.toList nonce.toList aad ct then some (gcmCrypt key.toList nonce.toList ct) else none

/-- The default configuration: bodyLen outside the AAD (00_scope.md R11) and AES-128-GCM (R164). -/
def defaultConfig : Config where
  aadIncludesBodyLen := false
  aeadSeal := aesGcmSeal
  aeadOpen := aesGcmOpen

end Sys2Proof
end

