-- ==== Sys2Proof/Machine/Asm.lean ====
section
/-! DEFINITION. The assembler text of a command and the pseudo-instructions (30_encoding.md R88, R89). The assembler belongs to
the host; `step` never uses it. -/

namespace Sys2Proof

/-- An operand as R88 writes it: a number (a Boolean is 0 or 1), or a string of bytes. -/
inductive AsmOperand where
  | num (n : Nat)
  | str (s : Bytes)
  deriving DecidableEq, Repr

/-- The value of a hexadecimal digit. -/
def hexDigit (c : Char) : Option Nat :=
  if '0' ≤ c ∧ c ≤ '9' then some (c.toNat - '0'.toNat)
  else if 'a' ≤ c ∧ c ≤ 'f' then some (c.toNat - 'a'.toNat + 10)
  else if 'A' ≤ c ∧ c ≤ 'F' then some (c.toNat - 'A'.toNat + 10)
  else none

/-- The value of a decimal digit. -/
def decDigit (c : Char) : Option Nat := if '0' ≤ c ∧ c ≤ '9' then some (c.toNat - '0'.toNat) else none

/-- The number that digits of a base write, after those read so far. -/
def digitsFrom (digit : Char → Option Nat) (base : Nat) : Nat → List Char → Option Nat
  | acc, [] => some acc
  | acc, c :: cs =>
    match digit c with
    | none => none
    | some d => digitsFrom digit base (acc * base + d) cs

/-- A number: `0x7f` or `127` (R88). -/
def asmNumber : List Char → Option Nat
  | '0' :: 'x' :: c :: cs => digitsFrom hexDigit 16 0 (c :: cs)
  | c :: cs => digitsFrom decDigit 10 0 (c :: cs)
  | [] => none

/-- The bytes of pairs of hexadecimal digits. -/
def hexPairs : List Char → Option Bytes
  | [] => some []
  | [_] => none
  | a :: b :: cs =>
    match hexDigit a, hexDigit b, hexPairs cs with
    | some x, some y, some bs => some (lenByte (16 * x + y) :: bs)
    | _, _, _ => none

/-- The bytes of an ASCII string; a character that is no ASCII character is refused. -/
def asciiBytes : List Char → Option Bytes
  | [] => some []
  | c :: cs =>
    match decide (c.toNat < 128), asciiBytes cs with
    | true, some bs => some (lenByte c.toNat :: bs)
    | _, _ => none

/-- The text of a string operand after its opening quote: everything up to the closing quote, which must be last. -/
def quoted : List Char → Option (List Char)
  | [] => none
  | ['"'] => some []
  | '"' :: _ :: _ => none
  | c :: cs => (quoted cs).map (c :: ·)

/-- One operand (R88): `h"…"` with spaces ignored, `"…"`, or a number. -/
def asmOperand : List Char → Option AsmOperand
  | 'h' :: '"' :: cs =>
    match quoted cs with
    | none => none
    | some t => (hexPairs (t.filter (· != ' '))).map .str
  | '"' :: cs =>
    match quoted cs with
    | none => none
    | some t => (asciiBytes t).map .str
  | cs => (asmNumber cs).map .num

/-- The text before a comment: `;` begins one outside a string (R88). -/
def stripComment : Bool → List Char → List Char
  | _, [] => []
  | inString, c :: cs =>
    if c == ';' && !inString then []
    else c :: stripComment (if c == '"' then !inString else inString) cs

/-- Whether a character is white space in a command line. -/
def isBlank (c : Char) : Bool := c == ' ' || c == '\t'

/-- A text without the white space at both ends. -/
def trimBlanks (cs : List Char) : List Char := ((cs.dropWhile isBlank).reverse.dropWhile isBlank).reverse

/-- The operand texts, separated by commas outside strings (R88). -/
def splitOperands : Bool → List Char → List (List Char)
  | _, [] => [[]]
  | inString, c :: cs =>
    if c == ',' && !inString then [] :: splitOperands false cs
    else
      match splitOperands (if c == '"' then !inString else inString) cs with
      | [] => [[c]]
      | t :: ts => (c :: t) :: ts

/-- All operands of a line, or nothing where one is not of a form of R88. -/
def asmOperands : List (List Char) → Option (List AsmOperand)
  | [] => some []
  | t :: ts =>
    match asmOperand (trimBlanks t), asmOperands ts with
    | some o, some os => some (o :: os)
    | _, _ => none

/-- The bytes of an operand in a field: the assembler supplies a length prefix (R88). A number is refused where it
does not fit the field, a string where its length does not; the ranges of R86 are left to the block. -/
def operandBytes : FieldKind → AsmOperand → Option Bytes
  | .u8, .num n => if n < 2 ^ 8 then some [lenByte n] else none
  | .bool, .num n => if n < 2 ^ 8 then some [lenByte n] else none
  | .u16, .num n => if n < 2 ^ 16 then some (be16 (BitVec.ofNat 16 n)) else none
  | .u24, .num n => if n < 2 ^ 24 then some (be24 (BitVec.ofNat 24 n)) else none
  | .fixed n, .str s => if fixedOk n s then some s else none
  | .vb8, .str s => if vb8Ok s then some (vb8 s) else none
  | .vb16, .str s => if vb16Ok s then some (vb16 s) else none
  | _, _ => none

/-- The operand fields of a line, one operand a field. -/
def operandsBytes : List FieldKind → List AsmOperand → Option Bytes
  | [], [] => some []
  | k :: ks, o :: os =>
    match operandBytes k o, operandsBytes ks os with
    | some b, some bs => some (b ++ bs)
    | _, _ => none
  | _, _ => none

/-- The command that a pseudo-instruction of one command stands for (R89); any other line is left as it is. The zero
context of the insecure forms is 16 and 2 zero bytes and two zero counters. -/
def expandPseudo (name : String) (os : List AsmOperand) : String × List AsmOperand :=
  if name == "CRC7.ALL" then
    match os with
    | [.str b] => ("CRC7.FRAME", [.str b, .num 0, .num b.length])
    | _ => (name, os)
  else if name == "FRAME.ENC.I" then
    ("FRAME.ENC", .num 0 :: (os ++ [.str (zeros 16), .str (zeros 2), .num 0, .num 0]))
  else if name == "FRAME.DEC.I" then ("FRAME.DEC", os ++ [.str (zeros 16), .str (zeros 2)])
  else (name, os)

/-- The request of a command by its mnemonic and operands (R88). -/
def assembleCommand (name : String) (os : List AsmOperand) : Option Bytes :=
  match opcodes.find? fun o => mnemonic o == name with
  | none => none
  | some o => (operandsBytes ((requestFormat o).map Field.kind) os).map (opcodeByte o :: ·)

/-- The request that a line of assembler text stands for (R88, R89). CRC7.STR is no single request: see `crc7Str`. -/
def assemble (line : String) : Option Bytes :=
  let t := trimBlanks (stripComment false line.toList)
  let name := t.takeWhile fun c => !isBlank c
  match asmOperands (splitOperands false (t.drop name.length)) with
  | none => none
  | some os =>
    let p := expandPseudo (String.ofList name) os
    assembleCommand p.1 p.2

/-- The pseudo-instruction CRC7.ALL (R89). -/
def crc7All (buf : Bytes) : Instr := .crc7Frame buf 0 (BitVec.ofNat 16 buf.length)

/-- The pseudo-instruction FRAME.ENC.I: FRAME.ENC with the zero context (R89). -/
def frameEncI (ftype : BitVec 7) (seq : BitVec 4) (id : Bytes) (hasBody cfh : Bool) (valve : BitVec 7) (flags : Byte)
    (stats : Bytes) : Instr :=
  .frameEnc false ftype seq id hasBody cfh valve flags stats (zeros 16) (zeros 2) 0 0

/-- The pseudo-instruction FRAME.DEC.I: FRAME.DEC with the zero context (R89). -/
def frameDecI (buf : Bytes) : Instr := .frameDec buf (zeros 16) (zeros 2)

/-- The pseudo-instruction CRC7.STR as the host runs it (R89): one CRC7.UPD a byte, each accumulator read from the
response to the command before; the commands issued and the last value. The host holds the accumulator (R26, R258). -/
def crc7Str (cfg : Config) : Byte → Bytes → List Instr × Byte
  | a, [] => ([], a)
  | a, b :: bs =>
    let rest := crc7Str cfg (byteAt (respond cfg (encode (.crc7Upd a b))) 1) bs
    (.crc7Upd a b :: rest.1, rest.2)

end Sys2Proof
end

