-- ==== Sys2Proof/Machine/Aead.lean ====
section
/-! DEFINITION. The contract of the AEAD collaborator (44_aead_interface.md R161, R162): named properties of a configuration,
which a claim that rests on one takes as a premise. The sizes of R160, the 16-byte tag among them, are in the types of
Config. -/

namespace Sys2Proof

/-- P_LEN (R161): the ciphertext is as long as the plaintext. -/
def PLen (cfg : Config) : Prop := ∀ key nonce aad pt, (cfg.aeadSeal key nonce aad pt).1.length = pt.length

/-- P_OPEN_SEAL (R162): what was sealed opens to its plaintext. -/
def POpenSeal (cfg : Config) : Prop :=
  ∀ key nonce aad pt,
    cfg.aeadOpen key nonce aad (cfg.aeadSeal key nonce aad pt).1 (cfg.aeadSeal key nonce aad pt).2 = some pt

/-- P_OPEN_ONLY_SEALED (R162): what opens is the seal of what it opens to. -/
def POpenOnlySealed (cfg : Config) : Prop :=
  ∀ key nonce aad ct tag pt, cfg.aeadOpen key nonce aad ct tag = some pt → cfg.aeadSeal key nonce aad pt = (ct, tag)

/-- P_UNFORGEABLE for one key (R162, assumed): nothing opens but what a sender sealed. `sealed` lists the
`(nonce, aad, ct, tag)` that senders sealed under `key` (log entry 12). It contradicts P_OPEN_SEAL taken for every
plaintext, so a claim takes one or the other. -/
def PUnforgeable (cfg : Config) (key : Vector Byte 16) (sealed : List (Vector Byte 12 × Bytes × Bytes × Vector Byte 16)) :
    Prop :=
  ∀ nonce aad ct tag, (nonce, aad, ct, tag) ∉ sealed → cfg.aeadOpen key nonce aad ct tag = none

end Sys2Proof
end

