-- ==== Sys2Proof/Safety.lean ====
section
/-! DEFINITION. What a claim calls a safe run: that the block never stops, what each host is owed (20_memory.md R63,
60_exceptions.md R240), and the duties of a host program (70_reset_and_hazards.md §2 and §3, 60_exceptions.md R242),
stated as rules so that a model of a host program can be checked against them. The block checks none of them. -/

namespace Sys2Proof

namespace Machine

/-- A step that did not stop the block (R223). -/
def goesOn (o : Host.Outcome State Fault Refusal) : Prop := ∃ t, o = .next t

/-- The responses delivered to a host, oldest first (R240). -/
def deliveredTo (host : Nat) (s : State) : List Bytes :=
  (s.delivered.filter fun r => r.host == host).map Response.bytes

/-- The request that the block has accepted and not answered. -/
def accepted (s : State) : List Request :=
  match s.phase with
  | .idle => []
  | .busy r => [r]

/-- The requests of a host that are accepted or waiting, in its issue order (R63). -/
def outstandingOf (host : Nat) (s : State) : List Request :=
  (accepted s ++ s.waiting).filter fun r => r.host == host

/-- A host's ledger: the responses it has and, behind them, the responses its outstanding requests will get when each
is answered alone (R240). -/
def ledger (host : Nat) (s : State) : List Bytes :=
  deliveredTo host s ++ (outstandingOf host s).map fun r => respond Config.block r.bytes

/-- The state after the accepted request `r` is answered with these bytes (10_state.md R25): IDLE, one more response, to
the host that sent the request, and everything else unchanged. -/
def answeredWith (s : State) (r : Request) (bytes : Bytes) : State :=
  { s with phase := .idle, delivered := s.delivered ++ [{ host := r.host, bytes := bytes }] }

/-- No element of the hidden state holds anything of an earlier command (10_state.md R27, 44_aead_interface.md R165). -/
def noResidue (s : State) : Prop := s.hidden = Hidden.cleared

/-- The widths of the hidden state (R27): `idx` below 65536, bit 7 of `acc` clear, `out` at most 256 bytes, `pt` 0 or 32
bytes. -/
def hiddenInRange (h : Hidden) : Prop :=
  h.idx < 65536 ∧ h.acc.getLsbD 7 = false ∧ h.out.length ≤ 256 ∧ (h.pt.length = 0 ∨ h.pt.length = 32)

end Machine

/-- A host may act on the content of a response only when its status is OK (R208, R242). -/
def mayActOn (response : Bytes) : Bool := response.head? == some (statusCode .ok)

/-- What a sending host holds (10_state.md R38, 70_reset_and_hazards.md R260): the key, the 6-byte node identity, and its
two counters, which may be wider than 24 bits (R254). -/
structure HostContext where
  key : Bytes
  nodeId : Bytes
  restartCounter : Nat
  msgCounter : Nat
  deriving DecidableEq, Repr

/-- The low 24 bits of a host's counter: the truncation is the host's (R254). -/
def low24 (n : Nat) : U24 := BitVec.ofNat 24 n

/-- The leading 4 bytes of the identity, which are sent in the header (R260). -/
def sentId (h : HostContext) : Bytes := h.nodeId.take 4

/-- The operand context of the next encode: the trailing 2 identity bytes are pre-shared (R34, R260). -/
def txContextOf (h : HostContext) : TxContext where
  key := h.key
  presharedId := h.nodeId.drop 4
  restartCounter := low24 h.restartCounter
  msgCounter := low24 h.msgCounter

/-- What a host must hold before its first secure FRAME.ENC: key, identity, and a restart counter not used before with
this key (R252, R260). -/
def readyToSend (usedRestarts : List Nat) (h : HostContext) : Bool :=
  h.key.length == 16 && h.nodeId.length == 6 && !usedRestarts.contains h.restartCounter

/-- Between two secure encodes under one key the message counter has advanced (R256), within one boot cycle. DESIGN CHOICE:
the spec leaves open what the counter does across a restart or a change of key (R252, 91_not_in_source.md N20); the model
relates only contexts of one key and one restart counter and is false across either (log entry 25). -/
def messageAdvanced (before after : HostContext) : Bool :=
  before.key == after.key && before.restartCounter == after.restartCounter &&
    decide (before.msgCounter < after.msgCounter)

/-- The key and nonce of a secure FRAME.ENC (R141, R253), from its operands; nothing for any other command. DESIGN CHOICE: a
command that the encoder refuses, and so never reaches the AEAD, counts as using its nonce too; R253 does not say (log
entry 24). -/
def nonceUse : Instr → Option (Bytes × Bytes)
  | .frameEnc true _ _ id _ _ _ _ _ key pre rc mc => some (key, frameNonce id pre rc mc)
  | _ => none

/-- Nonce uniqueness over the commands of all hosts (R253): no two secure encodes with one key and one nonce, but for
repetitions of an identical request, which are harmless. -/
def nonceSafe (is : List Instr) : Prop :=
  is.Pairwise fun i j => ∀ u, nonceUse i = some u → nonceUse j = some u → i = j

/-- The FRAME.ENC of a frame under a host's present context (R34, R38). -/
def encodeCommand (h : HostContext) (f : Frame) : Instr :=
  .frameEnc f.secure f.frameType f.seqNo f.id f.body.isSome
    (f.body.elim false Body.callForHeat) (f.body.elim 0 Body.valvePos) (f.body.elim 0 Body.flags) (f.body.elim [] Body.stats)
    (txContextOf h).key (txContextOf h).presharedId (txContextOf h).restartCounter (txContextOf h).msgCounter

/-- A byte string with bit `k` of byte `i` inverted (95_test_vectors.md §3.2). -/
def flipBit (s : Bytes) (i k : Nat) : Bytes := s.set i (byteAt s i ^^^ ((1 : Byte) <<< k))

/-- Whether decoded counters are newer than the last accepted pair: a later restart, or the same restart and a later
message (R255; the order is DEDUCED from 95_test_vectors.md P3, log entry 9). -/
def newerThan (last : Option (U24 × U24)) (rc mc : U24) : Bool :=
  match last with
  | none => true
  | some (r, m) => decide (r < rc) || (r == rc && decide (m < mc))

/-- A receiving host's replay check on a decoded secure frame (R255): whether it acts on it, and the pair it keeps. -/
def acceptFresh (last : Option (U24 × U24)) (d : DecodedFrame) : Bool × Option (U24 × U24) :=
  if newerThan last d.rxRestartCounter d.rxMsgCounter then (true, some (d.rxRestartCounter, d.rxMsgCounter))
  else (false, last)

end Sys2Proof
end

