-- ==== Sys2Proof/Certificates/Slice0/Obligations.lean ====
section
/-! DEFINITION. The statements for the provers. Byte values are written by arithmetic on numbers, not by the bit operations
of the model, wherever the rule allows it. -/

open Sys2Proof Sys2Proof.Machine

/-! ## The interface -/

/-- A step at a state whose accepted request decodes is the execution of the decoded command; where it does not decode
the request-level status alone is the answer (R25, R81). -/
def Obligations.BusyStepRunsTheDecodedCommand : Prop :=
  ∀ (s : State) (r : Request), s.phase = .busy r →
    (∀ i, decode r.bytes = .ok i → step s = exec i s) ∧
    (∀ e, decode r.bytes = .error e → step s = .next (answeredWith s r [statusCode e]))

/-- From IDLE the block stays as it is when nothing waits; otherwise it accepts one waiting request, the oldest of its
host, and changes nothing else but the count of contended choices (R25, R63). That it accepts at once is DEDUCED: log
entry 20. -/
def Obligations.IdleStepAcceptsTheOldestRequestOfSomeHost : Prop :=
  ∀ s : State, s.phase = .idle →
    (s.waiting = [] → step s = .next s) ∧
    (s.waiting ≠ [] → ∃ k r n, s.waiting[k]? = some r ∧
      (∀ j q, j < k → s.waiting[j]? = some q → q.host ≠ r.host) ∧
      step s = .next { s with phase := .busy r, waiting := s.waiting.eraseIdx k, choices := n })

/-- No step changes what a host has been answered together with what its outstanding requests will be answered: nothing
is lost, merged or answered out of a host's order, and no answer depends on other hosts (R25, R63, R64, R240). -/
def Obligations.EveryStepKeepsEachHostsLedger : Prop :=
  ∀ (s t : State) (host : Nat), step s = .next t → ledger host t = ledger host s

/-- From IDLE, two steps per waiting request empty the queue, and every host has then been answered all its requests, in
its issue order, each as it would be answered alone (R25, R63, R240). That a waiting request is accepted at once is
DEDUCED: log entry 20. -/
def Obligations.WaitingRequestsAreAllServed : Prop :=
  ∀ s : State, s.phase = .idle →
    ∃ t, Host.Core.run Sys2Proof.core (2 * s.waiting.length) s = .next t ∧ t.phase = .idle ∧ t.waiting = [] ∧
      ∀ host, deliveredTo host t = deliveredTo host s ++
        (s.waiting.filter fun r => r.host == host).map fun r => respond Config.block r.bytes

/-- The response to an accepted request is `Exec` of that request and the configuration, whatever else the state holds:
two states that hold the same accepted request deliver the same bytes to its sender (R24). -/
def Obligations.ResponseDependsOnlyOnRequestAndConfiguration : Prop :=
  ∀ (s s' : State) (r : Request), s.phase = .busy r → s'.phase = .busy r →
    ∃ h h', step s = .next { answeredWith s r (respond Config.block r.bytes) with hidden := h } ∧
      step s' = .next { answeredWith s' r (respond Config.block r.bytes) with hidden := h' }

/-- No error stops the block, and the block never refuses: every step has a next state (R223). -/
def Obligations.EveryStepGoesOn : Prop := ∀ s : State, goesOn (step s)

/-- A response is 0x00 and result fields, or one of the ten error codes and nothing more (R79, R220, R222). -/
def Obligations.ResponseIsOkWithResultOrOneErrorByte : Prop :=
  ∀ (cfg : Config) (req : Bytes),
    (∃ result, respond cfg req = 0x00 :: result) ∨
    (∃ e : Byte, e ∈ ([0x01, 0x02, 0x03, 0x10, 0x11, 0x12, 0x13, 0x14, 0xF0, 0xF1] : Bytes) ∧ respond cfg req = [e])

/-- Each command raises only the statuses that R221 lists for it, and decoding a request raises only the two interface
errors. -/
def Obligations.CommandsRaiseOnlyTheirStatuses : Prop :=
  (∀ (cfg : Config) (i : Instr) (e : Status), commandResult cfg i = .error e →
    match i with
    | .crc7Frame _ _ _ => e = .illegalOperand
    | .hdrPack _ _ _ _ _ _ => e = .invalidIdLength
    | .hdrParse _ => e = .truncated
    | .bodyPack _ _ _ _ => e = .invalidBodyLength
    | .bodyParse _ => e = .malformedHeader
    | .aadBuild _ _ => e = .truncated
    | .padBody _ _ _ _ _ => e = .bodyTooLargeForSecureBlock ∨ e = .invalidBodyLength
    | .padUnpad _ => e = .malformedHeader
    | .frameEnc _ _ _ _ _ _ _ _ _ _ _ _ _ =>
      e = .bodyTooLargeForSecureBlock ∨ e = .invalidIdLength ∨ e = .invalidBodyLength
    | .frameDec _ _ _ => e = .truncated ∨ e = .malformedHeader ∨ e = .checksumMismatch ∨
        e = .unsupportedAlgorithm ∨ e = .authenticationFailure
    | .crc7Upd _ _ => False
    | .trlPack _ _ _ _ => False
    | .trlParse _ => False
    | .nonceBuild _ _ _ _ => False) ∧
  (∀ (req : Bytes) (e : Status), decode req = .error e → e = .illegalCommand ∨ e = .illegalOperand)

/-! ## Encoding -/

/-- Every well-formed command, with every operand at every value its request can carry, is read back from its request
(R81, R84, R86). -/
def Obligations.DecodeInvertsEncode : Prop := ∀ i : Instr, i.wf = true → decode (encode i) = .ok i

/-- A request has one meaning: whatever decodes is well formed, and its request is the bytes it was read from (R81, R84). -/
def Obligations.EncodeInvertsDecode : Prop :=
  ∀ (req : Bytes) (i : Instr), decode req = .ok i → i.wf = true ∧ encode i = req

/-- The length of a request is told from its opcode and the length prefixes inside it, whatever bytes follow (R82). -/
def Obligations.RequestLengthIsToldByItsPrefixes : Prop :=
  ∀ (i : Instr) (rest : Bytes), i.wf = true → requestSize (encode i ++ rest) = some (encode i).length

/-- The length of a response is told from the request's opcode, the status byte and the length prefixes of R85; for
FRAME.ENC takes P_LEN (R161) as a premise. -/
def Obligations.ResponseLengthIsToldByOpcodeAndStatus : Prop :=
  ∀ (cfg : Config) (i : Instr), PLen cfg → i.wf = true →
    responseSize i.opcode (respond cfg (encode i)) = some (respond cfg (encode i)).length

/-- Exactly the opcode values that R87 lists are reserved; a request with one, or an empty request, is answered
IllegalCommand with no other effect. -/
def Obligations.ReservedOpcodesAreIllegalCommands : Prop :=
  (∀ b : Byte, opcodeOf b = none ↔
    b.toNat = 0x00 ∨ (0x03 ≤ b.toNat ∧ b.toNat ≤ 0x0F) ∨ (0x16 ≤ b.toNat ∧ b.toNat ≤ 0x1F) ∨
      (0x22 ≤ b.toNat ∧ b.toNat ≤ 0x2F) ∨ (0x32 ≤ b.toNat ∧ b.toNat ≤ 0x3F) ∨ 0x42 ≤ b.toNat) ∧
  (∀ (s : State) (r : Request), s.phase = .busy r →
    (r.bytes = [] ∨ ∃ b rest, r.bytes = b :: rest ∧ opcodeOf b = none) →
    step s = .next (answeredWith s r [0xF0]))

/-- Every `bool`, `ftype`, `seq` and `valve` operand out of its range is answered IllegalOperand, in every command that
has one, whatever else the request holds; an `id` longer than 15 bytes is no operand error (R86). -/
def Obligations.OutOfRangeOperandsAreIllegalOperands : Prop :=
  ∀ (cfg : Config) (len sec ftype seq hasBody cfh valve flags blen dbl : Byte) (id stats tail : Bytes),
    id.length < 256 → stats.length < 65536 → tail.length = 24 →
    (1 < sec.toNat ∨ 0x7F < ftype.toNat ∨ 0x0F < seq.toNat →
      respond cfg ([0x10, len, sec, ftype, seq] ++ vb8 id ++ [blen]) = [0xF1]) ∧
    (1 < cfh.toNat ∨ 0x7F < valve.toNat →
      respond cfg ([0x12, cfh, valve, flags] ++ vb16 stats) = [0xF1] ∧
      respond cfg ([0x30, cfh, valve, flags] ++ vb16 stats ++ [dbl]) = [0xF1]) ∧
    (1 < sec.toNat ∨ 0x7F < ftype.toNat ∨ 0x0F < seq.toNat ∨ 1 < hasBody.toNat ∨ 1 < cfh.toNat ∨ 0x7F < valve.toNat →
      respond cfg ([0x40, sec, ftype, seq] ++ vb8 id ++ [hasBody, cfh, valve, flags] ++ vb16 stats ++ tail) = [0xF1]) ∧
    (sec.toNat ≤ 1 → ftype.toNat ≤ 0x7F → seq.toNat ≤ 0x0F → 15 < id.length →
      respond cfg ([0x10, len, sec, ftype, seq] ++ vb8 id ++ [blen]) = [0x02])

/-- A few requests written out byte by byte from R84 decode to the commands they stand for. -/
def Obligations.WrittenOutRequestsDecode : Prop :=
  decode [0x01, 0x7F, 0x31] = .ok (.crc7Upd 0x7F 0x31) ∧
  decode [0x02, 0x00, 0x03, 0x08, 0x4F, 0x02, 0x00, 0x01, 0x00, 0x02] = .ok (.crc7Frame [0x08, 0x4F, 0x02] 1 2) ∧
  decode [0x10, 0x08, 0x01, 0x4F, 0x05, 0x02, 0x80, 0x81, 0x20] =
    .ok (.hdrPack 0x08 true 0x4F 5 [0x80, 0x81] 0x20) ∧
  decode [0x21, 0x00, 0x01, 0xAA, 0x00, 0x07] = .ok (.aadBuild [0xAA] 7) ∧
  decode [0x30, 0x01, 0x32, 0x01, 0x00, 0x00, 0x02] = .ok (.padBody true 0x32 0x01 [] 2) ∧
  decode [0x42, 0x00, 0x00] = .error .illegalCommand ∧ decode [0x01, 0x7F] = .error .illegalOperand

/-! ## The CRC-7 engine -/

/-- CRC7.UPD completes for every accumulator and data byte and answers the entry of the spec's step table (R100, R102);
every other part of the state is unchanged. -/
def Obligations.CrcUpdAnswersTheTableStep : Prop :=
  ∀ (s : State) (r : Request) (acc d : Byte), s.phase = .busy r →
    exec (.crc7Upd acc d) s =
      .next (answeredWith s r [0x00, crcTable.getD ((2 * acc.toNat % 256) ^^^ d.toNat) 0])

/-- `Crc7Update` has the table form and is linear (R102). -/
def Obligations.CrcUpdateHasTableFormAndIsLinear : Prop :=
  (∀ x : Byte, crcTable.getD x.toNat 0 = crc7Update 0 x) ∧
  (∀ acc d : Byte, crc7Update acc d = crcTable.getD (((acc <<< 1) ^^^ d) &&& 0xFF).toNat 0) ∧
  (∀ acc d : Byte, crc7Update acc d = crc7Update acc 0 ^^^ crc7Update 0 d)

/-- CRC7.FRAME completes for every buffer, offset and length: IllegalOperand where the slice does not lie in the buffer,
otherwise the whitened fold of the slice from 0x7F, which reads no byte outside the slice (R103, R107). -/
def Obligations.CrcFrameAnswersTheWhitenedFold : Prop :=
  ∀ (s : State) (r : Request) (before slice after : Bytes) (buf : Bytes) (off len : U16), s.phase = .busy r →
    (buf.length < off.toNat + len.toNat → exec (.crc7Frame buf off len) s = .next (answeredWith s r [0xF1])) ∧
    (buf = before ++ slice ++ after → before.length = off.toNat → slice.length = len.toNat →
      exec (.crc7Frame buf off len) s = .next (answeredWith s r
        [0x00, if slice.foldl crc7Update 0x7F = 0 then 0x80 else slice.foldl crc7Update 0x7F]))

/-- `FrameCrc` answers a value in 0x01 to 0x80, never 0x00 or 0xFF, and whitening leaves every value but 0x00 (R104). -/
def Obligations.FrameCrcIsNeverAllZerosOrAllOnes : Prop :=
  (∀ c : Byte, whiten c = if c = 0x00 then 0x80 else c) ∧
  (∀ (buf : Bytes) (off len : Nat) (c : Byte), frameCrc buf off len = .ok c →
    1 ≤ c.toNat ∧ c.toNat ≤ 0x80 ∧ c ≠ 0x00 ∧ c ≠ 0xFF)

/-- The check values of the text "123456789": CRC7.STR from 0x00, the fold from 0x7F and the frame CRC (R105); and the two
frame vectors (R106). -/
def Obligations.CrcCheckValuesHold : Prop :=
  (∀ cfg : Config, (crc7Str cfg 0x00 [0x31, 0x32, 0x33, 0x34, 0x35, 0x36, 0x37, 0x38, 0x39]).2 = 0x04) ∧
  crc7Fold 0x00 [0x31, 0x32, 0x33, 0x34, 0x35, 0x36, 0x37, 0x38, 0x39] = 0x04 ∧
  crc7Fold 0x7F [0x31, 0x32, 0x33, 0x34, 0x35, 0x36, 0x37, 0x38, 0x39] = 0x05 ∧
  frameCrc [0x31, 0x32, 0x33, 0x34, 0x35, 0x36, 0x37, 0x38, 0x39] 0 9 = .ok 0x05 ∧
  frameCrc [0x08, 0x4F, 0x02, 0x80, 0x81, 0x02, 0x00, 0x01] 0 8 = .ok 0x23 ∧
  frameCrc [0x0E, 0x4F, 0x02, 0x80, 0x81, 0x08, 0x7F, 0x11, 0x7B, 0x22, 0x62, 0x22, 0x3A, 0x31] 0 14 = .ok 0x61

/-- A byte XORed with 0xB7 goes undetected: neither the update nor the frame CRC changes, wherever the byte stands
(R210). -/
def Obligations.GeneratorPatternIsUndetected : Prop :=
  (∀ a d : Byte, crc7Update a (d ^^^ 0xB7) = crc7Update a d) ∧
  (∀ (buf : Bytes) (i off len : Nat), frameCrc (buf.set i (byteAt buf i ^^^ 0xB7)) off len = frameCrc buf off len)

/-- CRC7.STR issues one CRC7.UPD a byte, each on the fold of the bytes before it, and its value is the fold of all of them
(R89, R258). -/
def Obligations.CrcStrFoldsOverUpdCommands : Prop :=
  ∀ (cfg : Config) (a : Byte) (s : Bytes),
    (crc7Str cfg a s).2 = s.foldl crc7Update a ∧ (crc7Str cfg a s).1.length = s.length ∧
    ∀ k b, s[k]? = some b → (crc7Str cfg a s).1[k]? = some (Instr.crc7Upd ((s.take k).foldl crc7Update a) b)

/-! ## Header, body and trailer -/

/-- HDR.PACK completes for every operand: InvalidIdLength for an `id` longer than 15 bytes, otherwise the 4 + idLen header
bytes (R110, R111). -/
def Obligations.HdrPackAnswersTheHeader : Prop :=
  ∀ (s : State) (r : Request) (len blen : Byte) (sec : Bool) (ftype : BitVec 7) (seq : BitVec 4) (id : Bytes),
    s.phase = .busy r →
    exec (.hdrPack len sec ftype seq id blen) s = .next (answeredWith s r
      (if 15 < id.length then [0x02]
       else [0x00, 0x00, BitVec.ofNat 8 (4 + id.length), len, BitVec.ofNat 8 (128 * sec.toNat + ftype.toNat),
         BitVec.ofNat 8 (16 * seq.toNat + id.length)] ++ id ++ [blen]))

/-- HDR.PARSE completes for every buffer: Truncated where bytes 0 to 2 or the bodyLen byte are missing, otherwise the six
fields (R117, R118). -/
def Obligations.HdrParseAnswersTheFields : Prop :=
  ∀ (s : State) (r : Request) (buf : Bytes), s.phase = .busy r →
    exec (.hdrParse buf) s = .next (answeredWith s r
      (if buf.length < 3 ∨ buf.length < 4 + (byteAt buf 2).toNat % 16 then [0x10]
       else [0x00, byteAt buf 0, BitVec.ofNat 8 ((byteAt buf 1).toNat / 128),
         BitVec.ofNat 8 ((byteAt buf 1).toNat % 128), BitVec.ofNat 8 ((byteAt buf 2).toNat / 16),
         BitVec.ofNat 8 ((byteAt buf 2).toNat % 16)] ++ (buf.drop 3).take ((byteAt buf 2).toNat % 16) ++
         [byteAt buf (3 + (byteAt buf 2).toNat % 16)]))

/-- BODY.PACK completes for every operand: InvalidBodyLength for a body longer than 251 bytes, otherwise the 2 + |stats|
body bytes (R120, R121). -/
def Obligations.BodyPackAnswersTheBody : Prop :=
  ∀ (s : State) (r : Request) (cfh : Bool) (valve : BitVec 7) (flags : Byte) (stats : Bytes), s.phase = .busy r →
    exec (.bodyPack cfh valve flags stats) s = .next (answeredWith s r
      (if 251 < 2 + stats.length then [0x01]
       else [0x00, 0x00, BitVec.ofNat 8 (2 + stats.length), BitVec.ofNat 8 (128 * cfh.toNat + valve.toNat), flags] ++
         stats))

/-- BODY.PARSE completes for every body: an absent body of zero fields for the empty string, MalformedHeader for one byte,
otherwise the four fields (R123, R124). -/
def Obligations.BodyParseAnswersTheFields : Prop :=
  ∀ (s : State) (r : Request) (body : Bytes), s.phase = .busy r →
    exec (.bodyParse body) s = .next (answeredWith s r
      (if body.length = 0 then [0x00, 0x00, 0x00, 0x00, 0x00, 0x00, 0x00]
       else if body.length = 1 then [0x12]
       else [0x00, 0x01, BitVec.ofNat 8 ((byteAt body 0).toNat / 128), BitVec.ofNat 8 ((byteAt body 0).toNat % 128),
         byteAt body 1, BitVec.ofNat 8 ((body.length - 2) / 256), BitVec.ofNat 8 (body.length - 2)] ++ body.drop 2))

/-- TRL.PACK completes for every operand and answers the trailer with both counters most significant byte first (R53,
R127). -/
def Obligations.TrlPackAnswersTheTrailer : Prop :=
  ∀ (s : State) (r : Request) (rc mc : U24) (tag : Bytes) (alg : Byte), s.phase = .busy r →
    exec (.trlPack rc mc tag alg) s = .next (answeredWith s r
      ([0x00, BitVec.ofNat 8 (rc.toNat / 65536), BitVec.ofNat 8 (rc.toNat / 256), BitVec.ofNat 8 rc.toNat,
        BitVec.ofNat 8 (mc.toNat / 65536), BitVec.ofNat 8 (mc.toNat / 256), BitVec.ofNat 8 mc.toNat] ++ tag ++ [alg]))

/-- TRL.PARSE completes for every 23-byte trailer, whatever its algorithm id: the counters read most significant byte
first, the tag and the algorithm id, which serialise to the trailer's own bytes (R53, R130). -/
def Obligations.TrlParseAnswersTheFields : Prop :=
  ∀ (s : State) (r : Request) (trl : Bytes), s.phase = .busy r → trl.length = 23 →
    exec (.trlParse trl) s = .next (answeredWith s r (0x00 :: trl)) ∧
    (parseTrailer trl).restartCounter.toNat =
      65536 * (byteAt trl 0).toNat + 256 * (byteAt trl 1).toNat + (byteAt trl 2).toNat ∧
    (parseTrailer trl).msgCounter.toNat =
      65536 * (byteAt trl 3).toNat + 256 * (byteAt trl 4).toNat + (byteAt trl 5).toNat ∧
    (parseTrailer trl).tag = (trl.drop 6).take 16 ∧ (parseTrailer trl).alg = byteAt trl 22

/-- The packers and parsers invert each other, and the body packer restores every body string of 2 to 251 bytes, the
lengths it accepts (R132). -/
def Obligations.PackersAndParsersInvertEachOther : Prop :=
  (∀ (len blen : Byte) (sec : Bool) (ftype : BitVec 7) (seq : BitVec 4) (id hdr : Bytes),
    id.length ≤ 15 → packHeader len sec ftype seq id blen = .ok hdr →
    parseHeader hdr =
      .ok { len := len, secure := sec, frameType := ftype, seqNo := seq, id := id, bodyLen := blen }) ∧
  (∀ (b : Body) (s : Bytes), 2 + b.stats.length ≤ 251 → packBody b = .ok s → parseBody s = .ok (some b)) ∧
  (∀ t : Trailer, t.tag.length = 16 → parseTrailer (packTrailer t) = t) ∧
  (∀ (s : Bytes) (b : Body), 2 ≤ s.length → s.length ≤ 251 → parseBody s = .ok (some b) → packBody b = .ok s)

/-! ## Nonce and AAD -/

/-- NONCE.BUILD completes for every operand and answers the identity bytes and both counters most significant byte first
(R52, R140). -/
def Obligations.NonceBuildAnswersTheNonce : Prop :=
  ∀ (s : State) (r : Request) (id4 pre : Bytes) (rc mc : U24), s.phase = .busy r →
    exec (.nonceBuild id4 pre rc mc) s = .next (answeredWith s r
      ([0x00] ++ id4 ++ pre ++
        [BitVec.ofNat 8 (rc.toNat / 65536), BitVec.ofNat 8 (rc.toNat / 256), BitVec.ofNat 8 rc.toNat,
          BitVec.ofNat 8 (mc.toNat / 65536), BitVec.ofNat 8 (mc.toNat / 256), BitVec.ofNat 8 mc.toNat]))

/-- For a fixed `id4` and `pre` the nonce is injective in the counters (R145). -/
def Obligations.NonceIsInjectiveInTheCounters : Prop :=
  ∀ (id4 pre : Bytes) (rc mc rc' mc' : U24), buildNonce id4 pre rc mc = buildNonce id4 pre rc' mc' → rc = rc' ∧ mc = mc'

/-- AAD.BUILD completes for every operand: Truncated where `hbc` passes the buffer, otherwise its first `hbc` bytes (R143). -/
def Obligations.AadBuildAnswersTheFirstBytes : Prop :=
  ∀ (s : State) (r : Request) (buf : Bytes) (hbc : U16), s.phase = .busy r →
    exec (.aadBuild buf hbc) s = .next (answeredWith s r
      (if buf.length < hbc.toNat then [0x10]
       else [0x00, BitVec.ofNat 8 (hbc.toNat / 256), BitVec.ofNat 8 hbc.toNat] ++ buf.take hbc.toNat))

/-- The encoder and the decoder feed the AEAD the same AAD: what `FrameAad` makes of the header just written is what it
makes of any received frame that begins with that header (R144, R146). -/
def Obligations.BothSidesFeedTheSameAad : Prop :=
  ∀ (cfg : Config) (f : Frame) (header rest : Bytes), frameHeader f = .ok header →
    frameAad cfg (header ++ rest) f.id.length = frameAad cfg header f.id.length ∧
    frameAad cfg header f.id.length =
      .ok (if cfg.aadIncludesBodyLen then header else header.take (3 + f.id.length))

/-! ## Padding -/

/-- PAD.BODY completes for every operand: BodyTooLargeForSecureBlock first, then InvalidBodyLength, otherwise the 32-byte
block with its count byte (R150, R151, R152). -/
def Obligations.PadBodyAnswersTheBlock : Prop :=
  ∀ (s : State) (r : Request) (cfh : Bool) (valve : BitVec 7) (flags dbl : Byte) (stats : Bytes), s.phase = .busy r →
    exec (.padBody cfh valve flags stats dbl) s = .next (answeredWith s r
      (if 32 ≤ dbl.toNat then [0x03]
       else if dbl.toNat ≠ 2 + stats.length then [0x01]
       else [0x00, BitVec.ofNat 8 (128 * cfh.toNat + valve.toNat), flags] ++ stats ++ zeros (29 - stats.length) ++
         [BitVec.ofNat 8 (29 - stats.length)]))

/-- PAD.UNPAD completes for every 32-byte block: MalformedHeader for a count above 29 or a padding byte that is not zero,
otherwise the four fields, the content being 31 minus the count bytes (R153, R154, R155). -/
def Obligations.PadUnpadAnswersTheFields : Prop :=
  ∀ (s : State) (r : Request) (pt : Bytes), s.phase = .busy r → pt.length = 32 →
    exec (.padUnpad pt) s = .next (answeredWith s r
      (if 29 < (byteAt pt 31).toNat ∨
          ((pt.drop (31 - (byteAt pt 31).toNat)).take (byteAt pt 31).toNat).any (fun b => b != 0) = true then [0x12]
       else [0x00, BitVec.ofNat 8 ((byteAt pt 0).toNat / 128), BitVec.ofNat 8 ((byteAt pt 0).toNat % 128), byteAt pt 1,
         0x00, BitVec.ofNat 8 (29 - (byteAt pt 31).toNat)] ++ (pt.drop 2).take (29 - (byteAt pt 31).toNat)))

/-- Unpadding inverts padding, and every block it accepts is the padding of exactly the fields it returns (R156). -/
def Obligations.UnpadInvertsPad : Prop :=
  (∀ b : Body, b.stats.length ≤ 29 →
    ∃ pt, padBlock b (2 + b.stats.length) = .ok pt ∧ pt.length = 32 ∧ unpadBlock pt = .ok b) ∧
  (∀ (pt : Bytes) (b : Body), pt.length = 32 → unpadBlock pt = .ok b → padBlock b (2 + b.stats.length) = .ok pt)

/-! ## The AEAD collaborator -/

/-- The default realisation, AES-128-GCM, has the exact properties of the contract: P_LEN, P_OPEN_SEAL and
P_OPEN_ONLY_SEALED (R160 to R162, R164). The algorithm is PRESUMED: log entry 8. -/
def Obligations.AesGcmMeetsTheAeadContract : Prop :=
  PLen defaultConfig ∧ POpenSeal defaultConfig ∧ POpenOnlySealed defaultConfig

/-! ## The frame encoder -/

/-- The encoder reports the first error in the order of R181, after every request-level error, and otherwise makes a
frame. -/
def Obligations.EncoderErrorOrder : Prop :=
  (∀ (cfg : Config) (req : Bytes) (e : Status), decode req = .error e → respond cfg req = [statusCode e]) ∧
  (∀ (cfg : Config) (f : Frame) (tx : TxContext) (dbl : Nat),
    dbl = (match f.body with | none => 0 | some b => 2 + b.stats.length) →
    if f.secure = true ∧ f.body ≠ none ∧ 32 ≤ dbl then encodeFrame cfg f tx = .error .bodyTooLargeForSecureBlock
    else if 15 < f.id.length then encodeFrame cfg f tx = .error .invalidIdLength
    else if f.secure = true ∧ f.id.length < 4 then encodeFrame cfg f tx = .error .invalidIdLength
    else if f.secure = false ∧ (251 < dbl ∨ 255 < 4 + f.id.length + dbl) then
      encodeFrame cfg f tx = .error .invalidBodyLength
    else ∃ w, encodeFrame cfg f tx = .ok w)

/-- FRAME.ENC answers an encode error with its status byte alone and leaves nothing behind (R183, R222). What a cleared
latch holds is the model's choice: log entry 4. -/
def Obligations.FrameEncAnswersItsErrorsAlone : Prop :=
  ∀ (s : State) (r : Request) (sec hasBody cfh : Bool) (ftype valve : BitVec 7) (seq : BitVec 4) (flags : Byte)
    (id stats key pre : Bytes) (rc mc : U24) (e : Status), s.phase = .busy r →
    encodeFrame Config.block (frameOfOperands sec ftype seq id hasBody cfh valve flags stats)
      { key := key, presharedId := pre, restartCounter := rc, msgCounter := mc } = .error e →
    exec (.frameEnc sec ftype seq id hasBody cfh valve flags stats key pre rc mc) s =
      .next { answeredWith s r [statusCode e] with hidden := Hidden.cleared }

/-- FRAME.ENC completes on an insecure frame whose `id` and length byte fit: header, packed body if any, and the whitened
CRC of every byte before it; the context is not read, and without a body neither are the body operands (R170,
R176). What a cleared latch holds is the model's choice: log entry 4. -/
def Obligations.FrameEncAnswersTheInsecureFrame : Prop :=
  ∀ (s : State) (r : Request) (hasBody cfh : Bool) (ftype valve : BitVec 7) (seq : BitVec 4) (flags : Byte)
    (id stats key pre content covered : Bytes) (rc mc : U24), s.phase = .busy r →
    content = (if hasBody then [BitVec.ofNat 8 (128 * cfh.toNat + valve.toNat), flags] ++ stats else []) →
    covered = [BitVec.ofNat 8 (4 + id.length + content.length), BitVec.ofNat 8 ftype.toNat,
      BitVec.ofNat 8 (16 * seq.toNat + id.length)] ++ id ++ [BitVec.ofNat 8 content.length] ++ content →
    id.length ≤ 15 → 4 + id.length + content.length ≤ 255 →
    exec (.frameEnc false ftype seq id hasBody cfh valve flags stats key pre rc mc) s =
      .next { answeredWith s r ([0x00, BitVec.ofNat 8 ((covered.length + 1) / 256), BitVec.ofNat 8 (covered.length + 1)] ++
        covered ++ [if covered.foldl crc7Update 0x7F = 0 then 0x80 else covered.foldl crc7Update 0x7F])
        with hidden := Hidden.cleared }

/-- FRAME.ENC completes on a secure frame with 4 to 15 ID bytes and at most 29 stats bytes: header, ciphertext, counters,
tag and 0x80, the AEAD called on the key, nonce, AAD and padded block of the rules, with the empty block without a body
(R170, R177 to R180). What a cleared latch holds is the model's choice: log entry 4. -/
def Obligations.FrameEncAnswersTheSecureFrame : Prop :=
  ∀ (s : State) (r : Request) (hasBody cfh : Bool) (ftype valve : BitVec 7) (seq : BitVec 4) (flags : Byte)
    (id stats key pre pt header ct : Bytes) (tag : Vector Byte 16) (rc mc : U24), s.phase = .busy r →
    pt = (if hasBody then [BitVec.ofNat 8 (128 * cfh.toNat + valve.toNat), flags] ++ stats ++ zeros (29 - stats.length) ++
      [BitVec.ofNat 8 (29 - stats.length)] else []) →
    header = [BitVec.ofNat 8 (26 + id.length + pt.length), BitVec.ofNat 8 (128 + ftype.toNat),
      BitVec.ofNat 8 (16 * seq.toNat + id.length)] ++ id ++ [BitVec.ofNat 8 pt.length] →
    (ct, tag) = Config.block.aeadSeal (fixedBytes 16 key) (fixedBytes 12 (id.take 4 ++ pre ++ be24 rc ++ be24 mc))
      (if Config.block.aadIncludesBodyLen then header else header.take (3 + id.length)) pt →
    4 ≤ id.length → id.length ≤ 15 → (hasBody = true → stats.length ≤ 29) →
    exec (.frameEnc true ftype seq id hasBody cfh valve flags stats key pre rc mc) s =
      .next { answeredWith s r ([0x00] ++ vb16 (header ++ ct ++ be24 rc ++ be24 mc ++ tag.toList ++ [0x80]))
        with hidden := Hidden.cleared }

/-- Every frame the encoder returns has the layout of R185: its length is L + 1, its byte 3+idLen is bodyLen, L is the sum
of R175, an insecure frame ends in its CRC and a secure one in 0x80. P_LEN (R161) is a premise. -/
def Obligations.EncodedFramesHaveTheFrameLayout : Prop :=
  ∀ (cfg : Config) (f : Frame) (tx : TxContext) (w : Bytes), PLen cfg →
    encodeFrame cfg f tx = .ok w →
    w.length = (byteAt w 0).toNat + 1 ∧ w.length ≤ 256 ∧
    (byteAt w (3 + f.id.length)).toNat = wireBodyLen f ∧
    (byteAt w 0).toNat = 3 + f.id.length + wireBodyLen f + (if f.secure then 23 else 1) ∧
    (f.secure = false → frameCrc w 0 (byteAt w 0).toNat = .ok (byteAt w (byteAt w 0).toNat)) ∧
    (f.secure = true → byteAt w (byteAt w 0).toNat = 0x80)

/-- The encoder state machine, started with any hidden state, responds within 300 phase steps with exactly what
`EncodeFrame` gives, and clears its latches (R27, R184). The number 300 is DEDUCED: log entry 19. What a cleared latch
holds is the model's choice: log entry 4. -/
def Obligations.EncoderStateMachineRefinesEncodeFrame : Prop :=
  ∀ (cfg : Config) (f : Frame) (tx : TxContext) (h : Hidden),
    encRun cfg f tx 300 (encStart h) = some (Hidden.cleared, encodeFrame cfg f tx)

/-- While the encoder state machine runs, every element of the hidden state stays in the range R27 gives it. -/
def Obligations.EncoderLatchesStayInRange : Prop :=
  ∀ (cfg : Config) (f : Frame) (tx : TxContext) (h h' : Hidden) (n : Nat), PLen cfg → 0 < n →
    encAfter cfg f tx n (encStart h) = some h' → hiddenInRange h'

/-! ## The frame decoder -/

/-- The decoder reports the first error in the order of R204, after every request-level error, and otherwise decodes. -/
def Obligations.DecoderErrorOrder : Prop :=
  (∀ (cfg : Config) (req : Bytes) (e : Status), decode req = .error e → respond cfg req = [statusCode e]) ∧
  (∀ (cfg : Config) (buf : Bytes) (rx : RxContext) (n len idLen bodyLen e : Nat) (sec : Bool),
    n = buf.length → len = (byteAt buf 0).toNat → sec = decide (128 ≤ (byteAt buf 1).toNat) →
    idLen = (byteAt buf 2).toNat % 16 → bodyLen = (byteAt buf (3 + idLen)).toNat →
    e = 3 + idLen + bodyLen + (if sec then 23 else 1) →
    if n = 0 then decodeFrame cfg buf rx = .error .truncated
    else if len < 2 ∨ n < 3 then decodeFrame cfg buf rx = .error .truncated
    else if sec = true ∧ idLen < 4 then decodeFrame cfg buf rx = .error .malformedHeader
    else if n < len + 1 then decodeFrame cfg buf rx = .error .truncated
    else if len < 3 + idLen then decodeFrame cfg buf rx = .error .truncated
    else if (sec = true ∧ bodyLen ≠ 0 ∧ bodyLen ≠ 32) ∨ (sec = false ∧ bodyLen = 1) then
      decodeFrame cfg buf rx = .error .malformedHeader
    else if len < e then decodeFrame cfg buf rx = .error .truncated
    else if e < len then decodeFrame cfg buf rx = .error .malformedHeader
    else if sec = false then
      if whiten ((buf.take len).foldl crc7Update 0x7F) ≠ byteAt buf len then
        decodeFrame cfg buf rx = .error .checksumMismatch
      else ∃ d, decodeFrame cfg buf rx = .ok d
    else if byteAt buf len ≠ 0x80 then decodeFrame cfg buf rx = .error .unsupportedAlgorithm
    else
      match cfg.aeadOpen (fixedBytes 16 rx.key)
          (fixedBytes 12 (memRead buf 3 4 ++ rx.presharedId ++ memRead buf (4 + idLen + bodyLen) 6))
          (buf.take (if cfg.aadIncludesBodyLen then 4 + idLen else 3 + idLen))
          (memRead buf (4 + idLen) bodyLen) (fixedBytes 16 (memRead buf (10 + idLen + bodyLen) 16)) with
      | none => decodeFrame cfg buf rx = .error .authenticationFailure
      | some pt =>
        if pt.length ≠ bodyLen then decodeFrame cfg buf rx = .error .malformedHeader
        else if bodyLen ≠ 0 ∧ (unpadBlock pt).toOption = none then decodeFrame cfg buf rx = .error .malformedHeader
        else ∃ d, decodeFrame cfg buf rx = .ok d)

/-- A secure frame with idLen below 4 is MalformedHeader whenever its type and seq/idLen bytes can be read, however short
the buffer is (R193). -/
def Obligations.SecureIdLenBelowFourIsMalformedHeader : Prop :=
  ∀ (cfg : Config) (buf : Bytes) (rx : RxContext), 3 ≤ buf.length → 2 ≤ (byteAt buf 0).toNat →
    128 ≤ (byteAt buf 1).toNat → (byteAt buf 2).toNat % 16 < 4 → decodeFrame cfg buf rx = .error .malformedHeader

/-- FRAME.DEC answers the result of `DecodeFrame`, laid out as R85 says, or its status byte alone, for every buffer and
context; a failed decode leaves no byte of plaintext behind (R85, R190, R201). What a cleared latch holds is the
model's choice: log entry 4. -/
def Obligations.FrameDecAnswersDecodeFrame : Prop :=
  ∀ (s : State) (r : Request) (buf key pre : Bytes), s.phase = .busy r →
    (∀ e, decodeFrame Config.block buf { key := key, presharedId := pre } = .error e →
      exec (.frameDec buf key pre) s = .next { answeredWith s r [statusCode e] with hidden := Hidden.cleared }) ∧
    (∀ d, decodeFrame Config.block buf { key := key, presharedId := pre } = .ok d →
      exec (.frameDec buf key pre) s = .next { answeredWith s r
        ([0x00, d.flen, BitVec.ofNat 8 d.frame.secure.toNat, BitVec.ofNat 8 d.frame.frameType.toNat,
          BitVec.ofNat 8 d.frame.seqNo.toNat, BitVec.ofNat 8 d.frame.id.length] ++ d.frame.id ++
          (match d.frame.body with
            | none => [0x00, 0x00, 0x00, 0x00, 0x00, 0x00]
            | some b => [0x01, BitVec.ofNat 8 b.callForHeat.toNat, BitVec.ofNat 8 b.valvePos.toNat, b.flags,
                BitVec.ofNat 8 (b.stats.length / 256), BitVec.ofNat 8 b.stats.length] ++ b.stats) ++
          be24 d.rxRestartCounter ++ be24 d.rxMsgCounter) with hidden := Hidden.cleared })

/-- FRAME.DEC completes on every insecure frame that the encoder makes, whatever bytes follow it and whatever the context:
it answers the fields that were encoded, with both counters 0 (R36, R190, R197). What a cleared latch holds is the model's choice:
log entry 4. -/
def Obligations.FrameDecAnswersAnEncodedInsecureFrame : Prop :=
  ∀ (s : State) (r : Request) (cfg : Config) (f : Frame) (b : Body) (tx : TxContext) (w extra key pre : Bytes),
    s.phase = .busy r → f.secure = false → f.body = some b → encodeFrame cfg f tx = .ok w →
    exec (.frameDec (w ++ extra) key pre) s = .next { answeredWith s r
      ([0x00, BitVec.ofNat 8 (w.length - 1), 0x00, BitVec.ofNat 8 f.frameType.toNat, BitVec.ofNat 8 f.seqNo.toNat,
        BitVec.ofNat 8 f.id.length] ++ f.id ++
        [0x01, BitVec.ofNat 8 b.callForHeat.toNat, BitVec.ofNat 8 b.valvePos.toNat, b.flags, 0x00,
          BitVec.ofNat 8 b.stats.length] ++ b.stats ++ zeros 6) with hidden := Hidden.cleared }

/-- FRAME.DEC on a secure frame whose structure is right is decided by the algorithm id, by what the AEAD opens on the
key, nonce, AAD, ciphertext and tag of the rules, and by the padding of what it opens (R198 to R203). What a
cleared latch holds is the model's choice: log entry 4. -/
def Obligations.FrameDecOpensAStructurallyRightSecureFrame : Prop :=
  ∀ (s : State) (r : Request) (ftype : BitVec 7) (seq : BitVec 4) (alg : Byte) (rc mc : U24)
    (id ct tag extra key pre header fields : Bytes), s.phase = .busy r →
    4 ≤ id.length → id.length ≤ 15 → (ct.length = 0 ∨ ct.length = 32) → tag.length = 16 →
    header = [BitVec.ofNat 8 (26 + id.length + ct.length), BitVec.ofNat 8 (128 + ftype.toNat),
      BitVec.ofNat 8 (16 * seq.toNat + id.length)] ++ id ++ [BitVec.ofNat 8 ct.length] →
    fields = [0x00, BitVec.ofNat 8 (26 + id.length + ct.length), 0x01, BitVec.ofNat 8 ftype.toNat,
      BitVec.ofNat 8 seq.toNat, BitVec.ofNat 8 id.length] ++ id →
    exec (.frameDec (header ++ ct ++ be24 rc ++ be24 mc ++ tag ++ [alg] ++ extra) key pre) s =
      .next { answeredWith s r
        (if alg ≠ 0x80 then [0x13]
         else
          match Config.block.aeadOpen (fixedBytes 16 key) (fixedBytes 12 (id.take 4 ++ pre ++ be24 rc ++ be24 mc))
              (if Config.block.aadIncludesBodyLen then header else header.take (3 + id.length)) ct (fixedBytes 16 tag) with
          | none => [0x14]
          | some pt =>
            if pt.length ≠ ct.length then [0x12]
            else if ct.length = 0 then fields ++ [0x00, 0x00, 0x00, 0x00, 0x00, 0x00] ++ be24 rc ++ be24 mc
            else
              match unpadBlock pt with
              | .error _ => [0x12]
              | .ok b => fields ++ [0x01, BitVec.ofNat 8 b.callForHeat.toNat, BitVec.ofNat 8 b.valvePos.toNat, b.flags,
                  0x00, BitVec.ofNat 8 b.stats.length] ++ b.stats ++ be24 rc ++ be24 mc)
        with hidden := Hidden.cleared }

/-- Round trip: what the encoder makes of a frame decodes, whatever bytes follow it, to that frame field for field, with
the sender's counters when it is secure and zeros when it is not. A secure frame takes P_LEN and P_OPEN_SEAL as
premises (R206). -/
def Obligations.DecodeInvertsEncodeFrame : Prop :=
  ∀ (cfg : Config) (f : Frame) (tx : TxContext) (rx : RxContext) (w extra : Bytes),
    encodeFrame cfg f tx = .ok w → rx.key = tx.key → rx.presharedId = tx.presharedId →
    (f.secure = true → PLen cfg ∧ POpenSeal cfg) →
    decodeFrame cfg (w ++ extra) rx = .ok {
      frame := f
      flen := BitVec.ofNat 8 (w.length - 1)
      rxRestartCounter := if f.secure then tx.restartCounter else 0
      rxMsgCounter := if f.secure then tx.msgCounter else 0 }

/-- The bytes after offset L are no part of the frame: a buffer that holds a whole frame decodes as that frame alone,
whatever follows (R191). -/
def Obligations.BytesPastTheFrameAreIgnored : Prop :=
  ∀ (cfg : Config) (buf extra : Bytes) (rx : RxContext), buf ≠ [] → (byteAt buf 0).toNat + 1 ≤ buf.length →
    decodeFrame cfg (buf ++ extra) rx = decodeFrame cfg buf rx

/-- The decoder state machine, started with any hidden state on any buffer, responds within 300 phase steps with exactly
what `DecodeFrame` gives, and clears its latches: it is total and bounded independently of the buffer's length (R27,
R205, R207). The number 300 is DEDUCED: log entry 19. What a cleared latch holds is the model's choice: log entry 4. -/
def Obligations.DecoderStateMachineRefinesDecodeFrame : Prop :=
  ∀ (cfg : Config) (buf : Bytes) (rx : RxContext) (h : Hidden),
    decRun cfg buf rx 300 (decStart h) = some (Hidden.cleared, decodeFrame cfg buf rx)

/-- While the decoder state machine runs, every element of the hidden state stays in the range R27 gives it; that an
opened plaintext is as long as its ciphertext rests on P_LEN and P_OPEN_ONLY_SEALED. -/
def Obligations.DecoderLatchesStayInRange : Prop :=
  ∀ (cfg : Config) (buf : Bytes) (rx : RxContext) (h h' : Hidden) (n : Nat), PLen cfg → POpenOnlySealed cfg →
    0 < n → decAfter cfg buf rx n (decStart h) = some h' → hiddenInRange h'

/-- Under P_UNFORGEABLE with one frame only sealed under the key, inverting one frameType, seqNo, ID, ciphertext, counter or
tag bit of that frame makes the decoder answer AuthenticationFailure (R209, second group). That P_UNFORGEABLE is relative
to a list of what was sealed is DEDUCED: log entry 12. -/
def Obligations.FlippedBitsThatReachOpenFailAuthentication : Prop :=
  ∀ (cfg : Config) (f : Frame) (tx : TxContext) (rx : RxContext) (w header aad pt : Bytes) (i k : Nat),
    PLen cfg → tx.wf = true → f.secure = true → encodeFrame cfg f tx = .ok w →
    frameHeader f = .ok header → frameAad cfg header f.id.length = .ok aad → securePlaintext f = .ok pt →
    PUnforgeable cfg (fixedBytes 16 tx.key)
      [(fixedBytes 12 (frameNonce f.id tx.presharedId tx.restartCounter tx.msgCounter), aad, (sealFrame cfg tx f.id aad pt).1,
        (sealFrame cfg tx f.id aad pt).2)] →
    rx.key = tx.key → rx.presharedId = tx.presharedId → k < 8 →
    ((i = 1 ∧ k < 7) ∨ (i = 2 ∧ 4 ≤ k) ∨ (3 ≤ i ∧ i < 3 + f.id.length) ∨
      (4 + f.id.length ≤ i ∧ i + 1 < w.length)) →
    decodeFrame cfg (flipBit w i k) rx = .error .authenticationFailure

/-- Under P_UNFORGEABLE with one frame only sealed under the key, no buffer whose secure flag is set decodes to anything but
what that frame decodes to: however it was changed, the answer is an error or the sealed content (R209). A buffer whose
secure flag is clear is an insecure frame, which no key protects. That limit, and P_UNFORGEABLE relative to a list of what
was sealed, are DEDUCED: log entry 12. -/
def Obligations.AlteredSecureFramesNeverDecodeToOtherContent : Prop :=
  ∀ (cfg : Config) (f : Frame) (tx : TxContext) (rx : RxContext) (w header aad pt buf : Bytes) (d : DecodedFrame),
    PLen cfg → tx.wf = true → f.secure = true → encodeFrame cfg f tx = .ok w →
    frameHeader f = .ok header → frameAad cfg header f.id.length = .ok aad → securePlaintext f = .ok pt →
    PUnforgeable cfg (fixedBytes 16 tx.key)
      [(fixedBytes 12 (frameNonce f.id tx.presharedId tx.restartCounter tx.msgCounter), aad, (sealFrame cfg tx f.id aad pt).1,
        (sealFrame cfg tx f.id aad pt).2)] →
    rx.key = tx.key → rx.presharedId = tx.presharedId → 128 ≤ (byteAt buf 1).toNat →
    decodeFrame cfg buf rx = .ok d → decodeFrame cfg w rx = .ok d

/-- Every single-bit change of an insecure frame, the flags, lengths and CRC byte included, is detected: the decoder
answers an error, under any AEAD (R210). -/
def Obligations.SingleBitChangesOfInsecureFramesAreDetected : Prop :=
  ∀ (cfg : Config) (f : Frame) (tx : TxContext) (rx : RxContext) (w : Bytes) (i k : Nat),
    f.secure = false → encodeFrame cfg f tx = .ok w → i < w.length → k < 8 →
    ∃ e, decodeFrame cfg (flipBit w i k) rx = .error e

/-! ## The machine's own invariants and the host's duties -/

/-- No step leaves anything of a command in the hidden state: no key, nonce, plaintext or partial frame (R27, R165). That
a cleared element holds zero or nothing is the model's choice: log entry 4. -/
def Obligations.EveryStepKeepsNoResidue : Prop := ∀ s t : State, noResidue s → step s = .next t → noResidue t

/-- At reset no residue is held, and the block is IDLE with no accepted request (R45). The cleared hidden state is the
model's choice: log entry 4. -/
def Obligations.ResetHoldsNoResidue : Prop := noResidue State.reset ∧ State.reset.phase = .idle

/-- Reset discards the request in flight, gives it no response and leaves what lies outside the block; the block is then
IDLE, and the next step accepts a request at once (R45, R250). That waiting requests
and delivered responses stay is the model's choice: log entry 5. -/
def Obligations.ResetDiscardsTheRequestInFlight : Prop :=
  ∀ (s : State) (host : Nat) (bytes : Bytes),
    (resetLine s).phase = .idle ∧ (resetLine s).delivered = s.delivered ∧ (resetLine s).waiting = s.waiting ∧
    (s.waiting = [] → ∃ t, step (submit host bytes (resetLine s)) = .next t ∧
      t.phase = .busy { host := host, bytes := bytes } ∧ t.waiting = [] ∧ t.delivered = s.delivered)

/-- A host that advances its message counter between encodes under one key, and keeps it below 2^24, never repeats a
nonce (R145, R253, R254, R256). That it is about one key and one restart counter, and that a refused encode counts, is
the model's choice: log entries 24 and 25. -/
def Obligations.AdvancingCountersKeepNoncesUnique : Prop :=
  ∀ encodes : List (HostContext × Frame),
    (encodes.Pairwise fun a b => messageAdvanced a.1 b.1 = true) → (∀ p ∈ encodes, p.1.msgCounter < 2 ^ 24) →
    nonceSafe (encodes.map fun p => encodeCommand p.1 p.2)
end

