-- ==== Sys2Proof/Laws/Bytes.lean ====
section
/-! SUPPORT. The small lemmas of the byte-string definitions (00_scope.md R14 to R16, 30_encoding.md R80). -/

namespace Sys2Proof

@[simp] theorem be16_length (v : U16) : (be16 v).length = 2 := rfl
@[simp] theorem be24_length (v : U24) : (be24 v).length = 3 := rfl
@[simp] theorem vb8_length (s : Bytes) : (vb8 s).length = 1 + s.length := by simp [vb8, Nat.add_comm]
@[simp] theorem vb16_length (s : Bytes) : (vb16 s).length = 2 + s.length := by simp [vb16]
@[simp] theorem memRead_length (s : Bytes) (i n : Nat) : (memRead s i n).length = min n (s.length - i) := by
  simp [memRead]
@[simp] theorem fixedBytes_length (n : Nat) (s : Bytes) : (fixedBytes n s).toList.length = n := by simp

/-- A string of the right length keeps its bytes. -/
theorem fixedBytes_toList (n : Nat) (s : Bytes) (h : s.length = n) : (fixedBytes n s).toList = s := by
  subst h
  apply List.ext_getElem
  · simp
  · intro i _ hi
    simp [fixedBytes, byteAt, List.getElem?_eq_getElem hi]

/-- Strings of the right length are told apart. -/
theorem fixedBytes_inj {n : Nat} {s t : Bytes} (hs : s.length = n) (ht : t.length = n)
    (h : fixedBytes n s = fixedBytes n t) : s = t := by
  rw [← fixedBytes_toList n s hs, ← fixedBytes_toList n t ht, h]

/-- Bytes that come from a vector give it back. -/
@[simp] theorem fixedBytes_of_toList {n : Nat} (v : Vector Byte n) : fixedBytes n v.toList = v := by
  apply Vector.toList_inj.mp
  exact fixedBytes_toList n _ (by simp)

@[simp] theorem memRead_all (s : Bytes) : memRead s 0 s.length = s := by simp [memRead]

/-- `be16` loses no bit. -/
theorem fromBe16_be16 (v : U16) : fromBe16 (be16 v) = v := by
  apply BitVec.eq_of_getLsbD_eq
  intro i hi
  show ((v.extractLsb' 8 8 ++ v.extractLsb' 0 8 : BitVec (8 + 8))).getLsbD i = _
  rw [BitVec.getLsbD_append, BitVec.getLsbD_extractLsb',BitVec.getLsbD_extractLsb']
  by_cases h : i < 8
  · simp [h]
  · have h2 : i - 8 < 8 := by omega
    have h3 : 8 + (i - 8) = i := by omega
    simp [h, h2, h3]

/-- `from_be24` is the inverse of `be24` (R15). -/
theorem fromBe24_be24 (v : U24) : fromBe24 (be24 v) = v := by
  apply BitVec.eq_of_getLsbD_eq
  intro i hi
  show ((v.extractLsb' 16 8 ++ v.extractLsb' 8 8 ++ v.extractLsb' 0 8 : BitVec (8 + 8 + 8))).getLsbD i = _
  rw [BitVec.getLsbD_append, BitVec.getLsbD_append]
  simp only [BitVec.getLsbD_extractLsb']
  by_cases h : i < 8
  · simp [h]
  · by_cases h' : i < 16
    · have h2 : i - 8 < 8 := by omega
      have h3 : 8 + (i - 8) = i := by omega
      simp [h, h2, h3]
    · have h2 : ¬ i - 8 < 8 := by omega
      have h4 : i - 8 - 8 < 8 := by omega
      have h3 : 16 + (i - 8 - 8) = i := by omega
      simp [h, h2, h3, h4]

theorem lenByte_toNat (n : Nat) (h : n < 256) : (lenByte n).toNat = n := by
  simp [lenByte, Nat.mod_eq_of_lt h]

/-- A read inside the first part of a concatenation. -/
theorem memRead_append_left (s t : Bytes) (i n : Nat) (h : i + n ≤ s.length) :
    memRead (s ++ t) i n = memRead s i n := by
  unfold memRead
  rw [List.drop_append_of_le_length (by omega), List.take_append_of_le_length (by simp; omega)]

/-- A read that begins at the second part of a concatenation. -/
theorem memRead_append_right (s t : Bytes) (n : Nat) : memRead (s ++ t) s.length n = memRead t 0 n := by
  simp [memRead]

end Sys2Proof
end

