-- ==== Sys2Proof/Laws/Codec.lean ====
section
/-! SUPPORT. What each shared function of the codec can answer, said once (40_crc7.md to 46_decoder.md), and the clear state
that a phase step leaves where it responds. -/

namespace Sys2Proof

/-! The CRC (R101, R103, R104) -/

/-- `Crc7Update` leaves bit 7 clear. -/
@[simp] theorem crc7Update_bit7 (acc d : Byte) : (crc7Update acc d).getLsbD 7 = false := by
  simp [crc7Update]

/-- `FrameCrc` answers exactly where the slice lies in the buffer. -/
theorem frameCrc_ok {buf : Bytes} {off len : Nat} {c : Byte} (h : frameCrc buf off len = .ok c) :
    off + len ≤ buf.length ∧ c = whiten (crc7Fold Params.crcInit (memRead buf off len)) := by
  unfold frameCrc at h
  split at h
  · cases h
  · exact ⟨by omega, (Except.ok.inj h).symm⟩

/-- The frame CRC of a whole string, which always exists. -/
theorem frameCrc_all (s : Bytes) : frameCrc s 0 s.length = .ok (whiten (crc7Fold Params.crcInit s)) := by
  simp [frameCrc]

/-! Header, body and trailer (R110 to R132) -/

/-- A packed header has at most 15 ID bytes and the layout of R111. -/
theorem packHeader_ok {len blen : Byte} {sec : Bool} {ftype : BitVec 7} {seq : BitVec 4} {id h : Bytes}
    (e : packHeader len sec ftype seq id blen = .ok h) :
    id.length ≤ 15 ∧ h = [len, typeByte sec ftype, seqIdLenByte seq id.length] ++ id ++ [blen] := by
  unfold packHeader at e
  split at e
  · cases e
  · exact ⟨Nat.le_of_not_lt ‹¬ _›, (Except.ok.inj e).symm⟩

/-- A header fails to pack only as InvalidIdLength, and only above 15 ID bytes. -/
theorem packHeader_error {len blen : Byte} {sec : Bool} {ftype : BitVec 7} {seq : BitVec 4} {id : Bytes} {err : Status}
    (e : packHeader len sec ftype seq id blen = .error err) : 15 < id.length ∧ err = .invalidIdLength := by
  unfold packHeader at e
  split at e
  · exact ⟨‹_›, (Except.error.inj e).symm⟩
  · cases e

/-- A parsed header was all there. -/
theorem parseHeader_ok {buf : Bytes} {h : Header} (e : parseHeader buf = .ok h) :
    4 + (idLenOf (byteAt buf 2)).toNat ≤ buf.length ∧ h.len = byteAt buf 0 ∧ h.secure = topBit (byteAt buf 1) ∧
    h.frameType = low7 (byteAt buf 1) ∧ h.seqNo = seqOf (byteAt buf 2) ∧
    h.id = memRead buf 3 (idLenOf (byteAt buf 2)).toNat ∧
    h.bodyLen = byteAt buf (3 + (idLenOf (byteAt buf 2)).toNat) := by
  simp only [parseHeader] at e
  split at e
  · cases e
  · split at e
    · cases e
    · cases e
      exact ⟨by omega, rfl, rfl, rfl, rfl, rfl, rfl⟩

/-- A header fails to parse only as Truncated. -/
theorem parseHeader_error {buf : Bytes} {err : Status} (e : parseHeader buf = .error err) : err = .truncated := by
  simp only [parseHeader] at e
  split at e
  · exact (Except.error.inj e).symm
  · split at e
    · exact (Except.error.inj e).symm
    · cases e

/-- A body packs to its content or is InvalidBodyLength. -/
theorem packBody_cases (b : Body) :
    (b.stats.length ≤ 249 ∧ packBody b = .ok (bodyContent b)) ∨
    (249 < b.stats.length ∧ packBody b = .error .invalidBodyLength) := by
  unfold packBody
  by_cases h : 251 < 2 + b.stats.length
  · exact .inr ⟨by omega, if_pos h⟩
  · exact .inl ⟨by omega, if_neg h⟩

/-- A body string parses to no body, to MalformedHeader or to its fields, by its length alone. -/
theorem parseBody_cases (s : Bytes) :
    (s.length = 0 ∧ parseBody s = .ok none) ∨ (s.length = 1 ∧ parseBody s = .error .malformedHeader) ∨
    (2 ≤ s.length ∧ parseBody s = .ok (some (bodyOf s))) := by
  unfold parseBody
  by_cases h : s.length = 0
  · exact .inl ⟨h, if_pos h⟩
  · by_cases h1 : s.length = 1
    · exact .inr (.inl ⟨h1, by rw [if_neg h, if_pos h1]⟩)
    · exact .inr (.inr ⟨by omega, by rw [if_neg h, if_neg h1]⟩)

/-! Nonce and AAD (R140, R143) -/

/-- An AAD is the first bytes of a buffer that has them. -/
theorem buildAad_ok {buf a : Bytes} {hbc : Nat} (e : buildAad buf hbc = .ok a) : hbc ≤ buf.length ∧ a = buf.take hbc := by
  unfold buildAad at e
  split at e
  · cases e
  · exact ⟨by omega, by simpa [memRead] using (Except.ok.inj e).symm⟩

/-- An AAD fails to build only as Truncated. -/
theorem buildAad_error {buf : Bytes} {hbc : Nat} {err : Status} (e : buildAad buf hbc = .error err) :
    buf.length < hbc ∧ err = .truncated := by
  unfold buildAad at e
  split at e
  · exact ⟨‹_›, (Except.error.inj e).symm⟩
  · cases e

/-! Padding (R150 to R155) -/

/-- A padded block has a declared length of at most 31 that is the content's own. -/
theorem padBlock_ok {b : Body} {dbl : Nat} {p : Bytes} (e : padBlock b dbl = .ok p) :
    dbl ≤ 31 ∧ dbl = 2 + b.stats.length ∧ p = bodyContent b ++ zeros (31 - dbl) ++ [lenByte (31 - dbl)] := by
  unfold padBlock at e
  split at e
  · cases e
  · split at e
    · cases e
    · rename_i h h'
      exact ⟨Nat.le_of_lt_succ (Nat.lt_of_not_le h), by simpa using h', (Except.ok.inj e).symm⟩

/-- An unpadded block has a count of at most 29, zeros for its padding, and the fields of its content. -/
theorem unpadBlock_ok {pt : Bytes} {b : Body} (e : unpadBlock pt = .ok b) :
    (byteAt pt 31).toNat ≤ 29 ∧
    (memRead pt (31 - (byteAt pt 31).toNat) (byteAt pt 31).toNat).any (fun x => x != 0x00) = false ∧
    parseBody (memRead pt 0 (31 - (byteAt pt 31).toNat)) = .ok (some b) := by
  simp only [unpadBlock] at e
  split at e
  · cases e
  · split at e
    · cases e
    · split at e
      · cases e
      · rename_i h1 h2 h3
        refine ⟨by omega, by simpa using h3, ?_⟩
        split at e
        · cases e
        · cases e
        · rename_i hb
          exact hb.trans (by rw [Except.ok.inj e])

/-- A block fails to unpad only as MalformedHeader. -/
theorem unpadBlock_error {pt : Bytes} {err : Status} (e : unpadBlock pt = .error err) : err = .malformedHeader := by
  simp only [unpadBlock] at e
  split at e
  · exact (Except.error.inj e).symm
  · split at e
    · exact (Except.error.inj e).symm
    · split at e
      · exact (Except.error.inj e).symm
      · split at e
        · rename_i hb
          rcases parseBody_cases (memRead pt 0 (31 - (byteAt pt 31).toNat)) with h | h | h
          · rw [h.2] at hb; cases hb
          · rw [h.2] at hb; cases hb; exact (Except.error.inj e).symm
          · rw [h.2] at hb; cases hb
        · exact (Except.error.inj e).symm
        · cases e

/-! The frame encoder (R170 to R181) -/

/-- The trailer the encoder writes is always 23 bytes, because a tag is 16 (R77, R160). -/
@[simp] theorem packTrailer_secureTrailerOf_length (tx : TxContext) (tag : Vector Byte 16) :
    (packTrailer (secureTrailerOf tx tag)).length = 23 := by
  simp [packTrailer, secureTrailerOf]

/-- What an encoded frame is: no encode error applied, the header packed, and the rest is the insecure or the secure path. -/
theorem encodeFrame_ok {cfg : Config} {f : Frame} {tx : TxContext} {w : Bytes} (e : encodeFrame cfg f tx = .ok w) :
    encodeError f = none ∧ ∃ header, frameHeader f = .ok header ∧
      (f.secure = false → ∃ body, insecureBody f = .ok body ∧
        w = header ++ body ++ [whiten (crc7Fold Params.crcInit (header ++ body))]) ∧
      (f.secure = true → ∃ pt aad, securePlaintext f = .ok pt ∧ frameAad cfg header f.id.length = .ok aad ∧
        w = header ++ (sealFrame cfg tx f.id aad pt).1 ++
          packTrailer (secureTrailerOf tx (sealFrame cfg tx f.id aad pt).2)) := by
  unfold encodeFrame at e
  split at e
  · cases e
  · split at e
    · cases e
    · rename_i hn _ header hh
      refine ⟨hn, header, hh, fun hs => ?_, fun hs => ?_⟩
      · simp only [hs, encodeInsecure, frameCrc_all, Bool.false_eq_true, if_false] at e
        split at e <;> cases e
        exact ⟨_, ‹_›, rfl⟩
      · simp only [hs, encodeSecure, if_true] at e
        split at e
        · cases e
        · split at e <;> cases e
          exact ⟨_, _, ‹_›, ‹_›, rfl⟩

/-! The frame decoder (R190 to R204) -/

/-- What a decoded buffer is: it holds a whole frame, the frame's header parses and agrees with its length byte, and the
insecure or the secure path decoded it. -/
theorem decodeFrame_ok {cfg : Config} {buf : Bytes} {rx : RxContext} {d : DecodedFrame}
    (e : decodeFrame cfg buf rx = .ok d) :
    (byteAt buf 0).toNat + 1 ≤ buf.length ∧ 2 ≤ (byteAt buf 0).toNat ∧
    ¬ (topBit (byteAt buf 1) = true ∧ (idLenOf (byteAt buf 2)).toNat < 4) ∧
    ∃ h, parseHeader (memRead buf 0 ((byteAt buf 0).toNat + 1)) = .ok h ∧
      badBodyLen h.secure h.bodyLen.toNat = false ∧ h.len.toNat = expectedLength h ∧
      (h.secure = true → decodeSecure cfg (memRead buf 0 ((byteAt buf 0).toNat + 1)) h rx = .ok d) ∧
      (h.secure = false → decodeInsecure (memRead buf 0 ((byteAt buf 0).toNat + 1)) h = .ok d) := by
  simp only [decodeFrame] at e
  split at e
  · cases e
  · split at e
    · cases e
    · split at e
      · cases e
      · split at e
        · cases e
        · rename_i h1 h2 h3 h4
          refine ⟨by omega, by omega, by simpa using h3, ?_⟩
          unfold decodeStructure at e
          split at e
          · cases e
          · rename_i h hh
            refine ⟨h, hh, ?_⟩
            split at e
            · cases e
            · split at e
              · cases e
              · split at e
                · cases e
                · rename_i hb hl hg
                  refine ⟨by simpa using hb, by omega, fun hs => ?_, fun hs => ?_⟩
                  · rwa [if_pos hs] at e
                  · rwa [hs] at e

namespace Machine

/-- Where the encoder state machine responds, its latches are cleared (R184). -/
theorem encStep_respond {cfg : Config} {f : Frame} {tx : TxContext} {h h' : Hidden} {r : Except Status Bytes}
    (e : encStep cfg f tx h = .respond h' r) : h' = Hidden.cleared := by
  unfold encStep at e
  split at e
  case h_10 => cases e; rfl
  case h_11 => cases e; rfl
  all_goals
    try simp only [encCheck, encHdr, encBody, encCrc, encPad, encSeal, encTrl, encFail] at e
    repeat (first | cases e | split at e)

/-- Where the decoder state machine responds, its latches are cleared (R205). -/
theorem decStep_respond {cfg : Config} {buf : Bytes} {rx : RxContext} {h h' : Hidden} {r : Except Status DecodedFrame}
    (e : decStep cfg buf rx h = .respond h' r) : h' = Hidden.cleared := by
  unfold decStep at e
  split at e
  case h_13 => cases e; rfl
  case h_14 => cases e; rfl
  all_goals
    try simp only [decLen, decPre, decBound, decHdr, decId, decBlen, decCrc, decBody, decTrl, decOpen, decUnpad, decFail] at e
    repeat (first | cases e | split at e)

end Machine

end Sys2Proof
end

