-- ==== Sys2Proof/Laws/State.lean ====
section
/-! SUPPORT. One lemma per field of State for each shared operation, so that no proof unfolds a record update. -/

namespace Sys2Proof.Machine

variable (s : State) (b : Bytes) (e : Status) (host : Nat)

@[simp] theorem deliver_phase : (deliver b s).phase = .idle := rfl
@[simp] theorem deliver_waiting : (deliver b s).waiting = s.waiting := rfl
@[simp] theorem deliver_delivered :
    (deliver b s).delivered = s.delivered ++ [{ host := sender s, bytes := b }] := rfl
@[simp] theorem deliver_hidden : (deliver b s).hidden = s.hidden := rfl
@[simp] theorem deliver_choices : (deliver b s).choices = s.choices := rfl

@[simp] theorem raiseError_phase : (raiseError e s).phase = .idle := rfl
@[simp] theorem raiseError_waiting : (raiseError e s).waiting = s.waiting := rfl
@[simp] theorem raiseError_delivered :
    (raiseError e s).delivered = s.delivered ++ [{ host := sender s, bytes := [statusCode e] }] := rfl
@[simp] theorem raiseError_hidden : (raiseError e s).hidden = s.hidden := rfl
@[simp] theorem raiseError_choices : (raiseError e s).choices = s.choices := rfl

@[simp] theorem submit_phase : (submit host b s).phase = s.phase := rfl
@[simp] theorem submit_waiting : (submit host b s).waiting = s.waiting ++ [{ host := host, bytes := b }] := rfl
@[simp] theorem submit_delivered : (submit host b s).delivered = s.delivered := rfl
@[simp] theorem submit_hidden : (submit host b s).hidden = s.hidden := rfl
@[simp] theorem submit_choices : (submit host b s).choices = s.choices := rfl

@[simp] theorem rewriteWaiting_phase (k : Nat) : (rewriteWaiting k b s).phase = s.phase := rfl
@[simp] theorem rewriteWaiting_waiting (k : Nat) :
    (rewriteWaiting k b s).waiting = s.waiting.modify k fun r => { r with bytes := b } := rfl
@[simp] theorem rewriteWaiting_delivered (k : Nat) : (rewriteWaiting k b s).delivered = s.delivered := rfl
@[simp] theorem rewriteWaiting_hidden (k : Nat) : (rewriteWaiting k b s).hidden = s.hidden := rfl
@[simp] theorem rewriteWaiting_choices (k : Nat) : (rewriteWaiting k b s).choices = s.choices := rfl

@[simp] theorem resetLine_phase : (resetLine s).phase = .idle := rfl
@[simp] theorem resetLine_waiting : (resetLine s).waiting = s.waiting := rfl
@[simp] theorem resetLine_delivered : (resetLine s).delivered = s.delivered := rfl
@[simp] theorem resetLine_hidden : (resetLine s).hidden = Hidden.cleared := rfl
@[simp] theorem resetLine_choices : (resetLine s).choices = s.choices := rfl

@[simp] theorem sender_with_hidden (h : Hidden) : sender { s with hidden := h } = sender s := rfl

/-- The sender of the command in flight is the host of the accepted request. -/
theorem sender_busy {r : Request} (h : s.phase = .busy r) : sender s = r.host := by simp [sender, h]

end Sys2Proof.Machine
end

