-- ==== Sys2Proof/Laws/Ops.lean ====
section
/-! SUPPORT. What each shared operation can do, said once: a command's end, a command's execution, serving a request, and
accepting one. -/

namespace Sys2Proof.Machine

/-- The end of a command is one response, whichever its outcome (R79, R222). -/
theorem complete_eq (r : Except Status Result) (s : State) : complete r s = .next (deliver (responseBytes r) s) := by
  cases r <;> rfl

/-- The hidden state a command leaves: that of its state machine for FRAME.ENC and FRAME.DEC, untouched otherwise. -/
def hiddenAfter (i : Instr) (h : Hidden) : Hidden :=
  match i with
  | .frameEnc sec ftype seq id hasBody cfh valve flags stats key pre rc mc =>
    encHidden Config.block (frameOfOperands sec ftype seq id hasBody cfh valve flags stats)
      { key := key, presharedId := pre, restartCounter := rc, msgCounter := mc } h
  | .frameDec buf key pre => decHidden Config.block buf { key := key, presharedId := pre } h
  | _ => h

/-- Every command delivers the response of its result under the block's configuration. -/
theorem exec_eq (i : Instr) (s : State) :
    exec i s =
      .next (deliver (responseBytes (commandResult Config.block i)) { s with hidden := hiddenAfter i s.hidden }) := by
  cases i <;> first | exact complete_eq _ _ | rfl

/-- Serving an accepted request delivers `Exec(cfg, req)`. -/
theorem serve_eq (r : Request) (s : State) :
    ∃ h, serve r s = .next (deliver (respond Config.block r.bytes) { s with hidden := h }) := by
  cases hd : decode r.bytes with
  | error e => exact ⟨s.hidden, by simp [serve, respond, hd, complete_eq]⟩
  | ok i => exact ⟨hiddenAfter i s.hidden, by simp [serve, respond, hd, exec_eq]⟩

/-- With nothing waiting, accepting changes nothing. -/
theorem accept_nil (s : State) (h : s.waiting = []) : accept s = s := by simp [accept, h]

/-- Accepting takes one waiting request out of the queue, or changes nothing. -/
theorem accept_cases (s : State) :
    accept s = s ∨ ∃ k r n, s.waiting[k]? = some r ∧
      accept s = { s with phase := .busy r, waiting := s.waiting.eraseIdx k, choices := n } := by
  unfold accept
  cases hk : s.waiting[choose s.choices (firstOfHost [] 0 s.waiting)]? with
  | none => exact .inl (by simp [hk])
  | some r => exact .inr ⟨_, r, _, hk, by simp [hk]; rfl⟩

end Sys2Proof.Machine
end

