-- ==== Sys2Proof/Laws/PerInstr.lean ====
section
/-! SUPPORT. The per-instruction family `EncodedSize`: how many bytes the request of each command takes (30_encoding.md R84). -/

namespace Sys2Proof.Laws

/-- The length of a command's request, by R84: the opcode byte, the fixed fields, and each variable field with its
length prefix. -/
def EncodedSize.size : Instr → Nat
  | .crc7Upd _ _ => 3
  | .crc7Frame buf _ _ => 7 + buf.length
  | .hdrPack _ _ _ _ id _ => 7 + id.length
  | .hdrParse buf => 3 + buf.length
  | .bodyPack _ _ _ stats => 6 + stats.length
  | .bodyParse body => 3 + body.length
  | .trlPack _ _ _ _ => 24
  | .trlParse _ => 24
  | .nonceBuild _ _ _ _ => 13
  | .aadBuild buf _ => 5 + buf.length
  | .padBody _ _ _ stats _ => 7 + stats.length
  | .padUnpad _ => 33
  | .frameEnc _ _ _ id _ _ _ _ stats _ _ _ _ => 35 + id.length + stats.length
  | .frameDec buf _ _ => 21 + buf.length

/-- The request of a well-formed command has the length that R84 gives its format. -/
def EncodedSize.Statement (i : Instr) : Prop := i.wf = true → (encode i).length = EncodedSize.size i

theorem EncodedSize.crc7Upd (acc d : Byte) : EncodedSize.Statement (.crc7Upd acc d) := fun _ => rfl

theorem EncodedSize.crc7Frame (buf : Bytes) (off len : U16) : EncodedSize.Statement (.crc7Frame buf off len) := by
  intro _; simp [encode, encodeOperands, EncodedSize.size]; omega

theorem EncodedSize.hdrPack (len : Byte) (sec : Bool) (ftype : BitVec 7) (seq : BitVec 4) (id : Bytes) (blen : Byte) :
    EncodedSize.Statement (.hdrPack len sec ftype seq id blen) := by
  intro _; simp [encode, encodeOperands, EncodedSize.size]; omega

theorem EncodedSize.hdrParse (buf : Bytes) : EncodedSize.Statement (.hdrParse buf) := by
  intro _; simp [encode, encodeOperands, EncodedSize.size]; omega

theorem EncodedSize.bodyPack (cfh : Bool) (valve : BitVec 7) (flags : Byte) (stats : Bytes) :
    EncodedSize.Statement (.bodyPack cfh valve flags stats) := by
  intro _; simp [encode, encodeOperands, EncodedSize.size]; omega

theorem EncodedSize.bodyParse (body : Bytes) : EncodedSize.Statement (.bodyParse body) := by
  intro _; simp [encode, encodeOperands, EncodedSize.size]; omega

theorem EncodedSize.trlPack (rc mc : U24) (tag : Bytes) (alg : Byte) : EncodedSize.Statement (.trlPack rc mc tag alg) := by
  intro h; simp [Instr.wf, fixedOk] at h; simp [encode, encodeOperands, EncodedSize.size, h]

theorem EncodedSize.trlParse (trl : Bytes) : EncodedSize.Statement (.trlParse trl) := by
  intro h; simp [Instr.wf, fixedOk] at h; simp [encode, encodeOperands, EncodedSize.size, h]

theorem EncodedSize.nonceBuild (id4 pre : Bytes) (rc mc : U24) : EncodedSize.Statement (.nonceBuild id4 pre rc mc) := by
  intro h; simp [Instr.wf, fixedOk] at h; simp [encode, encodeOperands, EncodedSize.size, h]

theorem EncodedSize.aadBuild (buf : Bytes) (hbc : U16) : EncodedSize.Statement (.aadBuild buf hbc) := by
  intro _; simp [encode, encodeOperands, EncodedSize.size]; omega

theorem EncodedSize.padBody (cfh : Bool) (valve : BitVec 7) (flags : Byte) (stats : Bytes) (dbl : Byte) :
    EncodedSize.Statement (.padBody cfh valve flags stats dbl) := by
  intro _; simp [encode, encodeOperands, EncodedSize.size]; omega

theorem EncodedSize.padUnpad (pt : Bytes) : EncodedSize.Statement (.padUnpad pt) := by
  intro h; simp [Instr.wf, fixedOk] at h; simp [encode, encodeOperands, EncodedSize.size, h]

theorem EncodedSize.frameEnc (sec : Bool) (ftype : BitVec 7) (seq : BitVec 4) (id : Bytes) (hasBody cfh : Bool)
    (valve : BitVec 7) (flags : Byte) (stats key pre : Bytes) (rc mc : U24) :
    EncodedSize.Statement (.frameEnc sec ftype seq id hasBody cfh valve flags stats key pre rc mc) := by
  intro h; simp [Instr.wf, fixedOk] at h; simp [encode, encodeOperands, EncodedSize.size, h]; omega

theorem EncodedSize.frameDec (buf key pre : Bytes) : EncodedSize.Statement (.frameDec buf key pre) := by
  intro h; simp [Instr.wf, fixedOk] at h; simp [encode, encodeOperands, EncodedSize.size, h]; omega

end Sys2Proof.Laws
end

