-- ==== Sys2Proof/Laws/Request.lean ====
section
/-! SUPPORT. The small lemmas of the request formats (30_encoding.md R80, R81, R84): each field, encoded, is taken back from the
front of a request, and its value read back. -/

namespace Sys2Proof

theorem takeBytes_append (n : Nat) (v r : Bytes) (h : v.length = n) : takeBytes n (v ++ r) = some (v, r) := by
  subst h; simp [takeBytes]

theorem takeField_u8 (b : Byte) (r : Bytes) : takeField .u8 (b :: r) = some ([b], r) := takeBytes_append 1 [b] r rfl
theorem takeField_bool (b : Byte) (r : Bytes) : takeField .bool (b :: r) = some ([b], r) := takeBytes_append 1 [b] r rfl
theorem takeField_u16 (v : U16) (r : Bytes) : takeField .u16 (be16 v ++ r) = some (be16 v, r) :=
  takeBytes_append 2 _ r rfl
theorem takeField_u24 (v : U24) (r : Bytes) : takeField .u24 (be24 v ++ r) = some (be24 v, r) :=
  takeBytes_append 3 _ r rfl
theorem takeField_fixed (n : Nat) (v r : Bytes) (h : v.length = n) : takeField (.fixed n) (v ++ r) = some (v, r) :=
  takeBytes_append n _ r h

theorem takeField_vb8 (v r : Bytes) (h : v.length < 256) : takeField .vb8 (vb8 v ++ r) = some (v, r) := by
  simp only [vb8, List.cons_append, takeField]
  exact takeBytes_append _ v r (by rw [lenByte_toNat _ h])

theorem takeField_vb16 (v r : Bytes) (h : v.length < 65536) : takeField .vb16 (vb16 v ++ r) = some (v, r) := by
  have e := fromBe16_be16 (BitVec.ofNat 16 v.length)
  simp only [be16] at e
  simp only [vb16, be16, List.cons_append, List.nil_append, takeField, e]
  exact takeBytes_append _ v r (by simp [Nat.mod_eq_of_lt h])

/-- The field loop takes one field, then the others. -/
theorem takeFields_cons {k : FieldKind} {ks : List FieldKind} {r v r' r'' : Bytes} {vs : List Bytes}
    (h : takeField k r = some (v, r')) (hs : takeFields ks r' = some (vs, r'')) :
    takeFields (k :: ks) r = some (v :: vs, r'') := by
  simp [takeFields, h, hs]

/-- The field loop on its last field, which leaves nothing. -/
theorem takeFields_last {k : FieldKind} {r v : Bytes} (h : takeField k (r ++ []) = some (v, [])) :
    takeFields [k] r = some ([v], []) := by
  rw [List.append_nil] at h
  simp [takeFields, h]

@[simp] theorem boolOf_boolByte (b : Bool) : boolOf [boolByte b] = b := by cases b <;> rfl
@[simp] theorem u8Of_single (b : Byte) : u8Of [b] = b := rfl
@[simp] theorem bits7Of_setWidth (b : BitVec 7) : bits7Of [b.setWidth 8] = b := by simp [bits7Of, byteAt]
@[simp] theorem bits4Of_setWidth (b : BitVec 4) : bits4Of [b.setWidth 8] = b := by simp [bits4Of, byteAt]

@[simp] theorem fieldInRange_none (k : FieldKind) (v : Bytes) : fieldInRange ⟨k, none⟩ v = true := rfl
@[simp] theorem fieldInRange_bool (b : Bool) : fieldInRange boolField [boolByte b] = true := by cases b <;> rfl

/-- Any 7-bit value is in the range of `ftype` and `valve` (R86). -/
@[simp] theorem fieldInRange_bits7 (b : BitVec 7) : fieldInRange ftypeField [b.setWidth 8] = true := by
  have := b.isLt
  simp [fieldInRange, byteAt, ftypeField]
  omega

/-- Any 4-bit value is in the range of `seq` (R86). -/
@[simp] theorem fieldInRange_bits4 (b : BitVec 4) : fieldInRange seqField [b.setWidth 8] = true := by
  have := b.isLt
  simp [fieldInRange, byteAt, seqField]
  omega

/-- The operand part of a request decodes when its fields parse with nothing left, are in range and make a command. -/
theorem decodeOperands_ok {o : Opcode} {r : Bytes} {vs : List Bytes} {i : Instr}
    (h : takeFields ((requestFormat o).map Field.kind) r = some (vs, []))
    (hr : fieldsInRange (requestFormat o) vs = true) (hc : commandOf o vs = some i) : decodeOperands o r = .ok i := by
  simp [decodeOperands, h, hr, hc]

/-- The opcode map of R83 is read back. -/
@[simp] theorem opcodeOf_opcodeByte (o : Opcode) : opcodeOf (opcodeByte o) = some o := by cases o <;> decide

end Sys2Proof
end

