-- ==== Sys2Proof/Tests/Slice0.lean ====
section
/-! SUPPORT. The tests of the model. Expected bytes are the spec's own vectors (95_test_vectors.md, named in the comments) or
are worked out by hand from the rule named. -/

namespace Sys2Proof.Tests

set_option Elab.async false -- one theorem at a time, so that few threads run

open Sys2Proof Sys2Proof.Machine

/-! ## Helpers -/

/-- The `n` bytes of a number, most significant first: a byte string written as one hexadecimal number. -/
def hx (n v : Nat) : Bytes := (List.range n).map fun i => BitVec.ofNat 8 (v >>> (8 * (n - 1 - i)))

/-- The state after reset with a request of host 3 accepted. -/
def busyWith (req : Bytes) : State := { State.reset with phase := .busy { host := 3, bytes := req } }

/-- The last response an outcome delivered. -/
def answer : Host.Outcome State Fault Refusal → Option Response
  | .next t => t.delivered.getLast?
  | _ => none

/-- Whether one step answers a request with exactly these bytes, to its sender, and leaves the block IDLE. -/
def answers (req resp : Bytes) : Bool :=
  match step (busyWith req) with
  | .next t => decide (t.delivered = [{ host := 3, bytes := resp }]) && decide (t.phase = .idle)
  | _ => false

/-- Whether a request decodes to this command, and the command's request is those bytes. -/
def decodesTo (req : Bytes) (i : Instr) : Bool :=
  (match decode req with
    | .ok j => decide (j = i)
    | .error _ => false) && decide (encode i = req)

/-- Whether a result is this value. -/
def isOk {α : Type} [DecidableEq α] (r : Except Status α) (v : α) : Bool :=
  match r with
  | .ok x => decide (x = v)
  | .error _ => false

/-- Whether a result is this error. -/
def isError {α : Type} (r : Except Status α) (e : Status) : Bool :=
  match r with
  | .ok _ => false
  | .error x => decide (x = e)

/-- The key of the spec's secure vectors (95_test_vectors.md). -/
def vecKey : Bytes := hx 16 0x000102030405060708090a0b0c0d0e0f

/-! ## WellFormed: an ill-formed term for each check, which the check refuses -/

theorem test_wf_crc7Frame : (Instr.crc7Frame (zeros 65536) 0 0).wf = false ∧ (Instr.crc7Frame (zeros 65535) 0 0).wf = true := by
  simp [Instr.wf, vb16Ok]
theorem test_wf_hdrPack : (Instr.hdrPack 0 false 0 0 (zeros 256) 0).wf = false ∧
    (Instr.hdrPack 0 false 0 0 (zeros 255) 0).wf = true := by simp [Instr.wf, vb8Ok]
theorem test_wf_hdrParse : (Instr.hdrParse (zeros 65536)).wf = false := by simp [Instr.wf, vb16Ok]
theorem test_wf_bodyPack : (Instr.bodyPack false 0 0 (zeros 65536)).wf = false := by simp [Instr.wf, vb16Ok]
theorem test_wf_bodyParse : (Instr.bodyParse (zeros 65536)).wf = false := by simp [Instr.wf, vb16Ok]
theorem test_wf_trlPack : (Instr.trlPack 0 0 (zeros 15) 0).wf = false ∧ (Instr.trlPack 0 0 (zeros 17) 0).wf = false := by decide
theorem test_wf_trlParse : (Instr.trlParse (zeros 22)).wf = false ∧ (Instr.trlParse (zeros 24)).wf = false := by decide
theorem test_wf_nonceBuild : (Instr.nonceBuild (zeros 3) (zeros 2) 0 0).wf = false ∧
    (Instr.nonceBuild (zeros 4) (zeros 3) 0 0).wf = false := by decide
theorem test_wf_aadBuild : (Instr.aadBuild (zeros 65536) 0).wf = false := by simp [Instr.wf, vb16Ok]
theorem test_wf_padBody : (Instr.padBody false 0 0 (zeros 65536) 0).wf = false := by simp [Instr.wf, vb16Ok]
theorem test_wf_padUnpad : (Instr.padUnpad (zeros 31)).wf = false ∧ (Instr.padUnpad (zeros 33)).wf = false := by decide
theorem test_wf_frameEnc :
    (Instr.frameEnc false 0 0 (zeros 256) false false 0 0 [] (zeros 16) (zeros 2) 0 0).wf = false ∧
    (Instr.frameEnc false 0 0 [] false false 0 0 (zeros 65536) (zeros 16) (zeros 2) 0 0).wf = false ∧
    (Instr.frameEnc false 0 0 [] false false 0 0 [] (zeros 15) (zeros 2) 0 0).wf = false ∧
    (Instr.frameEnc false 0 0 [] false false 0 0 [] (zeros 16) (zeros 1) 0 0).wf = false := by
  simp [Instr.wf, vb8Ok, vb16Ok, fixedOk]
theorem test_wf_frameDec : (Instr.frameDec (zeros 65536) (zeros 16) (zeros 2)).wf = false ∧
    (Instr.frameDec [] (zeros 17) (zeros 2)).wf = false ∧ (Instr.frameDec [] (zeros 16) (zeros 3)).wf = false := by
  simp [Instr.wf, vb16Ok, fixedOk]
theorem test_wf_context : TxContext.wf ⟨zeros 15, zeros 2, 0, 0⟩ = false ∧ RxContext.wf ⟨zeros 16, zeros 1⟩ = false ∧
    Frame.wf ⟨true, 0, 0, zeros 3, none⟩ = false ∧ Frame.wf ⟨false, 0, 0, zeros 16, none⟩ = false ∧
    Frame.wf ⟨true, 0, 0, zeros 4, none⟩ = true := by decide

/-! ## Decoding: each command's request written out byte by byte from R83, R84 -/

theorem test_decode_crc7Upd : decodesTo [0x01, 0x7F, 0x08] (.crc7Upd 0x7F 0x08) = true := by decide
theorem test_decode_crc7Frame :
    decodesTo [0x02, 0x00, 0x03, 0x08, 0x4F, 0x02, 0x00, 0x01, 0x00, 0x02] (.crc7Frame [0x08, 0x4F, 0x02] 1 2) = true := by
  decide
theorem test_decode_hdrPack :
    decodesTo [0x10, 0x08, 0x01, 0x4F, 0x05, 0x02, 0x80, 0x81, 0x20] (.hdrPack 0x08 true 0x4F 5 [0x80, 0x81] 0x20) = true := by
  decide
theorem test_decode_hdrParse : decodesTo [0x11, 0x00, 0x02, 0x08, 0x4F] (.hdrParse [0x08, 0x4F]) = true := by decide
theorem test_decode_bodyPack :
    decodesTo [0x12, 0x01, 0x32, 0x11, 0x00, 0x01, 0x7B] (.bodyPack true 0x32 0x11 [0x7B]) = true := by decide
theorem test_decode_bodyParse : decodesTo [0x13, 0x00, 0x01, 0x7F] (.bodyParse [0x7F]) = true := by decide
theorem test_decode_trlPack :
    decodesTo ([0x14, 0x01, 0x02, 0x03, 0x04, 0x05, 0x06] ++ vecKey ++ [0x80]) (.trlPack 0x010203 0x040506 vecKey 0x80) = true := by
  decide
theorem test_decode_trlParse :
    decodesTo (0x15 :: hx 23 0xffffff123456000102030405060708090a0b0c0d0e0f00)
      (.trlParse (hx 23 0xffffff123456000102030405060708090a0b0c0d0e0f00)) = true := by decide
theorem test_decode_nonceBuild :
    decodesTo [0x20, 0xAA, 0xBB, 0xCC, 0xDD, 0xEE, 0xFF, 0x00, 0x01, 0x02, 0x03, 0x04, 0x05]
      (.nonceBuild [0xAA, 0xBB, 0xCC, 0xDD] [0xEE, 0xFF] 0x000102 0x030405) = true := by decide
theorem test_decode_aadBuild : decodesTo [0x21, 0x00, 0x01, 0xAA, 0x01, 0x07] (.aadBuild [0xAA] 0x0107) = true := by decide
theorem test_decode_padBody :
    decodesTo [0x30, 0x01, 0x32, 0x01, 0x00, 0x01, 0x09, 0x03] (.padBody true 0x32 0x01 [0x09] 3) = true := by decide
theorem test_decode_padUnpad : decodesTo (0x31 :: (zeros 31 ++ [0x1D])) (.padUnpad (zeros 31 ++ [0x1D])) = true := by decide
theorem test_decode_frameEnc :
    decodesTo ([0x40, 0x01, 0x4F, 0x03, 0x04, 0xAA, 0xBB, 0xCC, 0xDD, 0x01, 0x00, 0x32, 0x11, 0x00, 0x01, 0x7B] ++ vecKey ++
        [0xEE, 0xFF, 0x00, 0x00, 0x01, 0x00, 0x00, 0x02])
      (.frameEnc true 0x4F 3 [0xAA, 0xBB, 0xCC, 0xDD] true false 0x32 0x11 [0x7B] vecKey [0xEE, 0xFF] 1 2) = true := by
  decide +kernel
theorem test_decode_frameDec :
    decodesTo ([0x41, 0x00, 0x02, 0x08, 0x4F] ++ vecKey ++ [0xEE, 0xFF]) (.frameDec [0x08, 0x4F] vecKey [0xEE, 0xFF]) = true := by
  decide +kernel

/-- Request-level errors: V-REQ-1, V-REQ-3, V-REQ-5, V-REQ-6, V-REQ-8. -/
theorem test_request_errors : answers [] [0xF0] = true ∧ answers [0x42, 0, 0] [0xF0] = true ∧
    answers [0x01, 0x7F] [0xF1] = true ∧ answers [0x01, 0x7F, 0x08, 0x00] [0xF1] = true ∧
    answers [0x11, 0x00] [0xF1] = true := by decide +kernel

/-! ## One command, one step: the spec's vectors -/

/-- V-CRC-3, V-CRC-4. -/
theorem test_crc7Upd : answers [0x01, 0x7F, 0x08] [0x00, 0x3A] = true ∧ answers [0x01, 0xFF, 0x31] [0x00, 0x44] = true := by
  decide +kernel
/-- V-CRC-16, V-CRC-13 (whitening). -/
theorem test_crc7Frame : answers [0x02, 0, 3, 0x08, 0x4F, 0x02, 0, 1, 0, 2] [0x00, 0x61] = true ∧
    answers [0x02, 0, 1, 0x49, 0, 0, 0, 1] [0x00, 0x80] = true := by decide +kernel
/-- V-CRC-18, V-CRC-17. -/
theorem test_crc7Frame_slice : answers [0x02, 0, 3, 0x08, 0x4F, 0x02, 0, 2, 0, 2] [0xF1] = true ∧
    answers [0x02, 0, 3, 0x08, 0x4F, 0x02, 0, 3, 0, 0] [0x00, 0x7F] = true := by decide +kernel
/-- V-FLD-1, V-FLD-2. -/
theorem test_hdrPack : answers (hx 9 0x1008004f0002808102) (hx 9 0x000006084f02808102) = true ∧
    answers (hx 7 0x101b013e050000) (hx 7 0x0000041bbe5000) = true := by decide +kernel
/-- V-FLD-3 (idLen 16), V-FLD-6. -/
theorem test_hdrPack_error : answers ([0x10, 0, 0, 0, 0, 16] ++ zeros 17) [0x02] = true ∧
    answers (hx 7 0x10000080000000) [0xF1] = true := by decide +kernel
/-- V-FLD-7, V-FLD-9. -/
theorem test_hdrParse : answers (hx 12 0x110009084f02808102000123) (hx 9 0x0008004f0002808102) = true ∧
    answers (hx 8 0x110005084f028081) [0x10] = true := by decide +kernel
/-- V-FLD-14, V-FLD-15. -/
theorem test_bodyPack : answers (hx 12 0x12007f1100067b2262223a31) (hx 11 0x0000087f117b2262223a31) = true ∧
    answers ([0x12, 0, 0, 0, 0, 0xFA] ++ zeros 250) [0x01] = true := by decide +kernel
/-- V-FLD-19, V-FLD-17, V-FLD-18. -/
theorem test_bodyParse : answers (hx 11 0x1300087f117b2262223a31) (hx 13 0x0001007f1100067b2262223a31) = true ∧
    answers [0x13, 0, 0] (zeros 7) = true ∧ answers [0x13, 0, 1, 0x7F] [0x12] = true := by decide +kernel
/-- V-FLD-22. -/
theorem test_trlPack : answers (hx 24 0x14ffffff123456000102030405060708090a0b0c0d0e0f00)
    (hx 24 0x00ffffff123456000102030405060708090a0b0c0d0e0f00) = true := by decide +kernel
/-- V-FLD-23. -/
theorem test_trlParse : answers (hx 24 0x15ffffff123456000102030405060708090a0b0c0d0e0f00)
    (hx 24 0x00ffffff123456000102030405060708090a0b0c0d0e0f00) = true := by decide +kernel
/-- V-NA-3. -/
theorem test_nonceBuild : answers (hx 13 0x20aabbccddeeff000001000002) (hx 13 0x00aabbccddeeff000001000002) = true := by
  decide +kernel
/-- V-NA-4, V-NA-5. -/
theorem test_aadBuild : answers (hx 13 0x2100083ecf04aabbccdd200007) (hx 10 0x0000073ecf04aabbccdd) = true ∧
    answers (hx 13 0x2100083ecf04aabbccdd200009) [0x10] = true := by decide +kernel
/-- V-PAD-1, V-PAD-5, V-PAD-6. -/
theorem test_padBody : answers (hx 7 0x30013201000002) ([0x00, 0xB2, 0x01] ++ zeros 29 ++ [0x1D]) = true ∧
    answers (hx 7 0x300000000000ff) [0x03] = true ∧ answers (hx 7 0x30000000000003) [0x01] = true := by decide +kernel
/-- V-PAD-8, V-PAD-10. -/
theorem test_padUnpad : answers ([0x31, 0xB2, 0x01] ++ zeros 29 ++ [0x1D]) (hx 6 0x000132010000) = true ∧
    answers ([0x31, 0xB2, 0x01] ++ zeros 29 ++ [0x1C]) (hx 7 0x00013201000100) = true := by decide +kernel
/-- V-PAD-12, V-PAD-14, V-PAD-16. -/
theorem test_padUnpad_error : answers ([0x31] ++ zeros 31 ++ [0x1E]) [0x12] = true ∧
    answers ([0x31] ++ zeros 31 ++ [0x20]) [0x12] = true ∧
    answers ([0x31, 0xB2, 0x01] ++ zeros 28 ++ [0x01, 0x1D]) [0x12] = true := by decide +kernel
/-- V-ENC-2, V-ENC-14. -/
theorem test_frameEnc :
    answers (hx 19 0x40004f0002808101007f1100067b2262223a31 ++ zeros 24)
      (hx 18 0x00000f0e4f028081087f117b2262223a3161) = true ∧
    answers (hx 14 0x40014f0003aabbcc010000010000 ++ vecKey ++ hx 8 0xeeff000001000002) [0x02] = true := by decide +kernel
/-- V-SEC-1, under the default configuration. -/
theorem test_frameEnc_secure :
    respond defaultConfig (hx 15 0x40014f0304aabbccdd010132010000 ++ vecKey ++ hx 8 0xeeff000001000002) =
      hx 66 0x00003f3ecf34aabbccdd208b9d8fa43472be4281ab0ae417132ab3460222f1ed9018fb9144b9f849f79ee50000010000024e3c31e639a9ccc45e43e773353837cb80 := by
  decide +kernel
/-- V-DEC-2, V-DEC-10, V-DEC-8. -/
theorem test_frameDec :
    answers (hx 18 0x41000f0e4f028081087f117b2262223a3161 ++ zeros 18)
      (hx 26 0x000e004f0002808101007f1100067b2262223a31000000000000) = true ∧
    answers (hx 12 0x410009084f02808102000124 ++ zeros 18) [0x11] = true ∧
    answers (hx 9 0x4100063ecf03aabbcc ++ zeros 18) [0x12] = true := by decide +kernel
/-- V-DEC-22, V-DEC-26, under the default configuration. -/
theorem test_frameDec_secure :
    respond defaultConfig (hx 66 0x41003f3ecf34aabbccdd208b9d8fa43472be4281ab0ae417132ab3460222f1ed9018fb9144b9f849f79ee50000010000024e3c31e639a9ccc45e43e773353837cb80 ++
      vecKey ++ [0xEE, 0xFF]) = hx 22 0x003e014f0304aabbccdd010132010000000001000002 ∧
    respond defaultConfig (hx 66 0x41003f3ecf34aabbccdd208b9d8fa43472be4281ab0ae417132ab3460222f1ed9018fb9144b9f849f79ee50000010000024e3c31e639a9ccc45e43e773353837ca80 ++
      vecKey ++ [0xEE, 0xFF]) = [0x14] := by
  decide +kernel

/-! ## Table words, the interface and the assembler -/

/-- Every opcode byte of R83, as a table word, decodes to a command of that opcode (spec/opcode_table.json). -/
theorem test_table_words : opcodes.all (fun o =>
    (decodeTableWord 8 (opcodeByte o).toNat).map Instr.opcode == some o) = true := by decide +kernel

/-- Every table word runs as the first instruction after reset and answers one response. -/
theorem test_table_words_run : opcodes.all (fun o =>
    (answer (step (State.reset.withFetchWord 8 (opcodeByte o).toNat))).isSome) = true := by decide +kernel

/-- The zero-filled table word of CRC7.UPD is a 3-byte request; a reserved opcode decodes to nothing. -/
theorem test_table_word_bytes : tableWordRequest 8 0x01 = [0x01, 0, 0] ∧ (tableWordRequest 8 0x40).length = 35 ∧
    decodeTableWord 8 0x42 = none ∧ decodeTableWord 24 0x317F01 = some (.crc7Upd 0x7F 0x31) := by decide +kernel

/-- Two requests of one host are answered in its issue order, each in an accepting and an answering step (R25, R63). -/
theorem test_two_requests :
    (match Host.Core.run Sys2Proof.core 4 (submit 7 [0xFF] (submit 7 [0x01, 0x7F, 0x08] State.reset)) with
      | .next t => decide (t.phase = .idle ∧ t.waiting = [] ∧
          t.delivered = [{ host := 7, bytes := [0x00, 0x3A] }, { host := 7, bytes := [0xF0] }])
      | _ => false) = true := by decide +kernel

/-- A waiting request's bytes are those that stand when it is accepted (R59); no change reaches an accepted one. -/
theorem test_rewriteWaiting :
    (match Host.Core.run Sys2Proof.core 2 (rewriteWaiting 0 [0xFF] (submit 7 [0x01, 0x7F, 0x08] State.reset)) with
      | .next t => decide (t.delivered = [{ host := 7, bytes := [0xF0] }])
      | _ => false) = true ∧
    rewriteWaiting 0 [0xFF] (busyWith [0x01]) = busyWith [0x01] := by decide +kernel

/-- The lines of R88 and the pseudo-instructions of R89, and a line with a comment; an operand too many is refused. -/
theorem test_assembler :
    assemble "CRC7.UPD 0x7f, 0x31" = some [0x01, 0x7F, 0x31] ∧
    assemble "CRC7.FRAME h\"08 4f 02\", 0, 3 ; whole" = some [0x02, 0, 3, 0x08, 0x4F, 0x02, 0, 0, 0, 3] ∧
    assemble "CRC7.ALL h\"084f02\"" = some [0x02, 0, 3, 0x08, 0x4F, 0x02, 0, 0, 0, 3] ∧
    assemble "FRAME.DEC.I \"A;,\"" = some (encode (frameDecI [0x41, 0x3B, 0x2C])) ∧
    assemble "CRC7.UPD 1, 2, 3" = none := by decide +kernel

/-- The replay check accepts a newer pair and keeps it, and refuses the same pair (95_test_vectors.md P3). -/
theorem test_replay : newerThan (some (1, 2)) 1 3 = true ∧ newerThan (some (1, 3)) 1 3 = false ∧
    newerThan (some (1, 3)) 2 0 = true ∧ newerThan none 0 0 = true := by decide

/-! ## Witnesses: for each statement with hypotheses, a state and operands that meet them together -/

/-- The tag of 16 zeros. -/
def zeroTag : Vector Byte 16 := fixedBytes 16 (zeros 16)

/-- A configuration that meets the contract: the ciphertext is the plaintext and every tag is zeros. -/
def toy : Config where
  aadIncludesBodyLen := false
  aeadSeal := fun _ _ _ pt => (pt, zeroTag)
  aeadOpen := fun _ _ _ ct tag => if tag = zeroTag then some ct else none

theorem toy_PLen : PLen toy := fun _ _ _ _ => rfl
theorem toy_POpenSeal : POpenSeal toy := fun _ _ _ _ => by simp [toy]
theorem toy_POpenOnlySealed : POpenOnlySealed toy := by
  intro _ _ _ ct tag pt h
  simp only [toy] at h
  split at h
  · cases h; simp [toy, *]
  · cases h

/-- A configuration in which nothing opens but one sealed tuple, to the empty plaintext. -/
def oneSealed (t : Vector Byte 12 × Bytes × Bytes × Vector Byte 16) : Config where
  aadIncludesBodyLen := false
  aeadSeal := fun _ _ _ pt => (pt, zeroTag)
  aeadOpen := fun _ nonce aad ct tag => if (nonce, aad, ct, tag) = t then some [] else none

theorem oneSealed_PUnforgeable (t : Vector Byte 12 × Bytes × Bytes × Vector Byte 16) (key : Vector Byte 16) :
    PUnforgeable (oneSealed t) key [t] := by
  intro nonce aad ct tag h
  have : (nonce, aad, ct, tag) ≠ t := by simpa using h
  simp [oneSealed, this]

/-- The secure frame without a body of V-SEC-2. -/
def bare : Frame := { secure := true, frameType := 0x4F, seqNo := 3, id := hx 4 0xaabbccdd, body := none }

/-- The secure frame of V-SEC-1. -/
def valve : Frame := { bare with body := some { callForHeat := true, valvePos := 0x32, flags := 0x01, stats := [] } }

/-- The insecure frame of V-ENC-1. -/
def plain : Frame :=
  { secure := false, frameType := 0x4F, seqNo := 0, id := [0x80, 0x81],
    body := some { callForHeat := false, valvePos := 0, flags := 0x01, stats := [] } }

/-- The insecure frame of V-ENC-1 as bytes. -/
def plainBytes : Bytes := hx 9 0x084f02808102000123

/-- The sender's context of the secure vectors. -/
def vecTx : TxContext := { key := vecKey, presharedId := [0xEE, 0xFF], restartCounter := 1, msgCounter := 2 }

/-- The receiver's context of the secure vectors. -/
def vecRx : RxContext := { key := vecKey, presharedId := [0xEE, 0xFF] }

/-- The clear header of `bare` with its bodyLen byte. -/
def bareHeader : Bytes := hx 8 0x1ecf34aabbccdd00

/-- What `bare` seals under `vecTx`: nonce, AAD, ciphertext, tag. -/
def bareSealed : Vector Byte 12 × Bytes × Bytes × Vector Byte 16 :=
  (fixedBytes 12 (hx 12 0xaabbccddeeff000001000002), hx 7 0x1ecf34aabbccdd, [], zeroTag)

/-- `bare` encoded under `oneSealed bareSealed`. -/
def bareBytes : Bytes := bareHeader ++ hx 6 0x000001000002 ++ zeros 16 ++ [0x80]

theorem test_witness_BusyStepRunsTheDecodedCommand :
    (busyWith [0x01, 0x7F, 0x08]).phase = .busy ⟨3, [0x01, 0x7F, 0x08]⟩ ∧ decode [0x01, 0x7F, 0x08] = .ok (.crc7Upd 0x7F 0x08) ∧
    (busyWith [0x42]).phase = .busy ⟨3, [0x42]⟩ ∧ decode [0x42] = .error .illegalCommand := ⟨rfl, rfl, rfl, rfl⟩

theorem test_witness_IdleStepAcceptsTheOldestRequestOfSomeHost :
    State.reset.phase = .idle ∧ State.reset.waiting = [] ∧ (submit 1 [0x01] State.reset).phase = .idle ∧
    (submit 1 [0x01] State.reset).waiting ≠ [] := by simp [State.reset, submit]

theorem test_witness_EveryStepKeepsEachHostsLedger : step State.reset = .next State.reset := rfl

theorem test_witness_WaitingRequestsAreAllServed :
    (submit 2 [0x42] (submit 1 [0x01] State.reset)).phase = .idle ∧
    (submit 2 [0x42] (submit 1 [0x01] State.reset)).waiting.length = 2 := ⟨rfl, rfl⟩

theorem test_witness_ResponseDependsOnlyOnRequestAndConfiguration :
    (busyWith [0x01, 0, 0]).phase = .busy ⟨3, [0x01, 0, 0]⟩ ∧
    (submit 9 [0x42] (busyWith [0x01, 0, 0])).phase = .busy ⟨3, [0x01, 0, 0]⟩ := ⟨rfl, rfl⟩

theorem test_witness_CommandsRaiseOnlyTheirStatuses :
    commandResult toy (.crc7Frame [] 0 1) = .error .illegalOperand ∧
    commandResult toy (.hdrPack 0 false 0 0 (zeros 16) 0) = .error .invalidIdLength ∧
    commandResult toy (.hdrParse [0, 0]) = .error .truncated ∧
    commandResult toy (.bodyPack false 0 0 (zeros 250)) = .error .invalidBodyLength ∧
    commandResult toy (.bodyParse [0]) = .error .malformedHeader ∧
    commandResult toy (.aadBuild [] 1) = .error .truncated ∧
    commandResult toy (.padBody false 0 0 [] 32) = .error .bodyTooLargeForSecureBlock ∧
    commandResult toy (.padUnpad (zeros 31 ++ [30])) = .error .malformedHeader ∧
    commandResult toy (.frameEnc false 0 0 (zeros 16) false false 0 0 [] [] [] 0 0) = .error .invalidIdLength ∧
    commandResult toy (.frameDec [] [] []) = .error .truncated ∧ decode [] = .error .illegalCommand := by
  decide +kernel

theorem test_witness_DecodeInvertsEncode :
    (Instr.hdrPack 0xFF true 0x7F 0xF (zeros 255) 0xFF).wf = true ∧ (Instr.trlPack 0xFFFFFF 0 (zeros 16) 0).wf = true ∧
    (Instr.frameEnc true 0 0 [] true true 0x7F 0 (zeros 300) (zeros 16) (zeros 2) 0 0).wf = true := by
  simp [Instr.wf, vb8Ok, vb16Ok, fixedOk]

theorem test_witness_EncodeInvertsDecode : decode [0x21, 0, 0, 0, 0] = .ok (.aadBuild [] 0) := rfl

theorem test_witness_RequestLengthIsToldByItsPrefixes : (Instr.frameDec [] (zeros 16) (zeros 2)).wf = true := by decide

theorem test_witness_ResponseLengthIsToldByOpcodeAndStatus :
    PLen toy ∧ (Instr.frameEnc true 0x4F 3 (zeros 4) true true 0 0 [] (zeros 16) (zeros 2) 0 0).wf = true :=
  ⟨toy_PLen, by decide⟩

theorem test_witness_ReservedOpcodesAreIllegalCommands :
    (busyWith []).phase = .busy ⟨3, []⟩ ∧ (busyWith [0x42]).phase = .busy ⟨3, [0x42]⟩ ∧
    [0x00, 0x03, 0x0F, 0x16, 0x1F, 0x22, 0x2F, 0x32, 0x3F, 0x42, 0xFF].all (fun b => (opcodeOf b).isNone) = true ∧
    [0x02, 0x10, 0x15, 0x20, 0x21, 0x30, 0x31, 0x40, 0x41].all (fun b => (opcodeOf b).isSome) = true :=
  ⟨rfl, rfl, by decide, by decide⟩

/-- The first values out of range, one a clause, and the longest legal and shortest illegal `id`. -/
theorem test_witness_OutOfRangeOperandsAreIllegalOperands :
    (1 < (2 : Byte).toNat ∧ 0x7F < (0x80 : Byte).toNat ∧ 0x0F < (0x10 : Byte).toNat) ∧
    (zeros 16).length < 256 ∧ 15 < (zeros 16).length ∧ (zeros 0).length < 65536 ∧ (zeros 24).length = 24 ∧
    respond toy ([0x10, 0, 2, 0, 0] ++ vb8 [] ++ [0]) = [0xF1] ∧
    respond toy ([0x10, 0, 1, 0x7F, 0x0F] ++ vb8 (zeros 16) ++ [0]) = [0x02] ∧
    respond toy ([0x40, 0, 0, 0] ++ vb8 [] ++ [2, 0, 0, 0] ++ vb16 [] ++ zeros 24) = [0xF1] := by decide +kernel

theorem test_witness_CrcFrameAnswersTheWhitenedFold :
    [1, 2, 3].length < (1 : U16).toNat + (3 : U16).toNat ∧
    ([1, 2, 3] : Bytes) = [1] ++ [2, 3] ++ [] ∧ [1].length = (1 : U16).toNat ∧ [2, 3].length = (2 : U16).toNat ∧
    ([1, 2, 3] : Bytes) = [1, 2, 3] ++ [] ++ [] ∧ [1, 2, 3].length = (3 : U16).toNat := by decide

theorem test_witness_FrameCrcIsNeverAllZerosOrAllOnes : frameCrc [0x49] 0 1 = .ok 0x80 ∧ frameCrc [] 0 0 = .ok 0x7F :=
  ⟨rfl, rfl⟩

theorem test_witness_CrcStrFoldsOverUpdCommands : ([0x31, 0x32] : Bytes)[1]? = some 0x32 := rfl

theorem test_witness_TrlParseAnswersTheFields : (zeros 23).length = 23 := rfl

theorem test_witness_PackersAndParsersInvertEachOther :
    (zeros 15).length ≤ 15 ∧ isOk (packHeader 1 true 2 3 (zeros 15) 4) ([1, 0x82, 0x3F] ++ zeros 15 ++ [4]) = true ∧
    2 + (zeros 249).length ≤ 251 ∧ isOk (packBody ⟨true, 0x32, 1, zeros 249⟩) ([0xB2, 1] ++ zeros 249) = true ∧
    isOk (parseBody [0xB2, 1]) (some ⟨true, 0x32, 1, []⟩) = true ∧
    isOk (parseBody (zeros 251)) (some ⟨false, 0, 0, zeros 249⟩) = true := by decide +kernel

theorem test_witness_NonceIsInjectiveInTheCounters : buildNonce [] [] 1 2 = buildNonce [] [] 1 2 := rfl

theorem test_witness_BothSidesFeedTheSameAad : isOk (frameHeader bare) bareHeader = true := by decide +kernel

theorem test_witness_PadUnpadAnswersTheFields :
    (zeros 31 ++ [29]).length = 32 ∧ (zeros 31 ++ [30]).length = 32 ∧
    responseBytes (padUnpadResult (zeros 31 ++ [29])) = zeros 6 ∧ responseBytes (padUnpadResult (zeros 31 ++ [30])) = [0x12] := by
  decide +kernel

theorem test_witness_UnpadInvertsPad :
    (zeros 29).length ≤ 29 ∧ (zeros 32).length = 32 ∧ isOk (unpadBlock (zeros 32)) ⟨false, 0, 0, zeros 29⟩ = true := by
  decide +kernel

theorem test_witness_EncoderErrorOrder : decode [] = .error .illegalCommand ∧ valve.secure = true ∧
    isError (encodeFrame toy { valve with body := some ⟨true, 0, 0, zeros 30⟩ } vecTx) .bodyTooLargeForSecureBlock = true ∧
    isError (encodeFrame toy { plain with id := zeros 16 } vecTx) .invalidIdLength = true ∧
    isError (encodeFrame toy { bare with id := zeros 3 } vecTx) .invalidIdLength = true ∧
    isError (encodeFrame toy { plain with body := some ⟨true, 0, 0, zeros 248⟩ } vecTx) .invalidBodyLength = true ∧
    isError (encodeFrame toy plain vecTx) .ok = false := ⟨rfl, rfl, by decide +kernel⟩

theorem test_witness_FrameEncAnswersItsErrorsAlone :
    encodeFrame Config.block (frameOfOperands true 0 0 (zeros 3) false false 0 0 []) vecTx = .error .invalidIdLength := rfl

/-- The longest frames: 15 ID bytes with 236 content bytes, and no ID with 251. -/
theorem test_witness_FrameEncAnswersTheInsecureFrame :
    (zeros 15).length ≤ 15 ∧ 4 + (zeros 15).length + (zeros 236).length ≤ 255 ∧ 4 + (zeros 0).length + (zeros 251).length ≤ 255 := by
  simp

theorem test_witness_FrameEncAnswersTheSecureFrame :
    (∃ ct tag, (ct, tag) = Config.block.aeadSeal (fixedBytes 16 vecKey) (fixedBytes 12 (zeros 12)) (if Config.block.aadIncludesBodyLen then bareHeader
      else bareHeader.take 7) []) ∧ 4 ≤ (zeros 4).length ∧ (zeros 15).length ≤ 15 ∧ (zeros 29).length ≤ 29 :=
  ⟨⟨_, _, rfl⟩, by simp⟩

theorem test_witness_EncodedFramesHaveTheFrameLayout : PLen toy ∧
    isOk (encodeFrame toy plain vecTx) plainBytes = true ∧
    (match encodeFrame toy valve vecTx with | .ok w => decide (w.length = 63) | .error _ => false) = true :=
  ⟨toy_PLen, by decide +kernel, by decide +kernel⟩

theorem test_witness_EncoderLatchesStayInRange :
    PLen toy ∧ ∃ h', encAfter toy plain vecTx 6 (encStart Hidden.cleared) = some h' :=
  ⟨toy_PLen, _, rfl⟩

/-- One buffer for each clause of the order, in that order, at the first value each clause takes where it has one. -/
theorem test_witness_DecoderErrorOrder : decode [] = .error .illegalCommand ∧
    isError (decodeFrame toy [] vecRx) .truncated = true ∧
    isError (decodeFrame toy [0x03, 0x4F] vecRx) .truncated = true ∧
    isError (decodeFrame toy (hx 6 0x3ecf03aabbcc) vecRx) .malformedHeader = true ∧
    isError (decodeFrame toy (hx 8 0x084f028081020001) vecRx) .truncated = true ∧
    isError (decodeFrame toy (hx 5 0x044f058081) vecRx) .truncated = true ∧
    isError (decodeFrame toy (hx 9 0x08cf04aabbccdd0500) vecRx) .malformedHeader = true ∧
    isError (decodeFrame toy (hx 6 0x054f00010000) vecRx) .malformedHeader = true ∧
    isError (decodeFrame toy (hx 6 0x054f00020000) vecRx) .truncated = true ∧
    isError (decodeFrame toy (hx 10 0x094f0280810200012300) vecRx) .malformedHeader = true ∧
    isError (decodeFrame toy (hx 9 0x084f02808102000124) vecRx) .checksumMismatch = true ∧
    isOk (decodeFrame toy plainBytes vecRx) (decodedOf ⟨8, false, 0x4F, 0, [0x80, 0x81], 2⟩ plain.body 0 0) = true ∧
    isError (decodeFrame toy (bareBytes.dropLast ++ [0x81]) vecRx) .unsupportedAlgorithm = true ∧
    isError (decodeFrame toy (flipBit bareBytes 29 0) vecRx) .authenticationFailure = true ∧
    isError (decodeFrame { toy with aeadOpen := fun _ _ _ _ _ => some [0] } bareBytes vecRx) .malformedHeader = true ∧
    isError (decodeFrame toy (hx 8 0x3ecf34aabbccdd20 ++ zeros 31 ++ [30] ++ zeros 22 ++ [0x80]) vecRx) .malformedHeader = true ∧
    isOk (decodeFrame toy bareBytes vecRx) (decodedOf ⟨30, true, 0x4F, 3, bare.id, 0⟩ none 1 2) = true :=
  ⟨rfl, by decide +kernel⟩

theorem test_witness_SecureIdLenBelowFourIsMalformedHeader :
    3 ≤ (hx 3 0x02cf03).length ∧ 2 ≤ (byteAt (hx 3 0x02cf03) 0).toNat ∧ 128 ≤ (byteAt (hx 3 0x02cf03) 1).toNat ∧
    (byteAt (hx 3 0x02cf03) 2).toNat % 16 < 4 := by decide

theorem test_witness_FrameDecAnswersDecodeFrame :
    decodeFrame Config.block [] vecRx = .error .truncated ∧
    isOk (decodeFrame Config.block plainBytes vecRx) (decodedOf ⟨8, false, 0x4F, 0, [0x80, 0x81], 2⟩ plain.body 0 0) = true :=
  ⟨rfl, by decide +kernel⟩

theorem test_witness_FrameDecAnswersAnEncodedInsecureFrame :
    plain.secure = false ∧ plain.body = some ⟨false, 0, 0x01, []⟩ ∧ isOk (encodeFrame toy plain vecTx) plainBytes = true :=
  ⟨rfl, rfl, by decide +kernel⟩

theorem test_witness_FrameDecOpensAStructurallyRightSecureFrame :
    4 ≤ (zeros 4).length ∧ (zeros 15).length ≤ 15 ∧ (zeros 0).length = 0 ∧ (zeros 32).length = 32 ∧
    (zeros 16).length = 16 := by decide

theorem test_witness_DecodeInvertsEncodeFrame :
    isOk (encodeFrame toy plain vecTx) plainBytes = true ∧ isOk (encodeFrame toy bare vecTx) bareBytes = true ∧
    vecRx.key = vecTx.key ∧ vecRx.presharedId = vecTx.presharedId ∧ PLen toy ∧ POpenSeal toy :=
  ⟨by decide +kernel, by decide +kernel, rfl, rfl, toy_PLen, toy_POpenSeal⟩

theorem test_witness_BytesPastTheFrameAreIgnored : plainBytes ≠ [] ∧ (byteAt plainBytes 0).toNat + 1 = plainBytes.length := by
  decide

theorem test_witness_DecoderLatchesStayInRange : PLen toy ∧ POpenOnlySealed toy ∧
    ∃ h', decAfter toy plainBytes vecRx 6 (decStart Hidden.cleared) = some h' :=
  ⟨toy_PLen, toy_POpenOnlySealed, _, rfl⟩

theorem test_witness_FlippedBitsThatReachOpenFailAuthentication :
    PLen (oneSealed bareSealed) ∧ vecTx.wf = true ∧ bare.secure = true ∧
    isOk (encodeFrame (oneSealed bareSealed) bare vecTx) bareBytes = true ∧ isOk (frameHeader bare) bareHeader = true ∧
    isOk (frameAad (oneSealed bareSealed) bareHeader bare.id.length) bareSealed.2.1 = true ∧
    isOk (securePlaintext bare) [] = true ∧
    (fixedBytes 12 (frameNonce bare.id vecTx.presharedId vecTx.restartCounter vecTx.msgCounter), bareSealed.2.1,
      (sealFrame (oneSealed bareSealed) vecTx bare.id bareSealed.2.1 []).1,
      (sealFrame (oneSealed bareSealed) vecTx bare.id bareSealed.2.1 []).2) = bareSealed ∧
    PUnforgeable (oneSealed bareSealed) (fixedBytes 16 vecTx.key) [bareSealed] ∧ bareBytes.length = 31 :=
  ⟨fun _ _ _ _ => rfl, by decide, rfl, by decide +kernel, by decide +kernel, by decide +kernel,
    by decide +kernel, by decide +kernel, oneSealed_PUnforgeable _ _, by decide +kernel⟩

/-- At the ends of each range of bits: type byte bits 0 and 6, seq bits 4 and 7, the first and last ID byte, the first byte
after the header and the last byte before the algorithm id. -/
theorem test_witness_FlippedBits_boundaries :
    [(1, 0), (1, 6), (2, 4), (2, 7), (3, 0), (6, 7), (8, 0), (29, 7)].all (fun p =>
      isError (decodeFrame (oneSealed bareSealed) (flipBit bareBytes p.1 p.2) vecRx) .authenticationFailure) = true := by
  decide +kernel

theorem test_witness_AlteredSecureFramesNeverDecodeToOtherContent :
    128 ≤ (byteAt (bareBytes ++ [0x00]) 1).toNat ∧
    isOk (decodeFrame (oneSealed bareSealed) (bareBytes ++ [0x00]) vecRx)
      (decodedOf ⟨30, true, 0x4F, 3, bare.id, 0⟩ none 1 2) = true := by decide +kernel

theorem test_witness_SingleBitChangesOfInsecureFramesAreDetected :
    plain.secure = false ∧ isOk (encodeFrame toy plain vecTx) plainBytes = true ∧ 8 < plainBytes.length ∧
    isError (decodeFrame toy (flipBit plainBytes 8 7) vecRx) .checksumMismatch = true ∧
    isError (decodeFrame toy (flipBit plainBytes 0 0) vecRx) .truncated = true :=
  ⟨rfl, by decide +kernel⟩

theorem test_witness_EveryStepKeepsNoResidue : noResidue State.reset ∧ step State.reset = .next State.reset := ⟨rfl, rfl⟩

theorem test_witness_ResetDiscardsTheRequestInFlight : (busyWith [0x42]).waiting = [] := rfl

theorem test_witness_AdvancingCountersKeepNoncesUnique :
    ([(⟨vecKey, hx 6 0xaabbccddeeff, 1, 0⟩, bare), (⟨vecKey, hx 6 0xaabbccddeeff, 1, 2 ^ 24 - 1⟩, bare)] :
      List (HostContext × Frame)).Pairwise (fun a b => messageAdvanced a.1 b.1 = true) ∧ 2 ^ 24 - 1 < 2 ^ 24 := by
  decide +kernel

end Sys2Proof.Tests
end

namespace Sys2Proof.Machine

/-! ## The interface: which request is accepted, what a step does, what each host is owed (R25, R63, R240) -/

/-- Every candidate is the oldest request of its host: no request before it is of that host or of a host met before. -/
theorem firstOfHost_split {seen : List Nat} {k i : Nat} {w : List Request} (hi : i ∈ firstOfHost seen k w) :
    ∃ before r after, w = before ++ r :: after ∧ i = k + before.length ∧ r.host ∉ seen ∧
      ∀ q ∈ before, q.host ≠ r.host := by
  induction w generalizing seen k with
  | nil => simp [firstOfHost] at hi
  | cons q w ih =>
    simp only [firstOfHost, List.contains_iff_mem] at hi
    split at hi
    case isTrue hseen =>
      obtain ⟨before, r, after, rfl, rfl, hr, hbefore⟩ := ih hi
      have hne : q.host ≠ r.host := fun h => hr (h ▸ hseen)
      exact ⟨q :: before, r, after, rfl, by simp; omega, hr, by simpa [hne] using hbefore⟩
    case isFalse hseen =>
      obtain rfl | hi := List.mem_cons.mp hi
      · exact ⟨[], q, w, rfl, rfl, hseen, by simp⟩
      · obtain ⟨before, r, after, rfl, rfl, hr, hbefore⟩ := ih hi
        obtain ⟨hne, hr⟩ := not_or.mp (mt List.mem_cons.mpr hr)
        exact ⟨q :: before, r, after, rfl, by simp; omega, hr, by simpa [Ne.symm hne] using hbefore⟩

/-- Where a request waits there is a candidate: the oldest of all. -/
theorem firstOfHost_ne_nil {w : List Request} (h : w ≠ []) (k : Nat) : firstOfHost [] k w ≠ [] := by
  cases w with
  | nil => exact absurd rfl h
  | cons r w => simp [firstOfHost]

/-- The arbiter names one of the candidates, whatever value it takes. -/
theorem choose_mem (n : Nat) {ks : List Nat} (h : ks ≠ []) : choose n ks ∈ ks := by
  match ks with
  | [k] => simp [choose]
  | k :: k' :: ks =>
    have hlt : Config.freeArbiter n % (k :: k' :: ks).length < (k :: k' :: ks).length := Nat.mod_lt _ (by simp)
    simp only [choose, List.getD_eq_getElem _ _ hlt]
    exact List.getElem_mem hlt

/-- With a request waiting, accepting takes the oldest request of some host out of the queue. -/
theorem accept_takes_oldest (s : State) (h : s.waiting ≠ []) :
    ∃ before r after n, s.waiting = before ++ r :: after ∧ (∀ q ∈ before, q.host ≠ r.host) ∧
      accept s = { s with phase := .busy r, waiting := before ++ after, choices := n } := by
  obtain ⟨before, r, after, hw, hk, -, hbefore⟩ :=
    firstOfHost_split (choose_mem s.choices (firstOfHost_ne_nil h 0))
  rw [Nat.zero_add] at hk
  have hget : s.waiting[before.length]? = some r := by simp [hw]
  have herase : s.waiting.eraseIdx before.length = before ++ after := by simp [hw, List.eraseIdx_append]
  exact ⟨before, r, after, _, hw, hbefore, by simp only [accept, hk, hget, herase]; rfl⟩

/-- From IDLE a step is an acceptance. -/
theorem step_idle {s : State} (h : s.phase = .idle) : step s = .next (accept s) := by simp [step, h]

/-- From BUSY a step serves the accepted request. -/
theorem step_busy {s : State} {r : Request} (h : s.phase = .busy r) : step s = serve r s := by simp [step, h]

/-- Delivering a response answers the accepted request. -/
theorem deliver_busy {s : State} {r : Request} (h : s.phase = .busy r) (bytes : Bytes) :
    deliver bytes s = answeredWith s r bytes := by
  simp [deliver, answeredWith, sender_busy s h]

/-- From BUSY a step answers the accepted request with `Exec` of it; only the hidden state may change besides. -/
theorem step_busy_answers {s : State} {r : Request} (h : s.phase = .busy r) :
    ∃ hid, step s = .next { answeredWith s r (respond Config.block r.bytes) with hidden := hid } := by
  obtain ⟨hid, hserve⟩ := serve_eq r s
  refine ⟨hid, ?_⟩
  rw [step_busy h, hserve, deliver_busy (s := { s with hidden := hid }) h]
  rfl

/-- In IDLE a host is owed what waits. -/
theorem outstandingOf_idle {s : State} (h : s.phase = .idle) (host : Nat) :
    outstandingOf host s = s.waiting.filter fun r => r.host == host := by
  simp [outstandingOf, accepted, h]

/-- In BUSY a host is owed the accepted request, if it sent it, before what waits. -/
theorem outstandingOf_busy {s : State} {r : Request} (h : s.phase = .busy r) (host : Nat) :
    outstandingOf host s = (r :: s.waiting).filter fun r => r.host == host := by
  simp [outstandingOf, accepted, h]

/-- Taking the oldest request of a host to the front of the queue leaves every host's own order. -/
theorem filter_host_oldest_first {before after : List Request} {r : Request} (h : ∀ q ∈ before, q.host ≠ r.host)
    (host : Nat) :
    (r :: (before ++ after)).filter (fun q => q.host == host) =
      (before ++ r :: after).filter fun q => q.host == host := by
  by_cases hr : r.host = host
  · subst hr
    have hnone : before.filter (fun q => q.host == r.host) = [] := by simpa using h
    simp [hnone]
  · simp [hr]

/-- An acceptance keeps every host's ledger: the accepted request is the oldest of its host. -/
theorem ledger_accept {s : State} (h : s.phase = .idle) (host : Nat) : ledger host (accept s) = ledger host s := by
  by_cases hw : s.waiting = []
  · rw [accept_nil s hw]
  · obtain ⟨before, r, after, n, hsplit, hbefore, haccept⟩ := accept_takes_oldest s hw
    have hout : outstandingOf host (accept s) = outstandingOf host s := by
      rw [outstandingOf_idle h, hsplit, haccept, outstandingOf_busy rfl, filter_host_oldest_first hbefore]
    rw [ledger, ledger, hout, haccept]
    rfl

/-- An answer moves the accepted request's response from what its sender is owed to what it has. -/
theorem ledger_answeredWith {s : State} {r : Request} (h : s.phase = .busy r) (hid : Hidden) (host : Nat) :
    ledger host { answeredWith s r (respond Config.block r.bytes) with hidden := hid } = ledger host s := by
  rw [ledger, ledger, outstandingOf_busy h, outstandingOf_idle rfl]
  by_cases hr : r.host = host <;> simp [deliveredTo, answeredWith, hr]

/-- Settles O3: an acceptance and an answer each keep the ledger. -/
theorem everyStepKeepsEachHostsLedger : Obligations.EveryStepKeepsEachHostsLedger := by
  unfold Obligations.EveryStepKeepsEachHostsLedger
  intro s t host hstep
  cases hp : s.phase with
  | idle =>
    rw [step_idle hp] at hstep
    cases hstep
    exact ledger_accept hp host
  | busy r =>
    obtain ⟨hid, hanswer⟩ := step_busy_answers hp
    rw [hanswer] at hstep
    cases hstep
    exact ledger_answeredWith hp hid host

/-- Settles O2: the accepted request is the candidate that the arbiter names. -/
theorem idleStepAcceptsTheOldestRequestOfSomeHost : Obligations.IdleStepAcceptsTheOldestRequestOfSomeHost := by
  unfold Obligations.IdleStepAcceptsTheOldestRequestOfSomeHost
  intro s hidle
  refine ⟨fun hw => by rw [step_idle hidle, accept_nil s hw], fun hw => ?_⟩
  obtain ⟨before, r, after, n, hsplit, hbefore, haccept⟩ := accept_takes_oldest s hw
  refine ⟨before.length, r, n, by simp [hsplit], fun j q hj hq => ?_, ?_⟩
  · rw [hsplit, List.getElem?_append_left hj] at hq
    exact hbefore q (List.mem_of_getElem? hq)
  · have herase : s.waiting.eraseIdx before.length = before ++ after := by simp [hsplit, List.eraseIdx_append]
    rw [step_idle hidle, haccept, herase]

/-- Two steps from IDLE with a request waiting accept one and answer it: one request fewer waits, IDLE again. -/
theorem two_steps_serve_one {s : State} (hidle : s.phase = .idle) (hw : s.waiting ≠ []) :
    ∃ u t, step s = .next u ∧ step u = .next t ∧ t.phase = .idle ∧ t.waiting.length + 1 = s.waiting.length := by
  obtain ⟨before, r, after, n, hsplit, -, haccept⟩ := accept_takes_oldest s hw
  obtain ⟨hid, hanswer⟩ :=
    step_busy_answers (s := { s with phase := .busy r, waiting := before ++ after, choices := n }) rfl
  exact ⟨_, _, (step_idle hidle).trans (congrArg _ haccept), hanswer, rfl, by simp [answeredWith, hsplit]; omega⟩

/-- A run of one step more is the step and then the run. -/
theorem run_succ {s t : State} (h : step s = .next t) (k : Nat) :
    Host.Core.run Sys2Proof.core (k + 1) s = Host.Core.run Sys2Proof.core k t := by
  have hcore : Sys2Proof.core.step s = .next t := h
  simp only [Host.Core.run, hcore]

/-- Two steps per waiting request empty the queue and keep every host's ledger. -/
theorem run_serves_all (n : Nat) (s : State) (hidle : s.phase = .idle) (hlen : s.waiting.length = n) :
    ∃ t, Host.Core.run Sys2Proof.core (2 * n) s = .next t ∧ t.phase = .idle ∧ t.waiting = [] ∧
      ∀ host, ledger host t = ledger host s := by
  induction n generalizing s with
  | zero => exact ⟨s, rfl, hidle, List.length_eq_zero_iff.mp hlen, fun _ => rfl⟩
  | succ n ih =>
    have hw : s.waiting ≠ [] := by
      intro h
      simp [h] at hlen
    obtain ⟨u, v, hsu, huv, hv, hvlen⟩ := two_steps_serve_one hidle hw
    obtain ⟨t, hrun, ht, htw, hledger⟩ := ih v hv (by omega)
    refine ⟨t, ?_, ht, htw, fun host => ?_⟩
    · rw [show 2 * (n + 1) = 2 * n + 1 + 1 by omega, run_succ hsu, run_succ huv, hrun]
    · rw [hledger, everyStepKeepsEachHostsLedger u v host huv, everyStepKeepsEachHostsLedger s u host hsu]

/-- Settles O4: the ledger of a host that is owed nothing any more is what it was delivered. -/
theorem waitingRequestsAreAllServed : Obligations.WaitingRequestsAreAllServed := by
  unfold Obligations.WaitingRequestsAreAllServed
  intro s hidle
  obtain ⟨t, hrun, ht, htw, hledger⟩ := run_serves_all _ s hidle rfl
  refine ⟨t, hrun, ht, htw, fun host => ?_⟩
  have h := hledger host
  simpa [ledger, outstandingOf_idle ht, outstandingOf_idle hidle, htw] using h

/-- Settles O5: a BUSY step answers with `Exec` of the accepted request, in either state. -/
theorem responseDependsOnlyOnRequestAndConfiguration : Obligations.ResponseDependsOnlyOnRequestAndConfiguration := by
  unfold Obligations.ResponseDependsOnlyOnRequestAndConfiguration
  intro s s' r hs hs'
  obtain ⟨hid, hstep⟩ := step_busy_answers hs
  obtain ⟨hid', hstep'⟩ := step_busy_answers hs'
  exact ⟨hid, hid', hstep, hstep'⟩

/-- Settles O1: serving a request is its execution, or the end of the command with the request-level error. -/
theorem busyStepRunsTheDecodedCommand : Obligations.BusyStepRunsTheDecodedCommand := by
  unfold Obligations.BusyStepRunsTheDecodedCommand
  intro s r hs
  refine ⟨fun i hi => ?_, fun e he => ?_⟩
  · rw [step_busy hs, serve, hi]
  · rw [step_busy hs, serve, he, ← deliver_busy hs]
    exact complete_eq (.error e) s

/-- Settles O58. -/
theorem resetHoldsNoResidue : Obligations.ResetHoldsNoResidue := by
  unfold Obligations.ResetHoldsNoResidue
  exact ⟨rfl, rfl⟩

/-- With one request waiting alone, accepting takes it. -/
theorem accept_single {s : State} {r : Request} (h : s.waiting = [r]) :
    accept s = { s with phase := .busy r, waiting := [] } := by
  simp [accept, h, firstOfHost, choose, contended]

/-- Settles O59: the reset line touches the phase and the hidden state only, and the request submitted next is alone in the
queue, so the step accepts it. -/
theorem resetDiscardsTheRequestInFlight : Obligations.ResetDiscardsTheRequestInFlight := by
  unfold Obligations.ResetDiscardsTheRequestInFlight
  intro s host bytes
  refine ⟨resetLine_phase s, resetLine_delivered s, resetLine_waiting s, fun hw => ?_⟩
  have halone : (submit host bytes (resetLine s)).waiting = [{ host := host, bytes := bytes }] := by simp [hw]
  refine ⟨_, step_idle rfl, ?_⟩
  rw [accept_single halone]
  exact ⟨rfl, rfl, rfl⟩

end Sys2Proof.Machine

namespace Sys2Proof

/-! ## Reads and sizes that the two state machines share -/

/-- A read of one byte more begins with the byte at its start. -/
theorem memRead_succ {s : Bytes} {i : Nat} (h : i < s.length) (n : Nat) :
    memRead s i (n + 1) = byteAt s i :: memRead s (i + 1) n := by
  have hdrop : s.drop i = byteAt s i :: s.drop (i + 1) := by
    rw [List.drop_eq_getElem_cons h, byteAt, List.getD_eq_getElem _ _ h]
  rw [memRead, hdrop, List.take_succ_cons, memRead]

/-- A latch of 8 bits is below 256. -/
theorem byte_toNat_lt (b : Byte) : b.toNat < 256 := b.isLt

/-! ## The sizes of an encoded frame (R172 to R175) -/

/-- Without an encode error the lengths are those that R171, R173 and R174 allow. -/
theorem encodeError_none {f : Frame} (h : encodeError f = none) :
    f.id.length ≤ 15 ∧ (f.secure = false → declaredBodyLen f ≤ 251 ∧ 4 + f.id.length + declaredBodyLen f ≤ 255) := by
  unfold encodeError at h
  split at h
  · cases h
  · split at h
    · cases h
    · split at h
      · cases h
      · split at h
        · cases h
        · rename_i hid _ hbody
          refine ⟨Nat.le_of_not_lt hid, fun hsec => ?_⟩
          simp [hsec] at hbody
          omega

/-- The length byte of an encoded frame holds its length. -/
theorem lenByte_frameLength {f : Frame} (h : encodeError f = none) :
    (lenByte (frameLength f)).toNat = frameLength f := by
  obtain ⟨hid, hinsecure⟩ := encodeError_none h
  apply lenByte_toNat
  cases hsec : f.secure with
  | false =>
    obtain ⟨-, htotal⟩ := hinsecure hsec
    simp [frameLength, wireBodyLen, trailerLen, hsec, Params.insecureTrailer]
    omega
  | true =>
    simp only [frameLength, wireBodyLen, trailerLen, hsec, if_true, Params.secureBlock, Params.secureTrailer]
    split <;> omega

/-- The packed header is four bytes and the ID. -/
theorem frameHeader_length {f : Frame} {header : Bytes} (h : frameHeader f = .ok header) :
    header.length = 4 + f.id.length := by
  obtain ⟨-, rfl⟩ := packHeader_ok h
  simp
  omega

/-- The packed body has the declared length. -/
theorem insecureBody_length {f : Frame} {body : Bytes} (h : insecureBody f = .ok body) :
    body.length = declaredBodyLen f := by
  unfold insecureBody at h
  unfold declaredBodyLen
  split at h
  · cases h
    simp [*]
  · rename_i b hb
    rcases packBody_cases b with ⟨-, hpack⟩ | ⟨-, hpack⟩
    · rw [hpack] at h
      cases h
      simp [bodyContent]
      omega
    · rw [hpack] at h
      cases h

/-- A secure plaintext is empty or one block (R163). -/
theorem securePlaintext_length {f : Frame} {pt : Bytes} (h : securePlaintext f = .ok pt) :
    pt.length = 0 ∨ pt.length = 32 := by
  unfold securePlaintext at h
  split at h
  · cases h
    exact .inl rfl
  · obtain ⟨hmax, hdbl, rfl⟩ := padBlock_ok h
    right
    simp [bodyContent]
    omega

namespace Machine

/-! ## The encoder state machine answers what `EncodeFrame` gives (R184) -/

section EncoderRun

variable {cfg : Config} {f : Frame} {tx : TxContext} {h h' : Hidden} {n : Nat}

/-- The operands that E_IDLE latches and no later phase changes. -/
def EncLatched (f : Frame) (tx : TxContext) (h : Hidden) : Prop :=
  h.secure = f.secure ∧ h.frameType = f.frameType ∧ h.seqNo = f.seqNo ∧ h.id = f.id ∧
    h.restartCounter = tx.restartCounter ∧ h.msgCounter = tx.msgCounter

/-- A phase step that goes on takes one unit of fuel. -/
theorem encRun_go (hs : encStep cfg f tx h = .go h') (hn : 0 < n) : encRun cfg f tx n h = encRun cfg f tx (n - 1) h' := by
  obtain ⟨m, rfl⟩ := Nat.exists_eq_add_of_lt hn
  simp [encRun, hs]

/-- E_DONE responds with the frame. -/
theorem encRun_done (hp : h.encPhase = .done) (hn : 0 < n) : encRun cfg f tx n h = some (Hidden.cleared, .ok h.out) := by
  obtain ⟨m, rfl⟩ := Nat.exists_eq_add_of_lt hn
  simp [encRun, encStep, hp]

/-- E_ERR responds with its status. -/
theorem encRun_err {e : Status} (hp : h.encPhase = .err e) (hn : 0 < n) :
    encRun cfg f tx n h = some (Hidden.cleared, .error e) := by
  obtain ⟨m, rfl⟩ := Nat.exists_eq_add_of_lt hn
  simp [encRun, encStep, hp]

/-- A phase that fails enters E_ERR, which responds with the status. -/
theorem encRun_fail {e : Status} (hs : encStep cfg f tx h = encFail e h') (hn : 1 < n) :
    encRun cfg f tx n h = some (Hidden.cleared, .error e) := by
  rw [encRun_go hs (by omega), encRun_err rfl (by omega)]

/-- From E_CRC: what is left of `out[0..L)` is folded, and the whitened value ends the frame. -/
theorem encRun_crc (hp : h.encPhase = .crc) (hout : h.len.toNat ≤ h.out.length)
    (hn : h.len.toNat - h.idx + 1 < n) :
    encRun cfg f tx n h =
      some (Hidden.cleared, .ok (h.out ++ [whiten (crc7Fold h.acc (memRead h.out h.idx (h.len.toNat - h.idx)))])) := by
  induction hk : h.len.toNat - h.idx generalizing h n with
  | zero =>
    have hs : encStep cfg f tx h = .go { h with encPhase := .done, out := h.out ++ [whiten h.acc] } := by
      simp only [encStep, hp, encCrc, if_neg (show ¬ h.idx < h.len.toNat by omega)]
    rw [encRun_go hs (by omega), encRun_done rfl (by omega)]
    simp [memRead, crc7Fold]
  | succ k ih =>
    have hs : encStep cfg f tx h = .go { h with acc := crc7Update h.acc (byteAt h.out h.idx), idx := h.idx + 1 } := by
      simp only [encStep, hp, encCrc, if_pos (show h.idx < h.len.toNat by omega)]
    rw [encRun_go hs (by omega), memRead_succ (by omega)]
    exact ih hp hout (by simp only; omega) (by simp only; omega)

/-- From E_BODY: the insecure path of `EncodeFrame`. -/
theorem encRun_body (hp : h.encPhase = .body) (hsec : f.secure = false) (herr : encodeError f = none)
    (hheader : frameHeader f = .ok h.out) (hlen : h.len = lenByte (frameLength f)) (hn : 258 < n) :
    encRun cfg f tx n h = some (Hidden.cleared, encodeInsecure f h.out) := by
  unfold encodeInsecure
  cases hbody : insecureBody f with
  | error e => exact encRun_fail (by simp only [encStep, hp, encBody, hbody]; rfl) (by omega)
  | ok body =>
    have hs : encStep cfg f tx h =
        .go { h with encPhase := .crc, out := h.out ++ body, idx := 0, acc := Params.crcInit } := by
      simp only [encStep, hp, encBody, hbody]
    have hL : h.len.toNat = (h.out ++ body).length := by
      rw [hlen, lenByte_frameLength herr, List.length_append, frameHeader_length hheader, insecureBody_length hbody]
      simp [frameLength, wireBodyLen, trailerLen, hsec, Params.insecureTrailer]
      omega
    have hbyte := byte_toNat_lt h.len
    rw [encRun_go hs (by omega), encRun_crc rfl (by exact hL.le) (by dsimp only; omega)]
    simp only [hL, frameCrc_all, Nat.sub_zero, memRead_all]

/-- From E_PAD: the secure path of `EncodeFrame`. -/
theorem encRun_pad (hp : h.encPhase = .pad) (hl : EncLatched f tx h) (hn : 5 < n) :
    encRun cfg f tx n h = some (Hidden.cleared, encodeSecure cfg f tx h.out) := by
  obtain ⟨-, -, -, hid, hrc, hmc⟩ := hl
  unfold encodeSecure
  cases hpt : securePlaintext f with
  | error e => exact encRun_fail (by simp only [encStep, hp, encPad, hpt]; rfl) (by omega)
  | ok pt =>
    have hpad : encStep cfg f tx h = .go { h with encPhase := .seals, pt := pt } := by
      simp only [encStep, hp, encPad, hpt]
    rw [encRun_go hpad (by omega)]
    simp only
    cases haad : frameAad cfg h.out f.id.length with
    | error e => exact encRun_fail (by simp only [encStep, encSeal, hid, haad]; rfl) (by omega)
    | ok aad =>
      have hseal : encStep cfg f tx { h with encPhase := .seals, pt := pt } = .go { h with
          encPhase := .ct, pt := pt, ct := (sealFrame cfg tx f.id aad pt).1
          tag := (sealFrame cfg tx f.id aad pt).2.toList } := by
        simp only [encStep, encSeal, hid, haad]
      rw [encRun_go hseal (by omega), encRun_go rfl (by omega), encRun_go rfl (by omega), encRun_done rfl (by omega)]
      simp [secureTrailerOf, hrc, hmc]

/-- From E_IDLE: `EncodeFrame`. -/
theorem encRun_idle (hp : h.encPhase = .idle) (hn : 262 < n) :
    encRun cfg f tx n h = some (Hidden.cleared, encodeFrame cfg f tx) := by
  have hidle : encStep cfg f tx h = .go (encIdle f tx h) := by simp only [encStep, hp]
  rw [encRun_go hidle (by omega)]
  unfold encodeFrame
  cases herr : encodeError f with
  | some e => exact encRun_fail (by simp only [encStep, encIdle, encCheck, herr]; rfl) (by omega)
  | none =>
    rw [encRun_go (by simp only [encStep, encIdle, encCheck, herr]; rfl) (by omega)]
    cases hheader : frameHeader f with
    | error e =>
      exact encRun_fail (by simp only [frameHeader] at hheader; simp only [encStep, encHdr, hheader]; rfl) (by omega)
    | ok header =>
      rw [encRun_go (by simp only [frameHeader] at hheader; simp only [encStep, encHdr, hheader]; rfl) (by omega)]
      cases hsec : f.secure with
      | true => exact encRun_pad (by simp) ⟨hsec.symm, rfl, rfl, rfl, rfl, rfl⟩ (by omega)
      | false => exact encRun_body (by simp) hsec herr (by simpa using hheader) rfl (by omega)

end EncoderRun

/-- Settles O43: a run from E_IDLE with fuel for every header, body and CRC byte. -/
theorem encoderStateMachineRefinesEncodeFrame : Obligations.EncoderStateMachineRefinesEncodeFrame := by
  unfold Obligations.EncoderStateMachineRefinesEncodeFrame
  intro cfg f tx h
  exact encRun_idle rfl (by omega)

end Machine
end Sys2Proof

namespace Sys2Proof.Machine

/-! ## The encoder's latches stay in the ranges of R27 -/

section EncoderRange

variable {cfg : Config} {f : Frame} {tx : TxContext} {h h' : Hidden} {n : Nat}

/-- How far `out`, and the latches that a later phase appends to it, have grown when a phase begins. A running machine has
left E_IDLE. -/
def EncProgress (f : Frame) (h : Hidden) : Prop :=
  match h.encPhase with
  | .idle => False
  | .check => h.out = [] ∧ h.idx = 0
  | .hdr => h.out = [] ∧ h.idx = 0 ∧ encodeError f = none
  | .body => h.out.length + declaredBodyLen f ≤ 255
  | .crc => h.out.length ≤ 255
  | .pad | .seals => h.out.length ≤ 19
  | .ct => h.out.length ≤ 19 ∧ h.ct.length ≤ 32 ∧ h.tag.length = 16
  | .trl => h.out.length ≤ 51 ∧ h.tag.length = 16
  | .done | .err _ => h.out.length ≤ 256

/-- What holds of the latches between the phase steps of one FRAME.ENC. -/
def EncInv (f : Frame) (tx : TxContext) (h : Hidden) : Prop :=
  EncLatched f tx h ∧ EncProgress f h ∧ h.idx < 65536 ∧ h.acc.getLsbD 7 = false ∧ (h.pt.length = 0 ∨ h.pt.length = 32)

/-- In no phase is `out` longer than the longest frame. -/
theorem EncProgress.out_length (hp : EncProgress f h) : h.out.length ≤ 256 := by
  unfold EncProgress at hp
  split at hp
  case h_1 => exact hp.elim
  case h_2 => simp [hp.1]
  case h_3 => simp [hp.1]
  all_goals omega

/-- The invariant is stronger than the ranges of R27. -/
theorem EncInv.inRange (hi : EncInv f tx h) : hiddenInRange h := by
  obtain ⟨-, hprog, hidx, hacc, hpt⟩ := hi
  exact ⟨hidx, hacc, hprog.out_length, hpt⟩

/-- E_IDLE starts every element afresh. -/
theorem encInv_encIdle : EncInv f tx (encIdle f tx h) :=
  ⟨⟨rfl, rfl, rfl, rfl, rfl, rfl⟩, ⟨rfl, rfl⟩, by simp [encIdle], by simp [encIdle], .inl rfl⟩

/-- Entering E_ERR changes the phase alone. -/
theorem encInv_encFail {e : Status} (hi : EncInv f tx h) (hs : encFail e h = .go h') : EncInv f tx h' := by
  obtain ⟨hl, hprog, hrest⟩ := hi
  cases hs
  exact ⟨hl, hprog.out_length, hrest⟩

/-! One lemma per phase: a phase step that goes on keeps the invariant. -/

theorem encInv_encCheck (hi : EncInv f tx h) (hp : h.encPhase = .check) (hs : encCheck f h = .go h') : EncInv f tx h' := by
  unfold encCheck at hs
  split at hs
  · exact encInv_encFail hi hs
  · obtain ⟨hl, hprog, hrest⟩ := hi
    simp only [EncProgress, hp] at hprog
    obtain ⟨hout, hidx⟩ := hprog
    cases hs
    exact ⟨hl, ⟨hout, hidx, ‹_›⟩, hrest⟩

theorem encInv_encHdr (hi : EncInv f tx h) (hp : h.encPhase = .hdr) (hs : encHdr h = .go h') : EncInv f tx h' := by
  unfold encHdr at hs
  split at hs
  · exact encInv_encFail hi hs
  · rename_i header hheader
    obtain ⟨hl, hprog, -, hrest⟩ := hi
    have ⟨hsec, _, _, hid, _⟩ := hl
    simp only [EncProgress, hp] at hprog
    obtain ⟨hout, hidx, herr⟩ := hprog
    obtain ⟨hid15, hinsecure⟩ := encodeError_none herr
    have hlen : header.length = 4 + f.id.length := by
      obtain ⟨-, rfl⟩ := packHeader_ok hheader
      simp [hid]
      omega
    cases hs
    refine ⟨hl, ?_, by simp only; omega, hrest⟩
    cases hsec' : h.secure with
    | true => simp [EncProgress, hout, hlen]; omega
    | false =>
      obtain ⟨-, htotal⟩ := hinsecure (hsec ▸ hsec')
      simp [EncProgress, hout, hlen]; omega

theorem encInv_encBody (hi : EncInv f tx h) (hp : h.encPhase = .body) (hs : encBody f h = .go h') : EncInv f tx h' := by
  unfold encBody at hs
  split at hs
  · exact encInv_encFail hi hs
  · rename_i body hbody
    obtain ⟨hl, hprog, -, -, hpt⟩ := hi
    simp only [EncProgress, hp] at hprog
    have hlen := insecureBody_length hbody
    cases hs
    exact ⟨hl, by simp [EncProgress]; omega, by simp, by simp [Params.crcInit], hpt⟩

theorem encInv_encCrc (hi : EncInv f tx h) (hp : h.encPhase = .crc) (hs : encCrc h = .go h') : EncInv f tx h' := by
  obtain ⟨hl, hprog, hidx, hacc, hpt⟩ := hi
  simp only [EncProgress, hp] at hprog
  unfold encCrc at hs
  split at hs <;> cases hs
  · have hbyte := byte_toNat_lt h.len
    exact ⟨hl, by simpa [EncProgress, hp] using hprog, by simp only; omega, crc7Update_bit7 _ _, hpt⟩
  · exact ⟨hl, by simp [EncProgress]; omega, hidx, hacc, hpt⟩

theorem encInv_encPad (hi : EncInv f tx h) (hp : h.encPhase = .pad) (hs : encPad f h = .go h') : EncInv f tx h' := by
  unfold encPad at hs
  split at hs
  · exact encInv_encFail hi hs
  · rename_i pt hpt
    obtain ⟨hl, hprog, hidx, hacc, -⟩ := hi
    simp only [EncProgress, hp] at hprog
    cases hs
    exact ⟨hl, hprog, hidx, hacc, securePlaintext_length hpt⟩

/-- The one phase that calls the AEAD: by P_LEN the ciphertext is as long as the plaintext. -/
theorem encInv_encSeal (hlen : PLen cfg) (hi : EncInv f tx h) (hp : h.encPhase = .seals)
    (hs : encSeal cfg tx h = .go h') : EncInv f tx h' := by
  unfold encSeal at hs
  split at hs
  · exact encInv_encFail hi hs
  · rename_i aad _
    obtain ⟨hl, hprog, hidx, hacc, hpt⟩ := hi
    have hct : (sealFrame cfg tx h.id aad h.pt).1.length = h.pt.length := hlen _ _ _ _
    simp only [EncProgress, hp] at hprog
    cases hs
    exact ⟨hl, ⟨hprog, by simp only; omega, by simp⟩, hidx, hacc, hpt⟩

theorem encInv_encTrl (hi : EncInv f tx h) (hp : h.encPhase = .trl) (hs : encTrl h = .go h') : EncInv f tx h' := by
  obtain ⟨hl, hprog, hrest⟩ := hi
  simp only [EncProgress, hp] at hprog
  cases hs
  exact ⟨hl, by simp [EncProgress, packTrailer]; omega, hrest⟩

/-- Every phase step that goes on keeps the invariant. -/
theorem encInv_encStep (hlen : PLen cfg) (hi : EncInv f tx h) (hs : encStep cfg f tx h = .go h') : EncInv f tx h' := by
  unfold encStep at hs
  split at hs <;> rename_i hp
  case h_1 => cases hs; exact encInv_encIdle
  case h_2 => exact encInv_encCheck hi hp hs
  case h_3 => exact encInv_encHdr hi hp hs
  case h_4 => exact encInv_encBody hi hp hs
  case h_5 => exact encInv_encCrc hi hp hs
  case h_6 => exact encInv_encPad hi hp hs
  case h_7 => exact encInv_encSeal hlen hi hp hs
  case h_8 =>
    obtain ⟨hl, hprog, hrest⟩ := hi
    simp only [EncProgress, hp] at hprog
    cases hs
    exact ⟨hl, by simp [EncProgress]; omega, hrest⟩
  case h_9 => exact encInv_encTrl hi hp hs
  case h_10 => cases hs
  case h_11 => cases hs

/-- A step that goes on is the first of a longer run. -/
theorem encAfter_go (hs : encStep cfg f tx h = .go h') : encAfter cfg f tx (n + 1) h = encAfter cfg f tx n h' := by
  simp [encAfter, hs]

/-- The invariant holds as long as the machine runs. -/
theorem encInv_encAfter (hlen : PLen cfg) (hi : EncInv f tx h) (ha : encAfter cfg f tx n h = some h') : EncInv f tx h' := by
  induction n generalizing h with
  | zero => cases ha; exact hi
  | succ n ih =>
    cases hs : encStep cfg f tx h with
    | go u => exact ih (encInv_encStep hlen hi hs) (by rwa [encAfter_go hs] at ha)
    | respond u r => simp [encAfter, hs] at ha

end EncoderRange

/-- Settles O44: E_IDLE establishes the invariant, every later phase step keeps it, and it implies the ranges. -/
theorem encoderLatchesStayInRange : Obligations.EncoderLatchesStayInRange := by
  unfold Obligations.EncoderLatchesStayInRange
  intro cfg f tx h h' n hlen hn ha
  obtain ⟨m, rfl⟩ := Nat.exists_eq_succ_of_ne_zero hn.ne'
  have hidle : encStep cfg f tx (encStart h) = .go (encIdle f tx (encStart h)) := rfl
  rw [encAfter_go hidle] at ha
  exact (encInv_encAfter hlen encInv_encIdle ha).inRange

end Sys2Proof.Machine

namespace Sys2Proof

/-! ## What the first bytes of a buffer give is what the buffer gives (R16, R191) -/

/-- A read inside the first bytes of a buffer reads the buffer. -/
theorem memRead_memRead {s : Bytes} {m i n : Nat} (h : i + n ≤ m) : memRead (memRead s 0 m) i n = memRead s i n := by
  simp only [memRead, List.drop_zero, List.drop_take, List.take_take, Nat.min_eq_left (show n ≤ m - i by omega)]

/-- A read of one byte more ends with the byte after it. -/
theorem memRead_concat {s : Bytes} {i n : Nat} (h : i + n < s.length) :
    memRead s i (n + 1) = memRead s i n ++ [byteAt s (i + n)] := by
  have hget : (s.drop i)[n]? = some (byteAt s (i + n)) := by
    simp [byteAt, List.getElem?_drop, List.getElem?_eq_getElem h]
  simp [memRead, List.take_add_one, hget]

/-- A byte of the first bytes of a buffer is the buffer's. -/
theorem byteAt_memRead {s : Bytes} {m i : Nat} (h : i < m) : byteAt (memRead s 0 m) i = byteAt s i := by
  simp [byteAt, memRead, List.getElem?_take_of_lt h]

/-- The AAD of a frame is that of any buffer that begins with it. -/
theorem frameAad_memRead {cfg : Config} {buf : Bytes} {m n : Nat} (hm : m ≤ buf.length) (hn : 4 + n ≤ m) :
    frameAad cfg (memRead buf 0 m) n = frameAad cfg buf n := by
  unfold frameAad
  generalize hk : (if cfg.aadIncludesBodyLen then 4 + n else 3 + n) = k
  have hkm : k ≤ m := by
    subst hk
    split <;> omega
  simp only [buildAad, memRead_length, memRead_memRead (s := buf) (i := 0) (n := k) (by omega : 0 + k ≤ m)]
  rw [if_neg (by omega), if_neg (by omega)]

/-- The header of the frame at the front of a buffer, where the frame reaches its bodyLen byte. -/
def headerAt (buf : Bytes) : Header where
  len := byteAt buf 0
  secure := topBit (byteAt buf 1)
  frameType := low7 (byteAt buf 1)
  seqNo := seqOf (byteAt buf 2)
  id := memRead buf 3 (idLenOf (byteAt buf 2)).toNat
  bodyLen := byteAt buf (3 + (idLenOf (byteAt buf 2)).toNat)

@[simp] theorem headerAt_len (buf : Bytes) : (headerAt buf).len = byteAt buf 0 := rfl

/-- The frame `F` at the front of a buffer: its length byte and the `L` bytes after it (R191). -/
def frameAt (buf : Bytes) : Bytes := memRead buf 0 ((byteAt buf 0).toNat + 1)

section FrameAt

variable {buf : Bytes} (hbuf : (byteAt buf 0).toNat + 1 ≤ buf.length)
include hbuf

/-- The frame has `L + 1` bytes. -/
theorem frameAt_length : (frameAt buf).length = (byteAt buf 0).toNat + 1 := by
  simp [frameAt]
  omega

/-- The frame's header parses to that of the buffer where it reaches the bodyLen byte (R192). -/
theorem parseHeader_frameAt (h : 3 + (idLenOf (byteAt buf 2)).toNat ≤ (byteAt buf 0).toNat) :
    parseHeader (frameAt buf) = .ok (headerAt buf) := by
  have hlen := frameAt_length hbuf
  have hbyte : ∀ i, i < (byteAt buf 0).toNat + 1 → byteAt (frameAt buf) i = byteAt buf i := fun i hi => byteAt_memRead hi
  have hid : memRead (frameAt buf) 3 (idLenOf (byteAt buf 2)).toNat = memRead buf 3 (idLenOf (byteAt buf 2)).toNat :=
    memRead_memRead (by omega)
  simp only [parseHeader, hlen, hbyte 0 (by omega), hbyte 1 (by omega), hbyte 2 (by omega),
    hbyte (3 + (idLenOf (byteAt buf 2)).toNat) (by omega), hid]
  rw [if_neg (by omega), if_neg (by omega), headerAt]

/-- The frame's header is Truncated where it does not reach the bodyLen byte (R192). -/
theorem parseHeader_frameAt_short (h2 : 2 ≤ (byteAt buf 0).toNat)
    (h : (byteAt buf 0).toNat < 3 + (idLenOf (byteAt buf 2)).toNat) : parseHeader (frameAt buf) = .error .truncated := by
  have hbyte : byteAt (frameAt buf) 2 = byteAt buf 2 := byteAt_memRead (by omega)
  simp only [parseHeader, frameAt_length hbuf, hbyte]
  rw [if_neg (by omega), if_pos (by omega)]

end FrameAt

namespace Machine

/-! ## The decoder state machine answers what `DecodeFrame` gives (R205) -/

section DecoderRun

variable {cfg : Config} {buf : Bytes} {rx : RxContext} {h h' : Hidden} {n : Nat}

/-- A phase step that goes on takes one unit of fuel. -/
theorem decRun_go (hs : decStep cfg buf rx h = .go h') (hn : 0 < n) :
    decRun cfg buf rx n h = decRun cfg buf rx (n - 1) h' := by
  obtain ⟨m, rfl⟩ := Nat.exists_eq_add_of_lt hn
  simp [decRun, hs]

/-- D_DONE responds with the latched header, body and counters. -/
theorem decRun_done (hp : h.decPhase = .done) (hn : 0 < n) :
    decRun cfg buf rx n h =
      some (Hidden.cleared, .ok (decodedOf (latchedHeader h) h.body h.restartCounter h.msgCounter)) := by
  obtain ⟨m, rfl⟩ := Nat.exists_eq_add_of_lt hn
  simp [decRun, decStep, hp]

/-- D_ERR responds with its status. -/
theorem decRun_err {e : Status} (hp : h.decPhase = .err e) (hn : 0 < n) :
    decRun cfg buf rx n h = some (Hidden.cleared, .error e) := by
  obtain ⟨m, rfl⟩ := Nat.exists_eq_add_of_lt hn
  simp [decRun, decStep, hp]

/-- A phase that fails enters D_ERR, which responds with the status. -/
theorem decRun_fail {e : Status} (hs : decStep cfg buf rx h = decFail e h') (hn : 1 < n) :
    decRun cfg buf rx n h = some (Hidden.cleared, .error e) := by
  rw [decRun_go hs (by omega), decRun_err rfl (by omega)]

/-- From D_BODY: the body is unpacked and the frame answered. -/
theorem decRun_body (hp : h.decPhase = .body) (hn : 1 < n) :
    decRun cfg buf rx n h = some (Hidden.cleared,
      (parseBody (bodyRegion buf (latchedHeader h))).map fun b =>
        decodedOf (latchedHeader h) b h.restartCounter h.msgCounter) := by
  cases hb : parseBody (bodyRegion buf (latchedHeader h)) with
  | error e => exact decRun_fail (by simp only [decStep, hp, decBody, hb]; rfl) hn
  | ok b =>
    rw [decRun_go (by simp only [decStep, hp, decBody, hb]; rfl) (by omega), decRun_done rfl (by omega)]
    rfl

/-- From D_UNPAD: the plaintext is unpadded and the frame answered. -/
theorem decRun_unpad (hp : h.decPhase = .unpad) (hn : 1 < n) :
    decRun cfg buf rx n h = some (Hidden.cleared,
      (openedBody h.bodyLen.toNat h.pt).map fun b =>
        decodedOf (latchedHeader h) b h.restartCounter h.msgCounter) := by
  cases hb : openedBody h.bodyLen.toNat h.pt with
  | error e => exact decRun_fail (by simp only [decStep, hp, decUnpad, hb]; rfl) hn
  | ok b =>
    rw [decRun_go (by simp only [decStep, hp, decUnpad, hb]; rfl) (by omega), decRun_done rfl (by omega)]
    rfl

/-- From D_CRC: what is left of `F[0..L)` is folded, and the whitened value is compared with `F[L]` before the body. -/
theorem decRun_crc (hp : h.decPhase = .crc) (hbuf : h.len.toNat ≤ buf.length) (hn : h.len.toNat - h.idx + 2 < n) :
    decRun cfg buf rx n h = some (Hidden.cleared,
      if whiten (crc7Fold h.acc (memRead buf h.idx (h.len.toNat - h.idx))) ≠ byteAt buf h.len.toNat then
        .error .checksumMismatch
      else (parseBody (bodyRegion buf (latchedHeader h))).map fun b =>
        decodedOf (latchedHeader h) b h.restartCounter h.msgCounter) := by
  induction hk : h.len.toNat - h.idx generalizing h n with
  | zero =>
    have hend : ¬ h.idx < h.len.toNat := by omega
    have hnil : crc7Fold h.acc (memRead buf h.idx 0) = h.acc := by simp [memRead, crc7Fold]
    rw [hnil]
    by_cases hcrc : whiten h.acc ≠ byteAt buf h.len.toNat
    · rw [if_pos hcrc]
      exact decRun_fail (by simp only [decStep, hp, decCrc, if_neg hend, if_pos hcrc]; rfl) (by omega)
    · rw [if_neg hcrc, decRun_go (by simp only [decStep, hp, decCrc, if_neg hend, if_neg hcrc]; rfl) (by omega)]
      exact decRun_body rfl (by omega)
  | succ k ih =>
    rw [decRun_go (by simp only [decStep, hp, decCrc, if_pos (show h.idx < h.len.toNat by omega)]; rfl) (by omega),
      memRead_succ (by omega)]
    exact ih rfl hbuf (by simp only; omega) (by simp only; omega)

/-- From D_CRC with a fresh accumulator: the insecure path of `DecodeFrame` (R197). -/
theorem decRun_insecure (hp : h.decPhase = .crc) (hh : latchedHeader h = headerAt buf) (hidx : h.idx = 0)
    (hacc : h.acc = Params.crcInit) (hrc : h.restartCounter = 0) (hmc : h.msgCounter = 0)
    (hbuf : (byteAt buf 0).toNat + 1 ≤ buf.length) (hsec : (headerAt buf).secure = false)
    (hfit : expectedLength (headerAt buf) = (byteAt buf 0).toNat) (hn : 257 < n) :
    decRun cfg buf rx n h = some (Hidden.cleared, decodeInsecure (frameAt buf) (headerAt buf)) := by
  have hlen : h.len = byteAt buf 0 := congrArg Header.len hh
  have hbyte := byte_toNat_lt (byteAt buf 0)
  have hregion : bodyRegion (frameAt buf) (headerAt buf) = bodyRegion buf (headerAt buf) := by
    apply memRead_memRead
    simp [expectedLength, trailerLen, hsec, Params.insecureTrailer] at hfit
    omega
  have hcrc : frameCrc (frameAt buf) 0 (byteAt buf 0).toNat =
      .ok (whiten (crc7Fold Params.crcInit (memRead buf 0 (byteAt buf 0).toNat))) := by
    have hread : memRead (frameAt buf) 0 (byteAt buf 0).toNat = memRead buf 0 (byteAt buf 0).toNat :=
      memRead_memRead (by omega)
    rw [frameCrc, if_neg (by rw [frameAt_length hbuf]; omega), hread]
  have hlast : byteAt (frameAt buf) (byteAt buf 0).toNat = byteAt buf (byteAt buf 0).toNat := byteAt_memRead (by omega)
  rw [decRun_crc hp (by rw [hlen]; omega) (by rw [hlen]; omega)]
  simp only [hh, hidx, hacc, hrc, hmc, hlen, Nat.sub_zero]
  simp only [decodeInsecure, headerAt_len, hcrc, hlast, hregion]
  cases parseBody (bodyRegion buf (headerAt buf)) <;> rfl

/-- From D_OPEN, with the trailer `t` latched: what opens is unpadded (R200 to R202). -/
theorem decRun_opens {hd : Header} {t : Trailer} {aad : Bytes} (hp : h.decPhase = .opens) (hh : latchedHeader h = hd)
    (hrc : h.restartCounter = t.restartCounter) (hmc : h.msgCounter = t.msgCounter) (htag : h.tag = t.tag)
    (haad : frameAad cfg buf hd.id.length = .ok aad) (hn : 2 < n) :
    decRun cfg buf rx n h = some (Hidden.cleared,
      (openFrame cfg rx hd.id aad (bodyRegion buf hd) t).elim (.error .authenticationFailure) fun pt =>
        (openedBody hd.bodyLen.toNat pt).map fun b => decodedOf hd b t.restartCounter t.msgCounter) := by
  subst hh
  have hcall : openFrame cfg rx h.id aad (bodyRegion buf (latchedHeader h)) { t with alg := Params.algAes128Gcm } =
      openFrame cfg rx (latchedHeader h).id aad (bodyRegion buf (latchedHeader h)) t := rfl
  have haad' : frameAad cfg buf h.id.length = .ok aad := haad
  cases hopen : openFrame cfg rx (latchedHeader h).id aad (bodyRegion buf (latchedHeader h)) t with
  | none => exact decRun_fail (by simp only [decStep, hp, decOpen, haad', hrc, hmc, htag, hcall, hopen]; rfl) (by omega)
  | some pt =>
    rw [decRun_go (by simp only [decStep, hp, decOpen, haad', hrc, hmc, htag, hcall, hopen]; rfl) (by omega),
      decRun_unpad rfl (by omega)]
    rfl

/-- From D_TRL: the secure path of `DecodeFrame` (R198 to R203). -/
theorem decRun_secure (hp : h.decPhase = .trl) (hh : latchedHeader h = headerAt buf)
    (hbuf : (byteAt buf 0).toNat + 1 ≤ buf.length) (hsec : (headerAt buf).secure = true)
    (hfit : expectedLength (headerAt buf) = (byteAt buf 0).toNat) (hn : 3 < n) :
    decRun cfg buf rx n h = some (Hidden.cleared, decodeSecure cfg (frameAt buf) (headerAt buf) rx) := by
  simp only [expectedLength, trailerLen, hsec, if_true, Params.secureTrailer] at hfit
  have hregion : bodyRegion (frameAt buf) (headerAt buf) = bodyRegion buf (headerAt buf) := memRead_memRead (by omega)
  have htrailer : trailerOf (frameAt buf) (headerAt buf) = trailerOf buf (headerAt buf) :=
    congrArg parseTrailer (memRead_memRead (by simp only [Params.secureTrailer]; omega))
  have haad : frameAad cfg (frameAt buf) (headerAt buf).id.length = frameAad cfg buf (headerAt buf).id.length :=
    frameAad_memRead hbuf (by omega)
  have hid : h.id = (headerAt buf).id := congrArg Header.id hh
  simp only [decodeSecure, hregion, htrailer, haad]
  by_cases halg : (trailerOf buf (headerAt buf)).alg ≠ Params.algAes128Gcm
  · rw [if_pos halg]
    exact decRun_fail (by simp only [decStep, hp, decTrl, hh, if_pos halg]; rfl) (by omega)
  · rw [if_neg halg, decRun_go (by simp only [decStep, hp, decTrl, hh, if_neg halg]; rfl) (by omega)]
    cases ha : frameAad cfg buf (headerAt buf).id.length with
    | error e => exact decRun_fail (by simp only [decStep, decOpen, hid, ha]; rfl) (by omega)
    | ok aad =>
      refine (decRun_opens (t := trailerOf buf (headerAt buf)) rfl (by exact hh) rfl rfl rfl ha (by omega)).trans ?_
      cases hopen : openFrame cfg rx (headerAt buf).id aad (bodyRegion buf (headerAt buf)) (trailerOf buf (headerAt buf)) with
      | none => simp [hopen]
      | some pt => cases hb : openedBody (headerAt buf).bodyLen.toNat pt <;> simp [hopen, hb, Except.map]

/-- The latches that D_LEN and D_HDR fill, and the counters of a frame without a trailer. -/
def DecLatched (buf : Bytes) (h : Hidden) : Prop :=
  h.len = byteAt buf 0 ∧ h.secure = topBit (byteAt buf 1) ∧ h.frameType = low7 (byteAt buf 1) ∧
    h.seqNo = seqOf (byteAt buf 2) ∧ h.idLen = idLenOf (byteAt buf 2) ∧ h.restartCounter = 0 ∧ h.msgCounter = 0

/-- D_BLEN on the header that its latches then hold: the checks of R194 to R196 in their order. -/
theorem decBlen_eq {hd : Header} (hh : latchedHeader { h with bodyLen := byteAt buf (3 + h.idLen.toNat) } = hd) :
    decBlen buf h =
      if badBodyLen hd.secure hd.bodyLen.toNat then
        decFail .malformedHeader { h with bodyLen := byteAt buf (3 + h.idLen.toNat) }
      else if hd.len.toNat < expectedLength hd then
        decFail .truncated { h with bodyLen := byteAt buf (3 + h.idLen.toNat) }
      else if expectedLength hd < hd.len.toNat then
        decFail .malformedHeader { h with bodyLen := byteAt buf (3 + h.idLen.toNat) }
      else .go { h with
        bodyLen := byteAt buf (3 + h.idLen.toNat), decPhase := if hd.secure then .trl else .crc
        idx := 0, acc := Params.crcInit } := by
  subst hh
  rfl

/-- From D_BLEN, with the ID latched: `DecodeFrame` from the parsed header on (R194 to R196). -/
theorem decRun_blen (hp : h.decPhase = .blen) (hl : DecLatched buf h)
    (hid : h.id = memRead buf 3 (idLenOf (byteAt buf 2)).toNat) (hbuf : (byteAt buf 0).toNat + 1 ≤ buf.length)
    (hreach : 3 + (idLenOf (byteAt buf 2)).toNat ≤ (byteAt buf 0).toNat) (hn : 258 < n) :
    decRun cfg buf rx n h = some (Hidden.cleared, decodeStructure cfg (frameAt buf) rx) := by
  obtain ⟨hlen, hsec, hftype, hseq, hidLen, hrc, hmc⟩ := hl
  have hh : latchedHeader { h with bodyLen := byteAt buf (3 + h.idLen.toNat) } = headerAt buf := by
    simp only [latchedHeader, headerAt, hlen, hsec, hftype, hseq, hid, hidLen]
  have hstep : decStep cfg buf rx h = decBlen buf h := by simp only [decStep, hp]
  rw [decBlen_eq hh] at hstep
  simp only [decodeStructure, parseHeader_frameAt hbuf hreach]
  by_cases hbad : badBodyLen (headerAt buf).secure (headerAt buf).bodyLen.toNat = true
  · rw [if_pos hbad] at hstep ⊢
    exact decRun_fail hstep (by omega)
  · rw [if_neg hbad] at hstep ⊢
    by_cases hshort : (headerAt buf).len.toNat < expectedLength (headerAt buf)
    · rw [if_pos hshort] at hstep ⊢
      exact decRun_fail hstep (by omega)
    · rw [if_neg hshort] at hstep ⊢
      by_cases hlong : expectedLength (headerAt buf) < (headerAt buf).len.toNat
      · rw [if_pos hlong] at hstep ⊢
        exact decRun_fail hstep (by omega)
      · rw [if_neg hlong] at hstep ⊢
        have hfit : expectedLength (headerAt buf) = (byteAt buf 0).toNat := by
          rw [headerAt_len] at hshort hlong
          omega
        rw [decRun_go hstep (by omega)]
        cases hs : (headerAt buf).secure with
        | true => exact decRun_secure rfl hh hbuf hs hfit (by omega)
        | false => exact decRun_insecure rfl hh rfl rfl hrc hmc hbuf hs hfit (by omega)

/-- From D_ID with `j` ID bytes latched: the ID is completed, then `DecodeFrame` from the parsed header on. -/
theorem decRun_id {j : Nat} (hp : h.decPhase = .id) (hl : DecLatched buf h) (hidx : h.idx = 3 + j)
    (hid : h.id = memRead buf 3 j) (hj : j ≤ (idLenOf (byteAt buf 2)).toNat)
    (hbuf : (byteAt buf 0).toNat + 1 ≤ buf.length)
    (hreach : 3 + (idLenOf (byteAt buf 2)).toNat ≤ (byteAt buf 0).toNat)
    (hn : (idLenOf (byteAt buf 2)).toNat - j + 259 < n) :
    decRun cfg buf rx n h = some (Hidden.cleared, decodeStructure cfg (frameAt buf) rx) := by
  induction hk : (idLenOf (byteAt buf 2)).toNat - j generalizing h n j with
  | zero =>
    have ⟨_, _, _, _, hidLen, _⟩ := hl
    have hend : ¬ h.idx < 3 + h.idLen.toNat := by
      rw [hidx, hidLen]
      omega
    have hall : j = (idLenOf (byteAt buf 2)).toNat := by omega
    rw [decRun_go (by simp only [decStep, hp, decId, if_neg hend]; rfl) (by omega)]
    exact decRun_blen rfl hl (hall ▸ hid) hbuf hreach (by omega)
  | succ k ih =>
    have ⟨_, _, _, _, hidLen, _⟩ := hl
    have hmore : h.idx < 3 + h.idLen.toNat := by
      rw [hidx, hidLen]
      omega
    have hid' : h.id ++ [byteAt buf h.idx] = memRead buf 3 (j + 1) := by
      rw [hid, hidx, memRead_concat (by omega)]
    rw [decRun_go (by simp only [decStep, hp, decId, if_pos hmore]; rfl) (by omega)]
    exact ih rfl (by exact hl) (by simp only [hidx]; omega) hid' (by omega) (by omega) (by omega)

/-- From D_HDR: `DecodeFrame` from the frame on (R192). -/
theorem decRun_hdr (hp : h.decPhase = .hdr) (hlen : h.len = byteAt buf 0) (hid : h.id = [])
    (hrc : h.restartCounter = 0) (hmc : h.msgCounter = 0) (h2 : 2 ≤ (byteAt buf 0).toNat)
    (hbuf : (byteAt buf 0).toNat + 1 ≤ buf.length) (hn : 276 < n) :
    decRun cfg buf rx n h = some (Hidden.cleared, decodeStructure cfg (frameAt buf) rx) := by
  have hidLen : (idLenOf (byteAt buf 2)).toNat < 16 := (idLenOf (byteAt buf 2)).isLt
  by_cases hreach : (byteAt buf 0).toNat < 3 + (idLenOf (byteAt buf 2)).toNat
  · have hreach' : h.len.toNat < 3 + (idLenOf (byteAt buf 2)).toNat := hlen ▸ hreach
    rw [decRun_fail (by simp only [decStep, hp, decHdr, if_pos hreach']; rfl) (by omega), decodeStructure,
      parseHeader_frameAt_short hbuf h2 hreach]
  · have hreach' : ¬ h.len.toNat < 3 + (idLenOf (byteAt buf 2)).toNat := hlen ▸ hreach
    rw [decRun_go (by simp only [decStep, hp, decHdr, if_neg hreach']; rfl) (by omega)]
    exact decRun_id (j := 0) rfl ⟨hlen, rfl, rfl, rfl, rfl, hrc, hmc⟩ rfl (by simpa [memRead] using hid) (by omega) hbuf
      (by omega) (by omega)

/-- From D_IDLE: `DecodeFrame` (R190, R204). -/
theorem decRun_idle (hp : h.decPhase = .idle) (hn : 280 < n) :
    decRun cfg buf rx n h = some (Hidden.cleared, decodeFrame cfg buf rx) := by
  rw [decRun_go (by simp only [decStep, hp]; rfl) (by omega)]
  simp only [decodeFrame]
  by_cases hempty : buf.length < 1
  · rw [if_pos hempty]
    exact decRun_fail (by simp only [decStep, decIdle, decLen, if_pos hempty]; rfl) (by omega)
  rw [if_neg hempty]
  by_cases hshort : (byteAt buf 0).toNat < 2 ∨ buf.length < 3
  · rw [if_pos hshort]
    exact decRun_fail (by simp only [decStep, decIdle, decLen, if_neg hempty, if_pos hshort]; rfl) (by omega)
  rw [if_neg hshort, decRun_go (by simp only [decStep, decIdle, decLen, if_neg hempty, if_neg hshort]; rfl) (by omega)]
  by_cases hpre : (topBit (byteAt buf 1) && decide ((idLenOf (byteAt buf 2)).toNat < Params.minSecureIdLen)) = true
  · rw [if_pos hpre]
    exact decRun_fail (by simp only [decStep, decPre, if_pos hpre]; rfl) (by omega)
  rw [if_neg hpre, decRun_go (by simp only [decStep, decPre, if_neg hpre]; rfl) (by omega)]
  by_cases hbound : buf.length < (byteAt buf 0).toNat + 1
  · rw [if_pos hbound]
    exact decRun_fail (by simp only [decStep, decBound, if_pos hbound]; rfl) (by omega)
  rw [if_neg hbound, decRun_go (by simp only [decStep, decBound, if_neg hbound]; rfl) (by omega)]
  exact decRun_hdr rfl rfl rfl rfl rfl (by omega) (by omega) (by omega)

end DecoderRun

/-- Settles O52: a run from D_IDLE with fuel for every ID byte and every CRC byte of the longest frame. -/
theorem decoderStateMachineRefinesDecodeFrame : Obligations.DecoderStateMachineRefinesDecodeFrame := by
  unfold Obligations.DecoderStateMachineRefinesDecodeFrame
  intro cfg buf rx h
  exact decRun_idle rfl (by omega)
end Machine
end Sys2Proof

namespace Sys2Proof.Machine

/-! ## The decoder's latches stay in the ranges of R27 -/

section DecoderRange

variable {cfg : Config} {buf : Bytes} {rx : RxContext} {h h' : Hidden} {n : Nat}

/-- What a phase relies on: past D_BOUND the frame is in the buffer, and past D_BLEN the body region of a secure frame is
empty or one block. A running machine has left D_IDLE. -/
def DecProgress (buf : Bytes) (h : Hidden) : Prop :=
  match h.decPhase with
  | .idle => False
  | .hdr | .id | .blen => h.len.toNat + 1 ≤ buf.length
  | .trl | .opens =>
    (bodyRegion buf (latchedHeader h)).length = 0 ∨ (bodyRegion buf (latchedHeader h)).length = Params.secureBlock
  | .len | .pre | .bound | .crc | .body | .unpad | .done | .err _ => True

/-- What holds of the latches between the phase steps of one FRAME.DEC. -/
def DecInv (buf : Bytes) (h : Hidden) : Prop := DecProgress buf h ∧ hiddenInRange h

/-- D_IDLE starts every element afresh. -/
theorem decInv_decIdle : DecInv buf (decIdle h) := ⟨trivial, by simp [hiddenInRange, decIdle]⟩

/-- Entering D_ERR changes the phase alone. -/
theorem decInv_decFail {e : Status} (hr : hiddenInRange h) (hs : decFail e h = .go h') : DecInv buf h' := by
  cases hs
  exact ⟨trivial, hr⟩

/-! One lemma per phase: a phase step that goes on keeps the invariant. -/

theorem decInv_decLen (hr : hiddenInRange h) (hs : decLen buf h = .go h') : DecInv buf h' := by
  unfold decLen at hs
  split at hs
  · exact decInv_decFail hr hs
  · split at hs
    · exact decInv_decFail (by exact hr) hs
    · cases hs
      exact ⟨trivial, hr⟩

theorem decInv_decPre (hr : hiddenInRange h) (hs : decPre buf h = .go h') : DecInv buf h' := by
  unfold decPre at hs
  split at hs
  · exact decInv_decFail hr hs
  · cases hs
    exact ⟨trivial, hr⟩

theorem decInv_decBound (hr : hiddenInRange h) (hs : decBound buf h = .go h') : DecInv buf h' := by
  unfold decBound at hs
  split at hs
  · exact decInv_decFail hr hs
  · cases hs
    exact ⟨Nat.le_of_not_lt ‹_›, hr⟩

theorem decInv_decHdr (hr : hiddenInRange h) (hbuf : h.len.toNat + 1 ≤ buf.length) (hs : decHdr buf h = .go h') :
    DecInv buf h' := by
  simp only [decHdr] at hs
  split at hs
  · exact decInv_decFail (by exact hr) hs
  · obtain ⟨-, hrest⟩ := hr
    cases hs
    exact ⟨hbuf, by simp, hrest⟩

theorem decInv_decId (hr : hiddenInRange h) (hp : h.decPhase = .id) (hbuf : h.len.toNat + 1 ≤ buf.length)
    (hs : decId buf h = .go h') : DecInv buf h' := by
  unfold decId at hs
  split at hs
  · obtain ⟨-, hrest⟩ := hr
    have hidLen : h.idLen.toNat < 16 := h.idLen.isLt
    cases hs
    exact ⟨by simpa [DecProgress, hp] using hbuf, by simp only; omega, hrest⟩
  · cases hs
    exact ⟨hbuf, hr⟩

/-- A secure frame that fits its length byte and has a legal bodyLen has an empty body region or one block. -/
theorem bodyRegion_length_secure {hd : Header} (hsec : hd.secure = true) (hbuf : hd.len.toNat + 1 ≤ buf.length)
    (hbad : badBodyLen hd.secure hd.bodyLen.toNat = false) (hfit : expectedLength hd ≤ hd.len.toNat) :
    (bodyRegion buf hd).length = 0 ∨ (bodyRegion buf hd).length = Params.secureBlock := by
  have hlen : (bodyRegion buf hd).length = hd.bodyLen.toNat := by
    simp only [expectedLength, trailerLen, hsec, if_true, Params.secureTrailer] at hfit
    simp only [bodyRegion, memRead_length]
    omega
  rw [hlen]
  simp only [badBodyLen, hsec, if_true, Bool.and_eq_false_iff, bne_eq_false_iff_eq] at hbad
  exact hbad

theorem decInv_decBlen (hr : hiddenInRange h) (hbuf : h.len.toNat + 1 ≤ buf.length) (hs : decBlen buf h = .go h') :
    DecInv buf h' := by
  rw [decBlen_eq rfl] at hs
  split at hs
  · exact decInv_decFail (by exact hr) hs
  · split at hs
    · exact decInv_decFail (by exact hr) hs
    · split at hs
      · exact decInv_decFail (by exact hr) hs
      · rename_i hbad hshort _
        obtain ⟨-, -, hrest⟩ := hr
        cases hs
        refine ⟨?_, by simp, by simp [Params.crcInit], hrest⟩
        cases hsec : h.secure with
        | false => simp [DecProgress, latchedHeader]
        | true =>
          have hregion := bodyRegion_length_secure (hd := latchedHeader { h with bodyLen := byteAt buf (3 + h.idLen.toNat) })
            hsec hbuf (by simpa using hbad) (by omega)
          simpa [DecProgress, latchedHeader, hsec] using hregion

theorem decInv_decCrc (hr : hiddenInRange h) (hp : h.decPhase = .crc) (hs : decCrc buf h = .go h') : DecInv buf h' := by
  unfold decCrc at hs
  split at hs
  · obtain ⟨-, -, hrest⟩ := hr
    have hbyte := byte_toNat_lt h.len
    cases hs
    exact ⟨by simp [DecProgress, hp], by simp only; omega, crc7Update_bit7 _ _, hrest⟩
  · split at hs
    · exact decInv_decFail hr hs
    · cases hs
      exact ⟨trivial, hr⟩

theorem decInv_decBody (hr : hiddenInRange h) (hs : decBody buf h = .go h') : DecInv buf h' := by
  unfold decBody at hs
  split at hs
  · exact decInv_decFail hr hs
  · cases hs
    exact ⟨trivial, hr⟩

theorem decInv_decTrl (hr : hiddenInRange h) (hp : h.decPhase = .trl) (hprog : DecProgress buf h)
    (hs : decTrl buf h = .go h') : DecInv buf h' := by
  simp only [decTrl] at hs
  simp only [DecProgress, hp] at hprog
  split at hs
  · exact decInv_decFail (by exact hr) hs
  · cases hs
    exact ⟨hprog, hr⟩

/-- What opens is as long as its ciphertext, because it is what was sealed (P_OPEN_ONLY_SEALED, P_LEN). -/
theorem openFrame_length (hlen : PLen cfg) (hopen : POpenOnlySealed cfg) {id aad ct pt : Bytes} {t : Trailer}
    (h : openFrame cfg rx id aad ct t = some pt) : pt.length = ct.length := by
  have hseal := hopen _ _ _ _ _ _ h
  rw [← hlen _ _ _ pt, hseal]

/-- The one phase that calls the AEAD: the plaintext is as long as the body region. -/
theorem decInv_decOpen (hlen : PLen cfg) (hopen : POpenOnlySealed cfg) (hr : hiddenInRange h)
    (hp : h.decPhase = .opens) (hprog : DecProgress buf h) (hs : decOpen cfg buf rx h = .go h') : DecInv buf h' := by
  unfold decOpen at hs
  simp only [DecProgress, hp] at hprog
  split at hs
  · exact decInv_decFail hr hs
  · split at hs
    · exact decInv_decFail hr hs
    · rename_i pt hpt
      obtain ⟨hidx, hacc, hout, -⟩ := hr
      rw [← openFrame_length hlen hopen hpt] at hprog
      cases hs
      exact ⟨trivial, hidx, hacc, hout, hprog⟩

theorem decInv_decUnpad (hr : hiddenInRange h) (hs : decUnpad h = .go h') : DecInv buf h' := by
  unfold decUnpad at hs
  split at hs
  · exact decInv_decFail hr hs
  · cases hs
    exact ⟨trivial, hr⟩

/-- Every phase step that goes on keeps the invariant. -/
theorem decInv_decStep (hlen : PLen cfg) (hopen : POpenOnlySealed cfg) (hi : DecInv buf h)
    (hs : decStep cfg buf rx h = .go h') : DecInv buf h' := by
  obtain ⟨hprog, hr⟩ := hi
  unfold decStep at hs
  split at hs <;> rename_i hp
  case h_1 => cases hs; exact decInv_decIdle
  case h_2 => exact decInv_decLen hr hs
  case h_3 => exact decInv_decPre hr hs
  case h_4 => exact decInv_decBound hr hs
  case h_5 => exact decInv_decHdr hr (by simpa [DecProgress, hp] using hprog) hs
  case h_6 => exact decInv_decId hr hp (by simpa [DecProgress, hp] using hprog) hs
  case h_7 => exact decInv_decBlen hr (by simpa [DecProgress, hp] using hprog) hs
  case h_8 => exact decInv_decCrc hr hp hs
  case h_9 => exact decInv_decBody hr hs
  case h_10 => exact decInv_decTrl hr hp hprog hs
  case h_11 => exact decInv_decOpen hlen hopen hr hp hprog hs
  case h_12 => exact decInv_decUnpad hr hs
  case h_13 => cases hs
  case h_14 => cases hs

/-- A step that goes on is the first of a longer run. -/
theorem decAfter_go (hs : decStep cfg buf rx h = .go h') : decAfter cfg buf rx (n + 1) h = decAfter cfg buf rx n h' := by
  simp [decAfter, hs]

/-- The invariant holds as long as the machine runs. -/
theorem decInv_decAfter (hlen : PLen cfg) (hopen : POpenOnlySealed cfg) (hi : DecInv buf h)
    (ha : decAfter cfg buf rx n h = some h') : DecInv buf h' := by
  induction n generalizing h with
  | zero => cases ha; exact hi
  | succ n ih =>
    cases hs : decStep cfg buf rx h with
    | go u => exact ih (decInv_decStep hlen hopen hi hs) (by rwa [decAfter_go hs] at ha)
    | respond u r => simp [decAfter, hs] at ha

end DecoderRange

/-- Settles O53: D_IDLE establishes the invariant, every later phase step keeps it, and it holds the ranges. -/
theorem decoderLatchesStayInRange : Obligations.DecoderLatchesStayInRange := by
  unfold Obligations.DecoderLatchesStayInRange
  intro cfg buf rx h h' n hlen hopen hn ha
  obtain ⟨m, rfl⟩ := Nat.exists_eq_succ_of_ne_zero hn.ne'
  have hidle : decStep cfg buf rx (decStart h) = .go (decIdle (decStart h)) := rfl
  rw [decAfter_go hidle] at ha
  obtain ⟨-, hr⟩ := decInv_decAfter hlen hopen decInv_decIdle ha
  exact hr

/-! ## No command leaves residue in the hidden state (R27, R165) -/

/-- FRAME.ENC leaves the latches cleared, whatever they held: its state machine responds before its fuel ends. -/
theorem encHidden_eq_cleared (cfg : Config) (f : Frame) (tx : TxContext) (h : Hidden) :
    encHidden cfg f tx h = Hidden.cleared := by
  simp only [encHidden, encRun_idle (h := encStart h) rfl (show 262 < Params.fsmSteps by decide)]

/-- FRAME.DEC leaves the latches cleared, whatever they held: its state machine responds before its fuel ends. -/
theorem decHidden_eq_cleared (cfg : Config) (buf : Bytes) (rx : RxContext) (h : Hidden) :
    decHidden cfg buf rx h = Hidden.cleared := by
  simp only [decHidden, decRun_idle (h := decStart h) rfl (show 280 < Params.fsmSteps by decide)]

/-- No command puts anything into cleared latches: FRAME.ENC and FRAME.DEC clear them, the others leave them alone. -/
theorem hiddenAfter_cleared (i : Instr) : hiddenAfter i Hidden.cleared = Hidden.cleared := by
  cases i
  case frameEnc => exact encHidden_eq_cleared _ _ _ _
  case frameDec => exact decHidden_eq_cleared _ _ _ _
  all_goals rfl

/-- Accepting a request leaves the hidden state alone. -/
theorem accept_hidden (s : State) : (accept s).hidden = s.hidden := by
  rcases accept_cases s with h | ⟨k, r, n, -, h⟩ <;> rw [h]

/-- Serving a request keeps the hidden state clear. -/
theorem serve_keeps_noResidue {r : Request} {s t : State} (hs : noResidue s) (hstep : serve r s = .next t) :
    noResidue t := by
  unfold noResidue at hs ⊢
  cases hd : decode r.bytes with
  | error e =>
    simp only [serve, hd, complete_eq] at hstep
    cases hstep
    exact hs
  | ok i =>
    simp only [serve, hd, exec_eq, hs, hiddenAfter_cleared] at hstep
    cases hstep
    rfl

/-- Settles O57: an acceptance leaves the hidden state alone, and serving a request keeps it clear. -/
theorem everyStepKeepsNoResidue : Obligations.EveryStepKeepsNoResidue := by
  unfold Obligations.EveryStepKeepsNoResidue
  intro s t hs hstep
  cases hp : s.phase with
  | idle =>
    rw [step_idle hp] at hstep
    cases hstep
    exact (accept_hidden s).trans hs
  | busy r => exact serve_keeps_noResidue hs (step_busy hp ▸ hstep)

end Sys2Proof.Machine

namespace Sys2Proof

/-! ## Fields on the wire: what a field's bytes are, and that they are told back (R80, R81, R82) -/

/-- The values that a field of this kind can carry (R80): only the length matters. -/
@[simp] def FieldFits : FieldKind → Bytes → Prop
  | .u8, v => v.length = 1
  | .u16, v => v.length = 2
  | .u24, v => v.length = 3
  | .bool, v => v.length = 1
  | .fixed n, v => v.length = n
  | .vb8, v => v.length < 256
  | .vb16, v => v.length < 65536

/-- The bytes that carry a value in a field of this kind: after a length where R80 has one. -/
@[simp] def fieldBytes : FieldKind → Bytes → Bytes
  | .vb8, v => vb8 v
  | .vb16, v => vb16 v
  | _, v => v

/-- Values in their fields, with nothing between them (R79). -/
def fieldsBytes (ks : List FieldKind) (vs : List Bytes) : Bytes := (List.zipWith fieldBytes ks vs).flatten

@[simp] theorem fieldsBytes_nil (vs : List Bytes) : fieldsBytes [] vs = [] := rfl
@[simp] theorem fieldsBytes_cons (k : FieldKind) (ks : List FieldKind) (v : Bytes) (vs : List Bytes) :
    fieldsBytes (k :: ks) (v :: vs) = fieldBytes k v ++ fieldsBytes ks vs := rfl

/-- A two-byte string is the big-endian form of its value. -/
theorem be16_fromBe16 {v : Bytes} (h : v.length = 2) : be16 (fromBe16 v) = v := by
  match v, h with
  | [hi, lo], _ =>
    have hhi : (hi ++ lo).extractLsb' 8 8 = hi := by rw [BitVec.extractLsb'_append_eq_left]
    have hlo : (hi ++ lo).extractLsb' 0 8 = lo := by rw [BitVec.extractLsb'_append_eq_right]
    simp only [be16, fromBe16]
    exact congrArg₂ (fun a b => [a, b]) hhi hlo

/-- A three-byte string is the big-endian form of its value. -/
theorem be24_fromBe24 {v : Bytes} (h : v.length = 3) : be24 (fromBe24 v) = v := by
  match v, h with
  | [hi, mid, lo], _ =>
    have hhi : (hi ++ mid ++ lo).extractLsb' 16 8 = hi := by
      rw [BitVec.extractLsb'_append_eq_of_le (by omega), BitVec.extractLsb'_append_eq_left]
    have hmid : (hi ++ mid ++ lo).extractLsb' 8 8 = mid := by
      rw [BitVec.extractLsb'_append_eq_of_le (by omega), BitVec.extractLsb'_append_eq_right]
    have hlo : (hi ++ mid ++ lo).extractLsb' 0 8 = lo := by rw [BitVec.extractLsb'_append_eq_right]
    simp only [be24, fromBe24]
    rw [hhi, hmid, hlo]

/-- Two bytes that give a string's length, and then the string, are its `vb16` field. -/
theorem vb16_eq_of_length {hi lo : Byte} {v : Bytes} (h : v.length = (fromBe16 [hi, lo]).toNat) :
    vb16 v = hi :: lo :: v := by
  rw [vb16, h, BitVec.ofNat_toNat, BitVec.setWidth_eq, be16_fromBe16 rfl]
  rfl

/-- Taking bytes from the front splits the string there. -/
theorem takeBytes_some {n : Nat} {r v r' : Bytes} (h : takeBytes n r = some (v, r')) : v.length = n ∧ r = v ++ r' := by
  unfold takeBytes at h
  split at h
  · cases h
  · cases h
    exact ⟨by simp; omega, (List.take_append_drop n r).symm⟩

/-- A field is taken back from the front of a string that begins with it. -/
theorem takeField_fieldBytes {k : FieldKind} {v : Bytes} (h : FieldFits k v) (r : Bytes) :
    takeField k (fieldBytes k v ++ r) = some (v, r) := by
  cases k with
  | vb8 => exact takeField_vb8 v r h
  | vb16 => exact takeField_vb16 v r h
  | u8 | u16 | u24 | bool | fixed => exact takeBytes_append _ v r h

/-- What is taken as a field is a value of its kind, and the string begins with that field. -/
theorem takeField_some {k : FieldKind} {r v r' : Bytes} (h : takeField k r = some (v, r')) :
    FieldFits k v ∧ r = fieldBytes k v ++ r' := by
  cases k with
  | u8 | u16 | u24 | bool | fixed => exact takeBytes_some h
  | vb8 =>
    match r with
    | [] => cases h
    | k :: r =>
      obtain ⟨hlen, rfl⟩ := takeBytes_some h
      have hlead : lenByte v.length = k := by simp [lenByte, hlen]
      have hshort : v.length < 256 := hlen ▸ k.isLt
      exact ⟨hshort, by simp [vb8, hlead]⟩
  | vb16 =>
    match r with
    | [] | [_] => cases h
    | hi :: lo :: r =>
      obtain ⟨hlen, rfl⟩ := takeBytes_some h
      have hshort : v.length < 65536 := hlen ▸ (fromBe16 [hi, lo]).isLt
      exact ⟨hshort, by simp [vb16_eq_of_length hlen]⟩

/-- The field loop takes back the values that a string's fields carry. -/
theorem takeFields_fieldsBytes {ks : List FieldKind} {vs : List Bytes} (h : List.Forall₂ FieldFits ks vs) (r : Bytes) :
    takeFields ks (fieldsBytes ks vs ++ r) = some (vs, r) := by
  induction h with
  | nil => rfl
  | cons hfit _ ih =>
    rw [fieldsBytes_cons, List.append_assoc]
    exact takeFields_cons (takeField_fieldBytes hfit _) ih

/-- What the field loop takes are values of their kinds, and the string begins with their fields. -/
theorem takeFields_some {ks : List FieldKind} {r r' : Bytes} {vs : List Bytes} (h : takeFields ks r = some (vs, r')) :
    List.Forall₂ FieldFits ks vs ∧ r = fieldsBytes ks vs ++ r' := by
  induction ks generalizing r vs with
  | nil =>
    cases h
    exact ⟨.nil, rfl⟩
  | cons k ks ih =>
    simp only [takeFields] at h
    split at h
    · cases h
    · split at h
      · cases h
      · rename_i hfield _ _ _ hfields
        cases h
        obtain ⟨hfit, rfl⟩ := takeField_some hfield
        obtain ⟨hfits, rfl⟩ := ih hfields
        exact ⟨.cons hfit hfits, by simp⟩

/-- The size of a field is told from its kind and its length bytes, whatever follows it. -/
theorem fieldSize_fieldBytes {k : FieldKind} {v : Bytes} (h : FieldFits k v) (r : Bytes) :
    fieldSize k (fieldBytes k v ++ r) = some (fieldBytes k v).length := by
  cases k with
  | u8 | u16 | u24 | bool | fixed => exact congrArg some h.symm
  | vb8 => simp [vb8, fieldSize, lenByte_toNat _ h, Nat.add_comm]
  | vb16 =>
    have hlead := fromBe16_be16 (BitVec.ofNat 16 v.length)
    simp only [be16] at hlead
    have hlen : v.length % 65536 = v.length := Nat.mod_eq_of_lt h
    simp [vb16, be16, fieldSize, hlead, hlen]
    omega

/-- The size of a list of fields is told from their kinds and length bytes, whatever follows them. -/
theorem fieldsSize_fieldsBytes {ks : List FieldKind} {vs : List Bytes} (h : List.Forall₂ FieldFits ks vs) (r : Bytes) :
    fieldsSize ks (fieldsBytes ks vs ++ r) = some (fieldsBytes ks vs).length := by
  induction h with
  | nil => rfl
  | cons hfit _ ih =>
    rw [fieldsBytes_cons, List.append_assoc, fieldsSize, fieldSize_fieldBytes hfit]
    simp [ih]

/-! ## The operands of a command as the values of its fields (R84, R86) -/

/-- The kinds of an opcode's operand fields. -/
abbrev requestKinds (o : Opcode) : List FieldKind := (requestFormat o).map Field.kind

@[simp] theorem boolField_kind : boolField.kind = .bool := rfl
@[simp] theorem ftypeField_kind : ftypeField.kind = .u8 := rfl
@[simp] theorem seqField_kind : seqField.kind = .u8 := rfl

/-- `valve` and `ftype` have one range (R86). -/
@[simp] theorem valveField_eq_ftypeField : valveField = ftypeField := rfl

/-- The values that a command's operands have in its request, in the order of R84. -/
def operandFields : Instr → List Bytes
  | .crc7Upd acc d => [[acc], [d]]
  | .crc7Frame buf off len => [buf, be16 off, be16 len]
  | .hdrPack len sec ftype seq id blen => [[len], [boolByte sec], [ftype.setWidth 8], [seq.setWidth 8], id, [blen]]
  | .hdrParse buf => [buf]
  | .bodyPack cfh valve flags stats => [[boolByte cfh], [valve.setWidth 8], [flags], stats]
  | .bodyParse body => [body]
  | .trlPack rc mc tag alg => [be24 rc, be24 mc, tag, [alg]]
  | .trlParse trl => [trl]
  | .nonceBuild id4 pre rc mc => [id4, pre, be24 rc, be24 mc]
  | .aadBuild buf hbc => [buf, be16 hbc]
  | .padBody cfh valve flags stats dbl => [[boolByte cfh], [valve.setWidth 8], [flags], stats, [dbl]]
  | .padUnpad pt => [pt]
  | .frameEnc sec ftype seq id hasBody cfh valve flags stats key pre rc mc =>
    [[boolByte sec], [ftype.setWidth 8], [seq.setWidth 8], id, [boolByte hasBody], [boolByte cfh], [valve.setWidth 8],
      [flags], stats, key, pre, be24 rc, be24 mc]
  | .frameDec buf key pre => [buf, key, pre]

/-- The operand part of a request is the fields of the command's operands. -/
theorem encodeOperands_eq (i : Instr) : encodeOperands i = fieldsBytes (requestKinds i.opcode) (operandFields i) := by
  cases i <;> simp [encodeOperands, operandFields, requestKinds, requestFormat, Instr.opcode]

/-- A command is well formed exactly when its operands fit the fields of its request. -/
theorem wf_iff_fits (i : Instr) : i.wf = true ↔ List.Forall₂ FieldFits (requestKinds i.opcode) (operandFields i) := by
  cases i <;> simp [Instr.wf, operandFields, requestKinds, requestFormat, Instr.opcode, fixedOk, vb8Ok, vb16Ok, and_assoc]

/-- The operand types keep every value in the range of R86. -/
theorem operandFields_inRange (i : Instr) : fieldsInRange (requestFormat i.opcode) (operandFields i) = true := by
  cases i <;> simp [fieldsInRange, operandFields, requestFormat, Instr.opcode]

/-- The operands of a command make the command. -/
theorem commandOf_operandFields (i : Instr) : commandOf i.opcode (operandFields i) = some i := by
  cases i <;> simp [commandOf, operandFields, Instr.opcode, fromBe16_be16, fromBe24_be24]

/-! One-byte fields that carry a narrow operand: the operand gives the byte back. -/

/-- A one-byte string is its byte. -/
theorem singleton_u8Of {v : Bytes} (h : v.length = 1) : [u8Of v] = v := by
  obtain ⟨b, rfl⟩ := List.length_eq_one_iff.mp h
  rfl

theorem singleton_boolOf {v : Bytes} (h : v.length = 1) (hr : fieldInRange boolField v = true) :
    [boolByte (boolOf v)] = v := by
  obtain ⟨b, rfl⟩ := List.length_eq_one_iff.mp h
  have hb : b.toNat = 0 ∨ b.toNat = 1 := by
    have : b.toNat ≤ 1 := by simpa [fieldInRange, boolField, byteAt] using hr
    omega
  rcases hb with hb | hb
  · obtain rfl : b = 0 := BitVec.eq_of_toNat_eq hb
    rfl
  · obtain rfl : b = 1 := BitVec.eq_of_toNat_eq hb
    rfl

theorem singleton_bits7Of {v : Bytes} (h : v.length = 1) (hr : fieldInRange ftypeField v = true) :
    [(bits7Of v).setWidth 8] = v := by
  obtain ⟨b, rfl⟩ := List.length_eq_one_iff.mp h
  have hb : b.toNat ≤ 127 := by simpa [fieldInRange, ftypeField, byteAt] using hr
  refine congrArg (fun b => [b]) (BitVec.eq_of_toNat_eq ?_)
  simp [bits7Of, byteAt]
  omega

theorem singleton_bits4Of {v : Bytes} (h : v.length = 1) (hr : fieldInRange seqField v = true) :
    [(bits4Of v).setWidth 8] = v := by
  obtain ⟨b, rfl⟩ := List.length_eq_one_iff.mp h
  have hb : b.toNat ≤ 15 := by simpa [fieldInRange, seqField, byteAt] using hr
  refine congrArg (fun b => [b]) (BitVec.eq_of_toNat_eq ?_)
  simp [bits4Of, byteAt]
  omega

/-- A command made of field values that fit and are in range has that opcode and these operands. -/
theorem commandOf_some {o : Opcode} {vs : List Bytes} {i : Instr} (h : commandOf o vs = some i)
    (hfit : List.Forall₂ FieldFits (requestKinds o) vs) (hrange : fieldsInRange (requestFormat o) vs = true) :
    i.opcode = o ∧ operandFields i = vs := by
  unfold commandOf at h
  split at h
  case h_15 => cases h
  all_goals
    cases h
    refine ⟨rfl, ?_⟩
    simp [requestKinds, requestFormat] at hfit
    simp [requestFormat, fieldsInRange] at hrange
    simp [operandFields, be16_fromBe16, be24_fromBe24, singleton_u8Of, singleton_boolOf, singleton_bits7Of,
      singleton_bits4Of, hfit, hrange]

/-! ## Requests decode and encode in one way -/

/-- The opcode map gives each opcode's own byte. -/
theorem opcodeByte_of_opcodeOf {b : Byte} {o : Opcode} (h : opcodeOf b = some o) : opcodeByte o = b := by
  simpa using List.find?_some h

/-- What the operand part of a request decodes to has its fields' values, in range and with nothing left. -/
theorem decodeOperands_eq_ok {o : Opcode} {r : Bytes} {i : Instr} (h : decodeOperands o r = .ok i) :
    ∃ vs, takeFields (requestKinds o) r = some (vs, []) ∧ fieldsInRange (requestFormat o) vs = true ∧
      commandOf o vs = some i := by
  unfold decodeOperands at h
  split at h
  · cases h
  · rename_i vs rest htake
    split at h
    · cases h
    · rename_i hrest
      obtain rfl : rest = [] := not_not.mp hrest
      split at h
      · cases h
      · rename_i hrange
        split at h
        · cases h
        · rename_i hcommand
          cases h
          exact ⟨vs, htake, by simpa using hrange, hcommand⟩

/-- Settles O9: each operand's field is taken back, in range, and the values make the command. -/
theorem decodeInvertsEncode : Obligations.DecodeInvertsEncode := by
  unfold Obligations.DecodeInvertsEncode
  intro i hwf
  have htake := takeFields_fieldsBytes ((wf_iff_fits i).mp hwf) []
  rw [List.append_nil, ← encodeOperands_eq] at htake
  simp only [encode, decode, opcodeOf_opcodeByte]
  exact decodeOperands_ok htake (operandFields_inRange i) (commandOf_operandFields i)

/-- Settles O10: the fields that were taken are the fields of the command's operands. -/
theorem encodeInvertsDecode : Obligations.EncodeInvertsDecode := by
  unfold Obligations.EncodeInvertsDecode
  intro req i h
  unfold decode at h
  split at h
  · cases h
  · split at h
    · cases h
    · rename_i hop
      obtain ⟨vs, htake, hrange, hcommand⟩ := decodeOperands_eq_ok h
      obtain ⟨hfit, rfl⟩ := takeFields_some htake
      obtain ⟨rfl, rfl⟩ := commandOf_some hcommand hfit hrange
      refine ⟨(wf_iff_fits i).mpr hfit, ?_⟩
      rw [encode, encodeOperands_eq, opcodeByte_of_opcodeOf hop, List.append_nil]

/-- Settles O11: the size of each operand field is told from its kind and its length bytes. -/
theorem requestLengthIsToldByItsPrefixes : Obligations.RequestLengthIsToldByItsPrefixes := by
  unfold Obligations.RequestLengthIsToldByItsPrefixes
  intro i rest hwf
  have hsize := fieldsSize_fieldsBytes ((wf_iff_fits i).mp hwf) rest
  rw [← encodeOperands_eq] at hsize
  simp [encode, requestSize, hsize, Nat.add_comm]

end Sys2Proof

namespace Sys2Proof

/-! ## Requests that are refused (R81, R86, R87) -/

/-- A request whose field values fit but leave the ranges of R86 is answered IllegalOperand. -/
theorem respond_out_of_range (cfg : Config) {o : Opcode} {vs : List Bytes}
    (hfit : List.Forall₂ FieldFits (requestKinds o) vs) (hrange : ¬ fieldsInRange (requestFormat o) vs = true) :
    respond cfg (opcodeByte o :: fieldsBytes (requestKinds o) vs) = [0xF1] := by
  have htake := takeFields_fieldsBytes hfit []
  rw [List.append_nil] at htake
  simp [respond, decode, decodeOperands, htake, hrange, responseBytes, statusCode]

/-- A request whose field values fit and are in range is answered by the command they make. -/
theorem respond_in_range (cfg : Config) {o : Opcode} {vs : List Bytes} {i : Instr}
    (hfit : List.Forall₂ FieldFits (requestKinds o) vs) (hrange : fieldsInRange (requestFormat o) vs = true)
    (hcommand : commandOf o vs = some i) :
    respond cfg (opcodeByte o :: fieldsBytes (requestKinds o) vs) = responseBytes (commandResult cfg i) := by
  have htake := takeFields_fieldsBytes hfit []
  rw [List.append_nil] at htake
  simp [respond, decode, decodeOperands_ok htake hrange hcommand]

/-! The range of each narrow operand, on its byte (R86). -/

theorem fieldInRange_bool_eq (b : Byte) : fieldInRange boolField [b] = decide (b.toNat ≤ 1) := rfl
theorem fieldInRange_ftype_eq (b : Byte) : fieldInRange ftypeField [b] = decide (b.toNat ≤ 0x7F) := rfl
theorem fieldInRange_seq_eq (b : Byte) : fieldInRange seqField [b] = decide (b.toNat ≤ 0x0F) := rfl

/-- The last four operands of FRAME.ENC take 24 bytes: key, pre-shared bytes and two counters. -/
theorem context_fields_of_length {tail : Bytes} (h : tail.length = 24) :
    ∃ key pre rc mc : Bytes, key.length = 16 ∧ pre.length = 2 ∧ rc.length = 3 ∧ mc.length = 3 ∧
      tail = key ++ (pre ++ (rc ++ mc)) := by
  refine ⟨tail.take 16, (tail.drop 16).take 2, ((tail.drop 16).drop 2).take 3, ((tail.drop 16).drop 2).drop 3, ?_⟩
  simp only [List.take_append_drop, List.length_take, List.length_drop, h]
  decide

/-- Settles O14: the fields fit whatever the values, so the range check alone refuses; a long `id` passes it and HDR.PACK
answers InvalidIdLength. -/
theorem outOfRangeOperandsAreIllegalOperands : Obligations.OutOfRangeOperandsAreIllegalOperands := by
  unfold Obligations.OutOfRangeOperandsAreIllegalOperands
  intro cfg len sec ftype seq hasBody cfh valve flags blen dbl id stats tail hid hstats htail
  refine ⟨fun h => ?_, fun h => ⟨?_, ?_⟩, fun h => ?_, fun hsec hftype hseq hlong => ?_⟩
  · have hrange : ¬ fieldsInRange (requestFormat .hdrPack) [[len], [sec], [ftype], [seq], id, [blen]] = true := by
      simp [requestFormat, fieldsInRange, fieldInRange_bool_eq, fieldInRange_ftype_eq, fieldInRange_seq_eq]
      omega
    simpa [requestKinds, requestFormat, opcodeByte] using
      respond_out_of_range cfg (by simp [requestKinds, requestFormat, hid]) hrange
  · have hrange : ¬ fieldsInRange (requestFormat .bodyPack) [[cfh], [valve], [flags], stats] = true := by
      simp [requestFormat, fieldsInRange, fieldInRange_bool_eq, fieldInRange_ftype_eq]
      omega
    simpa [requestKinds, requestFormat, opcodeByte] using
      respond_out_of_range cfg (by simp [requestKinds, requestFormat, hstats]) hrange
  · have hrange : ¬ fieldsInRange (requestFormat .padBody) [[cfh], [valve], [flags], stats, [dbl]] = true := by
      simp [requestFormat, fieldsInRange, fieldInRange_bool_eq, fieldInRange_ftype_eq]
      omega
    simpa [requestKinds, requestFormat, opcodeByte] using
      respond_out_of_range cfg (by simp [requestKinds, requestFormat, hstats]) hrange
  · obtain ⟨key, pre, rc, mc, hkey, hpre, hrc, hmc, rfl⟩ := context_fields_of_length htail
    have hrange : ¬ fieldsInRange (requestFormat .frameEnc) [[sec], [ftype], [seq], id, [hasBody], [cfh], [valve],
        [flags], stats, key, pre, rc, mc] = true := by
      simp [requestFormat, fieldsInRange, fieldInRange_bool_eq, fieldInRange_ftype_eq, fieldInRange_seq_eq]
      omega
    simpa [requestKinds, requestFormat, opcodeByte] using
      respond_out_of_range cfg (by simp [requestKinds, requestFormat, hid, hstats, hkey, hpre, hrc, hmc]) hrange
  · have hrange : fieldsInRange (requestFormat .hdrPack) [[len], [sec], [ftype], [seq], id, [blen]] = true := by
      simp [requestFormat, fieldsInRange, fieldInRange_bool_eq, fieldInRange_ftype_eq, fieldInRange_seq_eq]
      omega
    have hanswer := respond_in_range cfg (by simp [requestKinds, requestFormat, hid]) hrange rfl
    simpa [requestKinds, requestFormat, opcodeByte, commandResult, hdrPackResult, packHeader, hlong, responseBytes,
      statusCode] using hanswer

/-- A byte is reserved when it is no opcode's byte (R87). -/
theorem opcodeOf_eq_none_iff (b : Byte) : opcodeOf b = none ↔ ∀ o ∈ opcodes, opcodeByte o ≠ b := by simp [opcodeOf]

/-- An empty request, or one with a reserved opcode, decodes to IllegalCommand (R81, R87). -/
theorem decode_reserved {req : Bytes} (h : req = [] ∨ ∃ b rest, req = b :: rest ∧ opcodeOf b = none) :
    decode req = .error .illegalCommand := by
  obtain rfl | ⟨b, rest, rfl, hb⟩ := h
  · rfl
  · simp [decode, hb]

/-- Settles O13: the reserved bytes are those between the opcodes of R83, and their requests end at the decoder. -/
theorem reservedOpcodesAreIllegalCommands : Obligations.ReservedOpcodesAreIllegalCommands := by
  unfold Obligations.ReservedOpcodesAreIllegalCommands
  refine ⟨fun b => ?_, fun s r hs hreserved => ?_⟩
  · have hlt := byte_toNat_lt b
    rw [opcodeOf_eq_none_iff]
    simp [opcodes, opcodeByte, ← BitVec.toNat_inj]
    omega
  · exact (Machine.busyStepRunsTheDecodedCommand s r hs).2 _ (decode_reserved hreserved)

/-- Settles O15: the decoder evaluates. -/
theorem writtenOutRequestsDecode : Obligations.WrittenOutRequestsDecode := by
  unfold Obligations.WrittenOutRequestsDecode
  exact ⟨rfl, rfl, rfl, rfl, rfl, rfl, rfl⟩

/-! ## Responses (R79, R220, R222) -/

/-- Every response lays out the outcome of a command or a request-level error. -/
theorem respond_eq_responseBytes (cfg : Config) (req : Bytes) : ∃ r, respond cfg req = responseBytes r := by
  unfold respond
  split
  · exact ⟨_, rfl⟩
  · exact ⟨_, rfl⟩

/-- The status byte of a status is 0x00 or one of the ten error codes (R220). -/
theorem statusCode_mem (e : Status) :
    statusCode e = 0x00 ∨ statusCode e ∈ ([0x01, 0x02, 0x03, 0x10, 0x11, 0x12, 0x13, 0x14, 0xF0, 0xF1] : Bytes) := by
  cases e <;> decide

/-- Settles O7: a result follows 0x00, and an error is its status byte alone. -/
theorem responseIsOkWithResultOrOneErrorByte : Obligations.ResponseIsOkWithResultOrOneErrorByte := by
  unfold Obligations.ResponseIsOkWithResultOrOneErrorByte
  intro cfg req
  obtain ⟨r, hr⟩ := respond_eq_responseBytes cfg req
  rw [hr]
  cases r with
  | ok v => exact .inl ⟨resultFields v, rfl⟩
  | error e =>
    obtain h | h := statusCode_mem e
    · exact .inl ⟨[], congrArg (· :: []) h⟩
    · exact .inr ⟨_, h, rfl⟩

/-- The request of a well-formed command is answered by the command. -/
theorem respond_encode (cfg : Config) {i : Instr} (h : i.wf = true) :
    respond cfg (encode i) = responseBytes (commandResult cfg i) := by
  rw [respond, decodeInvertsEncode i h]

/-! ## CRC7.STR (R89, R258) -/

/-- The host reads the next accumulator from byte 1 of the response, which is the update (R100). -/
theorem crc7Str_cons (cfg : Config) (a b : Byte) (s : Bytes) :
    crc7Str cfg a (b :: s) =
      (.crc7Upd a b :: (crc7Str cfg (crc7Update a b) s).1, (crc7Str cfg (crc7Update a b) s).2) := by
  have hacc : byteAt (respond cfg (encode (.crc7Upd a b))) 1 = crc7Update a b := by
    rw [respond_encode cfg rfl]
    rfl
  rw [crc7Str, hacc]

/-- The value of CRC7.STR is the fold. -/
theorem crc7Str_value (cfg : Config) (a : Byte) (s : Bytes) : (crc7Str cfg a s).2 = s.foldl crc7Update a := by
  induction s generalizing a with
  | nil => rfl
  | cons b s ih => rw [crc7Str_cons, ih, List.foldl_cons]

/-- CRC7.STR issues one command a byte. -/
theorem crc7Str_length (cfg : Config) (a : Byte) (s : Bytes) : (crc7Str cfg a s).1.length = s.length := by
  induction s generalizing a with
  | nil => rfl
  | cons b s ih => rw [crc7Str_cons, List.length_cons, ih, List.length_cons]

/-- Each command of CRC7.STR carries its byte and the fold of the bytes before it. -/
theorem crc7Str_command (cfg : Config) {a b : Byte} {s : Bytes} {k : Nat} (h : s[k]? = some b) :
    (crc7Str cfg a s).1[k]? = some (.crc7Upd ((s.take k).foldl crc7Update a) b) := by
  induction s generalizing a k with
  | nil => cases h
  | cons c s ih =>
    rw [crc7Str_cons]
    cases k with
    | zero =>
      cases h
      rfl
    | succ k => exact ih h

/-- Settles O22. -/
theorem crcStrFoldsOverUpdCommands : Obligations.CrcStrFoldsOverUpdCommands := by
  unfold Obligations.CrcStrFoldsOverUpdCommands
  exact fun cfg a s => ⟨crc7Str_value cfg a s, crc7Str_length cfg a s, fun _ _ h => crc7Str_command cfg h⟩

/-! ## The result of FRAME.DEC, written by arithmetic (R80, R85) -/

/-- A Boolean's byte is its value. -/
theorem boolByte_eq_ofNat (b : Bool) : boolByte b = BitVec.ofNat 8 b.toNat := by cases b <;> rfl

/-- A length in two bytes is its quotient and remainder by 256. -/
theorem be16_ofNat (n : Nat) : be16 (BitVec.ofNat 16 n) = [BitVec.ofNat 8 (n / 256), BitVec.ofNat 8 n] := by
  have hhi : (BitVec.ofNat 16 n).extractLsb' 8 8 = BitVec.ofNat 8 (n / 256) := by
    apply BitVec.eq_of_toNat_eq
    simp [BitVec.extractLsb'_toNat, Nat.shiftRight_eq_div_pow]
    omega
  have hlo : (BitVec.ofNat 16 n).extractLsb' 0 8 = BitVec.ofNat 8 n := by
    apply BitVec.eq_of_toNat_eq
    simp [BitVec.extractLsb'_toNat]
  rw [be16, hhi, hlo]

/-- A `vb16` field by arithmetic. -/
theorem vb16_eq_ofNat (s : Bytes) :
    vb16 s = BitVec.ofNat 8 (s.length / 256) :: BitVec.ofNat 8 s.length :: s := by
  rw [vb16, be16_ofNat]
  rfl

/-- The fields of an absent body are six zero bytes (R85). -/
theorem optionalBodyFields_none : optionalBodyFields none = [0x00, 0x00, 0x00, 0x00, 0x00, 0x00] := rfl

/-- The fields of a body by arithmetic (R85). -/
theorem optionalBodyFields_some (b : Body) :
    optionalBodyFields (some b) =
      [0x01, BitVec.ofNat 8 b.callForHeat.toNat, BitVec.ofNat 8 b.valvePos.toNat, b.flags,
        BitVec.ofNat 8 (b.stats.length / 256), BitVec.ofNat 8 b.stats.length] ++ b.stats := by
  simp [optionalBodyFields, bodyFields, boolByte_eq_ofNat, vb16_eq_ofNat]

/-- The fields of a decoded frame by arithmetic (R85). -/
theorem decodedFields_eq (d : DecodedFrame) :
    resultFields (.decoded d) =
      [d.flen, BitVec.ofNat 8 d.frame.secure.toNat, BitVec.ofNat 8 d.frame.frameType.toNat,
        BitVec.ofNat 8 d.frame.seqNo.toNat, BitVec.ofNat 8 d.frame.id.length] ++ d.frame.id ++
        optionalBodyFields d.frame.body ++ be24 d.rxRestartCounter ++ be24 d.rxMsgCounter := by
  simp [resultFields, headerPrefixFields, boolByte_eq_ofNat, vb8, lenByte]

end Sys2Proof

namespace Sys2Proof.Machine

/-- From BUSY a FRAME.DEC answers its result, laid out, and leaves the latches cleared (R190, R205). -/
theorem exec_frameDec_busy {s : State} {r : Request} (h : s.phase = .busy r) (buf key pre : Bytes) :
    exec (.frameDec buf key pre) s = .next { answeredWith s r
      (responseBytes (frameDecResult Config.block buf key pre)) with hidden := Hidden.cleared } := by
  rw [exec_eq]
  simp only [hiddenAfter, decHidden_eq_cleared]
  rw [deliver_busy (s := { s with hidden := Hidden.cleared }) h]
  rfl

/-- Settles O47: the outcome of `DecodeFrame` is the response, and the fields are those of R85. -/
theorem frameDecAnswersDecodeFrame : Obligations.FrameDecAnswersDecodeFrame := by
  unfold Obligations.FrameDecAnswersDecodeFrame
  intro s r buf key pre hs
  refine ⟨fun e he => ?_, fun d hd => ?_⟩
  · rw [exec_frameDec_busy hs, frameDecResult, he]
    rfl
  · rw [exec_frameDec_busy hs, frameDecResult, hd]
    simp only [responseBytes, decodedFields_eq]
    cases d.frame.body with
    | none => simp [optionalBodyFields_none, statusCode]
    | some b => simp [optionalBodyFields_some, statusCode]

end Sys2Proof.Machine

namespace Sys2Proof

/-! ## The errors that a command can answer (R221) -/

/-- A CRC fails only as IllegalOperand, and only where the slice leaves the buffer (R107). -/
theorem frameCrc_error {buf : Bytes} {off len : Nat} {err : Status} (e : frameCrc buf off len = .error err) :
    buf.length < off + len ∧ err = .illegalOperand := by
  unfold frameCrc at e
  split at e
  · exact ⟨‹_›, (Except.error.inj e).symm⟩
  · cases e

/-- A body fails to pack only as InvalidBodyLength (R121). -/
theorem packBody_error {b : Body} {err : Status} (e : packBody b = .error err) : err = .invalidBodyLength := by
  obtain ⟨-, h⟩ | ⟨-, h⟩ := packBody_cases b <;> rw [h] at e <;> cases e
  rfl

/-- A body string fails to parse only as MalformedHeader (R124). -/
theorem parseBody_error {s : Bytes} {err : Status} (e : parseBody s = .error err) : err = .malformedHeader := by
  obtain ⟨-, h⟩ | ⟨-, h⟩ | ⟨-, h⟩ := parseBody_cases s <;> rw [h] at e <;> cases e
  rfl

/-- A body fails to pad only by its declared length (R150). -/
theorem padBlock_error {b : Body} {dbl : Nat} {err : Status} (e : padBlock b dbl = .error err) :
    err = .bodyTooLargeForSecureBlock ∨ err = .invalidBodyLength := by
  unfold padBlock at e
  split at e
  · exact .inl (Except.error.inj e).symm
  · split at e
    · exact .inr (Except.error.inj e).symm
    · cases e

/-- The check before encoding finds one of the encode errors (R181). -/
theorem encodeError_some {f : Frame} {err : Status} (h : encodeError f = some err) :
    err ∈ commandStatuses .frameEnc := by
  unfold encodeError at h
  split_ifs at h <;> cases h <;> decide

/-- The insecure path fails only on its body: the CRC of a whole string exists (R176). -/
theorem encodeInsecure_error {f : Frame} {header : Bytes} {err : Status} (e : encodeInsecure f header = .error err) :
    err = .invalidBodyLength := by
  simp only [encodeInsecure, frameCrc_all] at e
  split at e
  · rename_i hbody
    cases e
    unfold insecureBody at hbody
    split at hbody
    · cases hbody
    · exact packBody_error hbody
  · cases e

/-- The secure path fails only on its padding: the header holds the AAD (R144, R177). -/
theorem encodeSecure_error {cfg : Config} {f : Frame} {tx : TxContext} {header : Bytes} {err : Status}
    (hheader : frameHeader f = .ok header) (e : encodeSecure cfg f tx header = .error err) :
    err = .bodyTooLargeForSecureBlock ∨ err = .invalidBodyLength := by
  unfold encodeSecure at e
  split at e
  · rename_i hpt
    cases e
    unfold securePlaintext at hpt
    split at hpt
    · cases hpt
    · exact padBlock_error hpt
  · split at e
    · rename_i haad
      obtain ⟨hshort, -⟩ := buildAad_error haad
      rw [frameHeader_length hheader] at hshort
      split at hshort <;> omega
    · cases e

/-- Encoding fails only with an encode error (R37, R221). -/
theorem encodeFrame_error {cfg : Config} {f : Frame} {tx : TxContext} {err : Status}
    (e : encodeFrame cfg f tx = .error err) : err ∈ commandStatuses .frameEnc := by
  unfold encodeFrame at e
  split at e
  · cases e
    exact encodeError_some ‹_›
  · split at e
    · rename_i hheader
      cases e
      obtain ⟨-, rfl⟩ := packHeader_error hheader
      decide
    · split at e
      · obtain rfl | rfl := encodeSecure_error ‹_› e <;> decide
      · obtain rfl := encodeInsecure_error e
        decide

/-- An opened plaintext gives no body only as MalformedHeader (R202). -/
theorem openedBody_error {bodyLen : Nat} {pt : Bytes} {err : Status} (e : openedBody bodyLen pt = .error err) :
    err = .malformedHeader := by
  unfold openedBody at e
  split at e
  · exact (Except.error.inj e).symm
  · split at e
    · cases e
    · split at e
      · cases e
        exact unpadBlock_error ‹_›
      · cases e

/-- The insecure path fails only with a decode error, where the frame reaches its trailer (R197). -/
theorem decodeInsecure_error {frame : Bytes} {h : Header} {err : Status} (hlen : h.len.toNat ≤ frame.length)
    (e : decodeInsecure frame h = .error err) : err ∈ commandStatuses .frameDec := by
  unfold decodeInsecure at e
  split at e
  · obtain ⟨hshort, -⟩ := frameCrc_error ‹_›
    omega
  · split at e
    · cases e
      decide
    · split at e
      · cases e
        obtain rfl := parseBody_error ‹_›
        decide
      · cases e

/-- The secure path fails only with a decode error (R198 to R203). -/
theorem decodeSecure_error {cfg : Config} {frame : Bytes} {h : Header} {rx : RxContext} {err : Status}
    (e : decodeSecure cfg frame h rx = .error err) : err ∈ commandStatuses .frameDec := by
  simp only [decodeSecure] at e
  split at e
  · cases e
    decide
  · split at e
    · cases e
      obtain ⟨-, rfl⟩ := buildAad_error ‹_›
      decide
    · split at e
      · cases e
        decide
      · split at e
        · cases e
          obtain rfl := openedBody_error ‹_›
          decide
        · cases e

/-- From the frame on, decoding fails only with a decode error, where the frame has the length its first byte gives. -/
theorem decodeStructure_error {cfg : Config} {frame : Bytes} {rx : RxContext} {err : Status}
    (hlen : (byteAt frame 0).toNat ≤ frame.length) (e : decodeStructure cfg frame rx = .error err) :
    err ∈ commandStatuses .frameDec := by
  unfold decodeStructure at e
  split at e
  · cases e
    obtain rfl := parseHeader_error ‹_›
    decide
  · rename_i hd hheader
    obtain ⟨-, hdlen, -⟩ := parseHeader_ok hheader
    split_ifs at e
    · cases e
      decide
    · cases e
      decide
    · cases e
      decide
    · exact decodeSecure_error e
    · exact decodeInsecure_error (hdlen ▸ hlen) e

/-- Decoding fails only with a decode error (R37, R221). -/
theorem decodeFrame_error {cfg : Config} {buf : Bytes} {rx : RxContext} {err : Status}
    (e : decodeFrame cfg buf rx = .error err) : err ∈ commandStatuses .frameDec := by
  simp only [decodeFrame] at e
  split_ifs at e with hempty hshort hpre hbound
  · cases e
    decide
  · cases e
    decide
  · cases e
    decide
  · cases e
    decide
  · have hfirst : byteAt (frameAt buf) 0 = byteAt buf 0 := byteAt_memRead (by omega)
    have hlen : (byteAt (frameAt buf) 0).toNat ≤ (frameAt buf).length := by
      rw [hfirst, frameAt_length (by omega)]
      omega
    exact decodeStructure_error hlen e

/-- A command fails only with a status that R221 lists for it. -/
theorem commandResult_error {cfg : Config} {i : Instr} {err : Status} (e : commandResult cfg i = .error err) :
    err ∈ commandStatuses i.opcode := by
  cases i with
  | crc7Upd | trlPack | trlParse | nonceBuild => cases e
  | crc7Frame buf off len =>
    simp only [commandResult, crc7FrameResult] at e
    split at e <;> cases e
    obtain ⟨-, rfl⟩ := frameCrc_error ‹_›
    exact List.mem_cons_self
  | hdrPack len sec ftype seq id blen =>
    simp only [commandResult, hdrPackResult] at e
    split at e <;> cases e
    obtain ⟨-, rfl⟩ := packHeader_error ‹_›
    exact List.mem_cons_self
  | hdrParse buf =>
    simp only [commandResult, hdrParseResult] at e
    split at e <;> cases e
    obtain rfl := parseHeader_error ‹_›
    exact List.mem_cons_self
  | bodyPack cfh valve flags stats =>
    simp only [commandResult, bodyPackResult] at e
    split at e <;> cases e
    obtain rfl := packBody_error ‹_›
    exact List.mem_cons_self
  | bodyParse body =>
    simp only [commandResult, bodyParseResult] at e
    split at e <;> cases e
    obtain rfl := parseBody_error ‹_›
    exact List.mem_cons_self
  | aadBuild buf hbc =>
    simp only [commandResult, aadBuildResult] at e
    split at e <;> cases e
    obtain ⟨-, rfl⟩ := buildAad_error ‹_›
    exact List.mem_cons_self
  | padBody cfh valve flags stats dbl =>
    simp only [commandResult, padBodyResult] at e
    split at e <;> cases e
    obtain rfl | rfl := padBlock_error ‹_›
    · exact List.mem_cons_self
    · exact List.mem_cons_of_mem _ List.mem_cons_self
  | padUnpad pt =>
    simp only [commandResult, padUnpadResult] at e
    split at e <;> cases e
    obtain rfl := unpadBlock_error ‹_›
    exact List.mem_cons_self
  | frameEnc sec ftype seq id hasBody cfh valve flags stats key pre rc mc =>
    simp only [commandResult, frameEncResult] at e
    split at e <;> cases e
    exact encodeFrame_error ‹_›
  | frameDec buf key pre =>
    simp only [commandResult, frameDecResult] at e
    split at e <;> cases e
    exact decodeFrame_error ‹_›

/-- No error has the status byte 0x00 (R220, R222). -/
theorem statusCode_ne_zero_of_error {cfg : Config} {i : Instr} {err : Status}
    (e : commandResult cfg i = .error err) : statusCode err ≠ 0x00 := by
  have hmem := commandResult_error e
  have hall : ∀ o : Opcode, ∀ s ∈ commandStatuses o, statusCode s ≠ 0x00 := by
    intro o
    cases o <;> decide
  exact hall _ _ hmem

/-! ## The sizes of what a command answers (R85) -/

/-- A parsed body's stats lie in the string. -/
theorem parseBody_stats_length {s : Bytes} {b : Body} (h : parseBody s = .ok (some b)) : b.stats.length ≤ s.length := by
  obtain ⟨-, hs⟩ | ⟨-, hs⟩ | ⟨-, hs⟩ := parseBody_cases s <;> rw [hs] at h <;> cases h
  simp [bodyOf]

/-- An unpadded body's stats lie in the block's content. -/
theorem unpadBlock_stats_length {pt : Bytes} {b : Body} (h : unpadBlock pt = .ok b) : b.stats.length ≤ 31 := by
  obtain ⟨-, -, hparse⟩ := unpadBlock_ok h
  have hle := parseBody_stats_length hparse
  rw [memRead_length] at hle
  omega

/-- An opened body's stats are those of an unpadded block. -/
theorem openedBody_stats_length {bodyLen : Nat} {pt : Bytes} {b : Body} (h : openedBody bodyLen pt = .ok (some b)) :
    b.stats.length ≤ 31 := by
  unfold openedBody at h
  split at h
  · cases h
  · split at h
    · cases h
    · split at h <;> cases h
      exact unpadBlock_stats_length ‹_›

/-- A parsed header has at most 15 ID bytes (R73). -/
theorem parseHeader_id_length {buf : Bytes} {h : Header} (e : parseHeader buf = .ok h) : h.id.length ≤ 15 := by
  obtain ⟨-, -, -, -, -, hid, -⟩ := parseHeader_ok e
  have hlt : (idLenOf (byteAt buf 2)).toNat < 16 := (idLenOf (byteAt buf 2)).isLt
  rw [hid, memRead_length]
  omega

/-- A frame decoded by the insecure path has the header given and a body parsed from the body region (R197). -/
theorem decodeInsecure_ok {frame : Bytes} {h : Header} {d : DecodedFrame} (e : decodeInsecure frame h = .ok d) :
    ∃ body, parseBody (bodyRegion frame h) = .ok body ∧ d = decodedOf h body 0 0 := by
  unfold decodeInsecure at e
  split at e
  · cases e
  · split at e
    · cases e
    · split at e <;> cases e
      exact ⟨_, ‹_›, rfl⟩

/-- A frame decoded by the secure path has the header given and the body of an opened plaintext (R200 to R203). -/
theorem decodeSecure_ok {cfg : Config} {frame : Bytes} {h : Header} {rx : RxContext} {d : DecodedFrame}
    (e : decodeSecure cfg frame h rx = .ok d) :
    ∃ aad pt body, (trailerOf frame h).alg = Params.algAes128Gcm ∧ frameAad cfg frame h.id.length = .ok aad ∧
      openFrame cfg rx h.id aad (bodyRegion frame h) (trailerOf frame h) = some pt ∧
      openedBody h.bodyLen.toNat pt = .ok body ∧
      d = decodedOf h body (trailerOf frame h).restartCounter (trailerOf frame h).msgCounter := by
  simp only [decodeSecure] at e
  split at e
  · cases e
  · rename_i halg
    split at e
    · cases e
    · split at e
      · cases e
      · split at e <;> cases e
        exact ⟨_, _, _, not_not.mp halg, ‹_›, ‹_›, ‹_›, rfl⟩

/-- A decoded frame has at most 15 ID bytes, and its stats fit a length byte. -/
theorem decodeFrame_sizes {cfg : Config} {buf : Bytes} {rx : RxContext} {d : DecodedFrame}
    (e : decodeFrame cfg buf rx = .ok d) :
    d.frame.id.length ≤ 15 ∧ ∀ b, d.frame.body = some b → b.stats.length ≤ 255 := by
  obtain ⟨-, -, -, h, hheader, -, -, hsecure, hinsecure⟩ := decodeFrame_ok e
  have hid := parseHeader_id_length hheader
  cases hsec : h.secure with
  | true =>
    obtain ⟨_, _, body, -, -, -, hbody, rfl⟩ := decodeSecure_ok (hsecure hsec)
    refine ⟨hid, fun b hb => ?_⟩
    obtain rfl : body = some b := hb
    exact (openedBody_stats_length hbody).trans (by decide)
  | false =>
    obtain ⟨body, hbody, rfl⟩ := decodeInsecure_ok (hinsecure hsec)
    refine ⟨hid, fun b hb => ?_⟩
    obtain rfl : body = some b := hb
    have hle := parseBody_stats_length hbody
    have hbyte := byte_toNat_lt h.bodyLen
    rw [bodyRegion, memRead_length] at hle
    omega

/-- An encoded frame has at most 256 bytes; a secure one because the ciphertext is as long as the block (P_LEN). -/
theorem encodeFrame_length_le {cfg : Config} {f : Frame} {tx : TxContext} {w : Bytes} (hlen : PLen cfg)
    (e : encodeFrame cfg f tx = .ok w) : w.length ≤ 256 := by
  obtain ⟨herr, header, hheader, hinsecure, hsecure⟩ := encodeFrame_ok e
  obtain ⟨hid, hfit⟩ := encodeError_none herr
  have hhlen := frameHeader_length hheader
  cases hsec : f.secure with
  | false =>
    obtain ⟨body, hbody, rfl⟩ := hinsecure hsec
    obtain ⟨-, htotal⟩ := hfit hsec
    simp [insecureBody_length hbody, hhlen]
    omega
  | true =>
    obtain ⟨pt, aad, hpt, -, rfl⟩ := hsecure hsec
    have hct : (sealFrame cfg tx f.id aad pt).1.length = pt.length := hlen _ _ _ _
    have hblock := securePlaintext_length hpt
    simp [hct, hhlen]
    omega

/-! ## The result fields of every command have the format of R85 -/

/-- A string is laid out as fields of these kinds, one after another. -/
def LaidOut (ks : List FieldKind) (w : Bytes) : Prop := ∃ vs, List.Forall₂ FieldFits ks vs ∧ w = fieldsBytes ks vs

/-- The size of a laid-out string is told from the kinds and the length bytes (R82). -/
theorem LaidOut.fieldsSize_eq {ks : List FieldKind} {w : Bytes} (h : LaidOut ks w) :
    fieldsSize ks w = some w.length := by
  obtain ⟨vs, hfit, rfl⟩ := h
  simpa using fieldsSize_fieldsBytes hfit []

/-- Fields after fields. -/
theorem LaidOut.append {ks ks' : List FieldKind} {w w' : Bytes} (h : LaidOut ks w) (h' : LaidOut ks' w') :
    LaidOut (ks ++ ks') (w ++ w') := by
  obtain ⟨vs, hfit, rfl⟩ := h
  obtain ⟨vs', hfit', rfl⟩ := h'
  refine ⟨vs ++ vs', List.rel_append hfit hfit', ?_⟩
  simp [fieldsBytes, List.zipWith_append hfit.length_eq]

theorem laidOut_u8 (b : Byte) : LaidOut [.u8] [b] := ⟨[[b]], by simp, rfl⟩
theorem laidOut_fixed {n : Nat} {v : Bytes} (h : v.length = n) : LaidOut [.fixed n] v := ⟨[v], by simp [h], by simp⟩
theorem laidOut_vb16 {v : Bytes} (h : v.length < 65536) : LaidOut [.vb16] (vb16 v) := ⟨[v], by simp [h], by simp⟩

theorem laidOut_headerPrefixFields (sec : Bool) (ftype : BitVec 7) (seq : BitVec 4) {id : Bytes}
    (h : id.length ≤ 15) : LaidOut [.bool, .u8, .u8, .vb8] (headerPrefixFields sec ftype seq id) :=
  ⟨[[boolByte sec], [ftype.setWidth 8], [seq.setWidth 8], id], by simp; omega, by simp [headerPrefixFields]⟩

theorem laidOut_bodyFields {b : Body} (h : b.stats.length < 65536) :
    LaidOut [.bool, .u8, .u8, .vb16] (bodyFields b) :=
  ⟨[[boolByte b.callForHeat], [b.valvePos.setWidth 8], [b.flags], b.stats], by simp [h], by simp [bodyFields]⟩

theorem laidOut_optionalBodyFields {body : Option Body} (h : ∀ b, body = some b → b.stats.length < 65536) :
    LaidOut [.bool, .bool, .u8, .u8, .vb16] (optionalBodyFields body) := by
  have hpresent (p : Bool) : LaidOut [.bool] [boolByte p] := ⟨[[boolByte p]], by simp, rfl⟩
  cases body with
  | none => exact (hpresent false).append (laidOut_bodyFields (by decide))
  | some b => exact (hpresent true).append (laidOut_bodyFields (h b rfl))

theorem laidOut_trailerFields {t : Trailer} (h : t.tag.length = 16) :
    LaidOut [.u24, .u24, .fixed 16, .u8] (resultFields (.trailer t)) :=
  ⟨[be24 t.restartCounter, be24 t.msgCounter, t.tag, [t.alg]], by simp [h], by simp [resultFields]⟩

/-- The fields of a decoded frame are laid out as R85 says when their lengths fit. -/
theorem laidOut_decodedFields {d : DecodedFrame} (hid : d.frame.id.length ≤ 15)
    (hbody : ∀ b, d.frame.body = some b → b.stats.length < 65536) :
    LaidOut (responseFormat .frameDec) (resultFields (.decoded d)) := by
  have hcounters : LaidOut [.u24, .u24] (be24 d.rxRestartCounter ++ be24 d.rxMsgCounter) :=
    ⟨[be24 d.rxRestartCounter, be24 d.rxMsgCounter], by simp, by simp⟩
  have hall := (((laidOut_u8 d.flen).append
    (laidOut_headerPrefixFields d.frame.secure d.frame.frameType d.frame.seqNo hid)).append
    (laidOut_optionalBodyFields hbody)).append hcounters
  rw [← List.append_assoc] at hall
  exact hall

/-- The result of every well-formed command is laid out in the format of R85. -/
theorem commandResult_laidOut {cfg : Config} (hlen : PLen cfg) {i : Instr} (hwf : i.wf = true) {r : Result}
    (h : commandResult cfg i = .ok r) : LaidOut (responseFormat i.opcode) (resultFields r) := by
  cases i with
  | crc7Upd acc d =>
    cases h
    exact laidOut_u8 _
  | crc7Frame buf off len =>
    simp only [commandResult, crc7FrameResult] at h
    split at h <;> cases h
    exact laidOut_u8 _
  | hdrPack len sec ftype seq id blen =>
    simp only [commandResult, hdrPackResult] at h
    split at h <;> cases h
    obtain ⟨hid, rfl⟩ := packHeader_ok ‹_›
    exact laidOut_vb16 (by simp; omega)
  | hdrParse buf =>
    simp only [commandResult, hdrParseResult] at h
    split at h <;> cases h
    rename_i hd hheader
    exact ((laidOut_u8 hd.len).append
      (laidOut_headerPrefixFields _ _ _ (parseHeader_id_length hheader))).append (laidOut_u8 hd.bodyLen)
  | bodyPack cfh valve flags stats =>
    simp only [commandResult, bodyPackResult] at h
    split at h <;> cases h
    rename_i hpack
    obtain ⟨hstats, hok⟩ | ⟨-, herr⟩ := packBody_cases ⟨cfh, valve, flags, stats⟩
    · obtain rfl := Except.ok.inj (hpack.symm.trans hok)
      exact laidOut_vb16 (by simp [bodyContent] at hstats ⊢; omega)
    · cases hpack.symm.trans herr
  | bodyParse body =>
    have hbody : body.length < 65536 := by simpa [Instr.wf, vb16Ok] using hwf
    simp only [commandResult, bodyParseResult] at h
    split at h <;> cases h
    rename_i hparse
    refine laidOut_optionalBodyFields fun b hb => ?_
    subst hb
    exact (parseBody_stats_length hparse).trans_lt hbody
  | trlPack rc mc tag alg =>
    have htag : tag.length = 16 := by simpa [Instr.wf, fixedOk] using hwf
    cases h
    exact laidOut_fixed (by simp [resultFields, packTrailer, htag])
  | trlParse trl =>
    have htrl : trl.length = 23 := by simpa [Instr.wf, fixedOk] using hwf
    cases h
    exact laidOut_trailerFields (by simp [parseTrailer, htrl, Params.tagBytes])
  | nonceBuild id4 pre rc mc =>
    obtain ⟨hid, hpre⟩ : id4.length = 4 ∧ pre.length = 2 := by simpa [Instr.wf, fixedOk] using hwf
    cases h
    exact laidOut_fixed (by simp [resultFields, buildNonce, hid, hpre])
  | aadBuild buf hbc =>
    have hbuf : buf.length < 65536 := by simpa [Instr.wf, vb16Ok] using hwf
    simp only [commandResult, aadBuildResult] at h
    split at h <;> cases h
    obtain ⟨-, rfl⟩ := buildAad_ok ‹_›
    exact laidOut_vb16 (by simp; omega)
  | padBody cfh valve flags stats dbl =>
    simp only [commandResult, padBodyResult] at h
    split at h <;> cases h
    obtain ⟨hmax, hdbl, rfl⟩ := padBlock_ok ‹_›
    exact laidOut_fixed (by simp [resultFields, bodyContent] at hdbl ⊢; omega)
  | padUnpad pt =>
    simp only [commandResult, padUnpadResult] at h
    split at h <;> cases h
    exact laidOut_bodyFields ((unpadBlock_stats_length ‹_›).trans_lt (by decide))
  | frameEnc sec ftype seq id hasBody cfh valve flags stats key pre rc mc =>
    simp only [commandResult, frameEncResult] at h
    split at h <;> cases h
    exact laidOut_vb16 ((encodeFrame_length_le hlen ‹_›).trans_lt (by decide))
  | frameDec buf key pre =>
    simp only [commandResult, frameDecResult] at h
    split at h <;> cases h
    obtain ⟨hid, hstats⟩ := decodeFrame_sizes ‹_›
    exact laidOut_decodedFields hid fun b hb => (hstats b hb).trans_lt (by decide)

/-- Settles O12: an error is one byte that is not 0x00, and a result is laid out in the opcode's format. -/
theorem responseLengthIsToldByOpcodeAndStatus : Obligations.ResponseLengthIsToldByOpcodeAndStatus := by
  unfold Obligations.ResponseLengthIsToldByOpcodeAndStatus
  intro cfg i hlen hwf
  rw [respond_encode cfg hwf]
  cases h : commandResult cfg i with
  | error err =>
    have hne := statusCode_ne_zero_of_error h
    simp only [responseBytes, responseSize, if_pos hne, List.length_singleton]
  | ok r =>
    have hsize := (commandResult_laidOut hlen hwf h).fieldsSize_eq
    simp [responseBytes, responseSize, statusCode, hsize, Nat.add_comm]

end Sys2Proof

namespace Sys2Proof

/-! ## The CRC-7 engine (R100 to R107) -/

/-- What a feedback bit puts into the register (R101). -/
def crc7Feedback (f : Bool) : BitVec 7 := if f then Params.crcPoly else 0

/-- Equal feedback bits cancel. -/
theorem crc7Feedback_xor : ∀ f g : Bool, crc7Feedback (f ^^ g) = crc7Feedback f ^^^ crc7Feedback g := by decide

/-- One bit shifts the register and puts its feedback in, whichever it is. -/
theorem crc7Bit_eq (c : BitVec 7) (b : Bool) : crc7Bit c b = c <<< 1 ^^^ crc7Feedback (c.getLsbD 6 ^^ b) := by
  unfold crc7Bit crc7Feedback
  split <;> simp_all

/-- One bit of the serial register is linear in the register and the data bit together. -/
theorem crc7Bit_xor (c c' : BitVec 7) (b b' : Bool) :
    crc7Bit (c ^^^ c') (b ^^ b') = crc7Bit c b ^^^ crc7Bit c' b' := by
  have hshift : (c ^^^ c') <<< 1 = c <<< 1 ^^^ c' <<< 1 := BitVec.shiftLeft_xor_distrib c c' 1
  simp only [crc7Bit_eq, BitVec.getLsbD_xor, hshift, crc7Feedback_xor]
  ac_rfl

/-- Any number of bits, taken at the same positions of two bytes, shifted into the register: the register stays linear. -/
theorem foldl_crc7Bit_xor (d d' : Byte) (is : List Nat) (c c' : BitVec 7) :
    (is.map (d ^^^ d').getLsbD).foldl crc7Bit (c ^^^ c') =
      (is.map d.getLsbD).foldl crc7Bit c ^^^ (is.map d'.getLsbD).foldl crc7Bit c' := by
  induction is generalizing c c' with
  | nil => rfl
  | cons i is ih => simp only [List.map_cons, List.foldl_cons, BitVec.getLsbD_xor, crc7Bit_xor, ih]

/-- `Crc7Update` is linear in the accumulator and the data byte together (R102). -/
theorem crc7Update_xor (acc acc' d d' : Byte) :
    crc7Update (acc ^^^ acc') (d ^^^ d') = crc7Update acc d ^^^ crc7Update acc' d' := by
  simp only [crc7Update, msbFirst, BitVec.setWidth_xor]
  rw [foldl_crc7Bit_xor, BitVec.setWidth_xor]

/-- The accumulator and the data byte act on the update separately (R102). -/
theorem crc7Update_eq_xor (acc d : Byte) : crc7Update acc d = crc7Update acc 0 ^^^ crc7Update 0 d := by
  simp [← crc7Update_xor]

/-- A zero byte only shifts the accumulator out, as the accumulator's own bits, one place up, do from an empty register
(R101, R102). -/
theorem crc7Update_zero_right : ∀ acc : Byte, crc7Update acc 0 = crc7Update 0 (acc <<< 1) := by decide +kernel

/-- The update runs on one byte, the accumulator one place on XOR the data byte (R102). -/
theorem crc7Update_eq_zero_left (acc d : Byte) : crc7Update acc d = crc7Update 0 ((acc <<< 1) ^^^ d) := by
  rw [crc7Update_eq_xor, crc7Update_zero_right]
  simp [← crc7Update_xor]

/-- The spec's step table is `Crc7Update` from an empty register (R102, V-CRC-T). -/
theorem crcTable_getD : ∀ x : Byte, crcTable.getD x.toNat 0 = crc7Update 0 x := by decide +kernel

/-- The table form of the update (R102). -/
theorem crc7Update_eq_table (acc d : Byte) : crc7Update acc d = crcTable.getD ((acc <<< 1) ^^^ d).toNat 0 := by
  rw [crcTable_getD, crc7Update_eq_zero_left]

/-- Settles O17: the step is linear bit by bit, and the table holds the updates from an empty register. -/
theorem crcUpdateHasTableFormAndIsLinear : Obligations.CrcUpdateHasTableFormAndIsLinear := by
  unfold Obligations.CrcUpdateHasTableFormAndIsLinear
  refine ⟨crcTable_getD, fun acc d => ?_, crc7Update_eq_xor⟩
  have hmask : ((acc <<< 1) ^^^ d) &&& (0xFF : Byte) = (acc <<< 1) ^^^ d := BitVec.and_allOnes
  rw [hmask, crc7Update_eq_table]

/-- An update stays below 0x80: the register has 7 bits (R101). -/
theorem crc7Update_lt (acc d : Byte) : (crc7Update acc d).toNat < 0x80 := by
  rw [crc7Update, BitVec.toNat_setWidth_of_le (by decide)]
  exact BitVec.isLt _

/-- A fold that starts below 0x80 stays below it. -/
theorem crc7Fold_lt {acc : Byte} (h : acc.toNat < 0x80) (s : Bytes) : (crc7Fold acc s).toNat < 0x80 := by
  induction s generalizing acc with
  | nil => exact h
  | cons d s ih => exact ih (crc7Update_lt acc d)

/-- Whitening takes the values below 0x80 into 0x01 to 0x80 (R104). -/
theorem whiten_range {c : Byte} (h : c.toNat < 0x80) : 1 ≤ (whiten c).toNat ∧ (whiten c).toNat ≤ 0x80 := by
  unfold whiten
  split
  case isTrue => decide
  case isFalse hne =>
    have hpos : c.toNat ≠ 0 := fun h0 => hne (BitVec.eq_of_toNat_eq h0)
    omega

/-- Settles O19: the fold from 0x7F is a 7-bit value, and whitening takes its zero to 0x80. -/
theorem frameCrcIsNeverAllZerosOrAllOnes : Obligations.FrameCrcIsNeverAllZerosOrAllOnes := by
  unfold Obligations.FrameCrcIsNeverAllZerosOrAllOnes
  refine ⟨fun _ => rfl, fun buf off len c h => ?_⟩
  obtain ⟨-, rfl⟩ := frameCrc_ok h
  obtain ⟨hlow, hhigh⟩ := whiten_range (crc7Fold_lt (acc := Params.crcInit) (by decide) (memRead buf off len))
  refine ⟨hlow, hhigh, fun h0 => ?_, fun h1 => ?_⟩
  · rw [h0] at hlow
    exact absurd hlow (by decide)
  · rw [h1] at hhigh
    exact absurd hhigh (by decide)

/-- Settles O20: CRC7.STR is the fold, and the folds are computed. -/
theorem crcCheckValuesHold : Obligations.CrcCheckValuesHold := by
  unfold Obligations.CrcCheckValuesHold
  have htext : crc7Fold 0x00 [0x31, 0x32, 0x33, 0x34, 0x35, 0x36, 0x37, 0x38, 0x39] = 0x04 := by decide +kernel
  exact ⟨fun cfg => (crc7Str_value cfg _ _).trans htext, htext, by decide +kernel⟩

/-- The slice between two parts of a buffer is what a read at its place gives (R16). -/
theorem memRead_slice {before slice after : Bytes} {off len : Nat} (hoff : before.length = off)
    (hlen : slice.length = len) : memRead (before ++ slice ++ after) off len = slice := by
  subst hoff hlen
  rw [List.append_assoc, memRead_append_right, memRead_append_left _ _ _ _ (by omega), memRead_all]

/-- A CRC over a slice that does not lie in the buffer is refused (R107). -/
theorem frameCrc_outside {buf : Bytes} {off len : Nat} (h : buf.length < off + len) :
    frameCrc buf off len = .error .illegalOperand := if_pos h

/-- A CRC over a slice in the buffer is that of the slice alone (R103). -/
theorem frameCrc_slice {before slice after : Bytes} {off len : Nat} (hoff : before.length = off)
    (hlen : slice.length = len) :
    frameCrc (before ++ slice ++ after) off len = .ok (whiten (crc7Fold Params.crcInit slice)) := by
  have hin : ¬ (before ++ slice ++ after).length < off + len := by
    simp only [List.length_append]
    omega
  rw [frameCrc, if_neg hin, memRead_slice hoff hlen]

end Sys2Proof

namespace Sys2Proof.Machine

/-- From BUSY a command that leaves the hidden state alone answers the accepted request with its result, and changes
nothing else (R25, R27). -/
theorem exec_busy_of_hiddenAfter {s : State} {r : Request} {i : Instr} (h : s.phase = .busy r)
    (hi : hiddenAfter i s.hidden = s.hidden) :
    exec i s = .next (answeredWith s r (responseBytes (commandResult Config.block i))) := by
  rw [exec_eq, hi, deliver_busy h]

/-- Settles O16: the answer is the update, in its table form. -/
theorem crcUpdAnswersTheTableStep : Obligations.CrcUpdAnswersTheTableStep := by
  unfold Obligations.CrcUpdAnswersTheTableStep
  intro s r acc d hs
  have hindex : (2 * acc.toNat % 256) ^^^ d.toNat = ((acc <<< 1) ^^^ d).toNat := by
    rw [BitVec.toNat_xor, BitVec.toNat_shiftLeft, Nat.shiftLeft_eq, Nat.mul_comm]
  rw [exec_busy_of_hiddenAfter hs rfl, hindex, ← crc7Update_eq_table]
  rfl

/-- Settles O18: the refusal and the fold of the slice, each as `FrameCrc` gives it. -/
theorem crcFrameAnswersTheWhitenedFold : Obligations.CrcFrameAnswersTheWhitenedFold := by
  unfold Obligations.CrcFrameAnswersTheWhitenedFold
  intro s r before slice after buf off len hs
  refine ⟨fun hout => ?_, fun hbuf hoff hlen => ?_⟩
  · rw [exec_busy_of_hiddenAfter hs rfl, commandResult, crc7FrameResult, frameCrc_outside hout]
    rfl
  · rw [exec_busy_of_hiddenAfter hs rfl, commandResult, crc7FrameResult, hbuf, frameCrc_slice hoff hlen]
    rfl

end Sys2Proof.Machine

namespace Sys2Proof

/-! ## The bit fields of the header and of the valve/heat byte, by arithmetic (R72, R73, R74) -/

/-- A high part shifted over a low part that fits below it is their sum. -/
theorem shiftLeft_or_eq_ofNat {high low : Byte} {k : Nat} (h : low.toNat < 2 ^ k) :
    high <<< k ||| low = BitVec.ofNat 8 (2 ^ k * high.toNat + low.toNat) := by
  apply BitVec.eq_of_toNat_eq
  rw [Nat.two_pow_add_eq_or_of_lt h, BitVec.toNat_or, BitVec.toNat_shiftLeft, BitVec.toNat_ofNat, Nat.or_mod_two_pow,
    Nat.mod_eq_of_lt low.isLt, Nat.shiftLeft_eq, Nat.mul_comm]

/-- A flag above seven bits, by arithmetic (R72, R74). -/
theorem flagByte_eq_ofNat (flag : Bool) (v : BitVec 7) :
    boolByte flag <<< 7 ||| v.setWidth 8 = BitVec.ofNat 8 (128 * flag.toNat + v.toNat) := by
  have hv : (v.setWidth 8).toNat = v.toNat := BitVec.toNat_setWidth_of_le (by decide)
  have hflag : (boolByte flag).toNat = flag.toNat := by cases flag <;> rfl
  rw [shiftLeft_or_eq_ofNat (by rw [hv]; exact v.isLt), hv, hflag]
  rfl

theorem typeByte_eq_ofNat (sec : Bool) (ftype : BitVec 7) :
    typeByte sec ftype = BitVec.ofNat 8 (128 * sec.toNat + ftype.toNat) := flagByte_eq_ofNat sec ftype

theorem valveHeatByte_eq_ofNat (cfh : Bool) (valve : BitVec 7) :
    valveHeatByte cfh valve = BitVec.ofNat 8 (128 * cfh.toNat + valve.toNat) := flagByte_eq_ofNat cfh valve

/-- The seq/idLen byte, by arithmetic (R73). -/
theorem seqIdLenByte_eq_ofNat (seq : BitVec 4) {n : Nat} (h : n ≤ 15) :
    seqIdLenByte seq n = BitVec.ofNat 8 (16 * seq.toNat + n) := by
  have hseq : (seq.setWidth 8).toNat = seq.toNat := BitVec.toNat_setWidth_of_le (by decide)
  have hn : (lenByte n).toNat = n := lenByte_toNat n (by omega)
  rw [seqIdLenByte, shiftLeft_or_eq_ofNat (by omega), hseq, hn]
  rfl

theorem topBit_toNat (b : Byte) : (topBit b).toNat = b.toNat / 128 := by
  have hb : b.toNat < 256 := byte_toNat_lt b
  rw [topBit, BitVec.getLsbD, Nat.toNat_testBit]
  omega

theorem low7_toNat (b : Byte) : (low7 b).toNat = b.toNat % 128 := by simp [low7, BitVec.extractLsb'_toNat]

theorem seqOf_toNat (b : Byte) : (seqOf b).toNat = b.toNat / 16 := by
  have hb : b.toNat < 256 := byte_toNat_lt b
  rw [seqOf, BitVec.extractLsb'_toNat, Nat.shiftRight_eq_div_pow]
  omega

theorem idLenOf_toNat (b : Byte) : (idLenOf b).toNat = b.toNat % 16 := by simp [idLenOf, BitVec.extractLsb'_toNat]

/-- The flag of a byte of a flag and seven bits. -/
theorem topBit_ofNat (flag : Bool) (v : BitVec 7) : topBit (BitVec.ofNat 8 (128 * flag.toNat + v.toNat)) = flag := by
  have hv : v.toNat < 128 := v.isLt
  have hflag : flag.toNat < 2 := Bool.toNat_lt flag
  have hinj : ∀ a b : Bool, a.toNat = b.toNat → a = b := by decide
  apply hinj
  rw [topBit_toNat, BitVec.toNat_ofNat]
  omega

/-- The seven bits of a byte of a flag and seven bits. -/
theorem low7_ofNat (flag : Bool) (v : BitVec 7) : low7 (BitVec.ofNat 8 (128 * flag.toNat + v.toNat)) = v := by
  have hv : v.toNat < 128 := v.isLt
  have hflag : flag.toNat < 2 := Bool.toNat_lt flag
  apply BitVec.eq_of_toNat_eq
  rw [low7_toNat, BitVec.toNat_ofNat]
  omega

@[simp] theorem topBit_typeByte (sec : Bool) (ftype : BitVec 7) : topBit (typeByte sec ftype) = sec := by
  rw [typeByte_eq_ofNat, topBit_ofNat]

@[simp] theorem low7_typeByte (sec : Bool) (ftype : BitVec 7) : low7 (typeByte sec ftype) = ftype := by
  rw [typeByte_eq_ofNat, low7_ofNat]

@[simp] theorem topBit_valveHeatByte (cfh : Bool) (valve : BitVec 7) : topBit (valveHeatByte cfh valve) = cfh := by
  rw [valveHeatByte_eq_ofNat, topBit_ofNat]

@[simp] theorem low7_valveHeatByte (cfh : Bool) (valve : BitVec 7) : low7 (valveHeatByte cfh valve) = valve := by
  rw [valveHeatByte_eq_ofNat, low7_ofNat]

/-- The valve/heat byte of the fields of a byte is the byte. -/
theorem valveHeatByte_topBit_low7 (b : Byte) : valveHeatByte (topBit b) (low7 b) = b := by
  rw [valveHeatByte_eq_ofNat, topBit_toNat, low7_toNat, Nat.div_add_mod, BitVec.ofNat_toNat, BitVec.setWidth_eq]

theorem seqOf_seqIdLenByte (seq : BitVec 4) {n : Nat} (h : n ≤ 15) : seqOf (seqIdLenByte seq n) = seq := by
  have hseq : seq.toNat < 16 := seq.isLt
  apply BitVec.eq_of_toNat_eq
  rw [seqIdLenByte_eq_ofNat seq h, seqOf_toNat, BitVec.toNat_ofNat]
  omega

theorem idLenOf_seqIdLenByte (seq : BitVec 4) {n : Nat} (h : n ≤ 15) : (idLenOf (seqIdLenByte seq n)).toNat = n := by
  have hseq : seq.toNat < 16 := seq.isLt
  rw [seqIdLenByte_eq_ofNat seq h, idLenOf_toNat, BitVec.toNat_ofNat]
  omega

/-! ## Counters and neighbouring reads (R15, R16, R53) -/

/-- A counter in three bytes, most significant first, by arithmetic (R53). -/
theorem be24_eq_ofNat (v : U24) :
    be24 v = [BitVec.ofNat 8 (v.toNat / 65536), BitVec.ofNat 8 (v.toNat / 256), BitVec.ofNat 8 v.toNat] := by
  simp [be24, BitVec.extractLsb', Nat.shiftRight_eq_div_pow]

/-- The counter that three bytes give, most significant first. -/
theorem fromBe24_toNat (hi mid lo : Byte) :
    (fromBe24 [hi, mid, lo]).toNat = 65536 * hi.toNat + 256 * mid.toNat + lo.toNat := by
  simp only [fromBe24, BitVec.toNat_append]
  rw [← Nat.shiftLeft_add_eq_or_of_lt mid.isLt, ← Nat.shiftLeft_add_eq_or_of_lt lo.isLt]
  simp only [Nat.shiftLeft_eq]
  omega

/-- A read and the read after it are one read. -/
theorem memRead_append_memRead (s : Bytes) (i m n : Nat) :
    memRead s i m ++ memRead s (i + m) n = memRead s i (m + n) := by
  simp only [memRead, List.take_add, List.drop_drop]

theorem memRead_one {s : Bytes} {i : Nat} (h : i < s.length) : memRead s i 1 = [byteAt s i] := by
  rw [memRead_succ h]
  rfl

/-- The counter read at a place of a string, most significant byte first (R53). -/
theorem fromBe24_memRead_toNat {s : Bytes} {i : Nat} (h : i + 3 ≤ s.length) :
    (fromBe24 (memRead s i 3)).toNat =
      65536 * (byteAt s i).toNat + 256 * (byteAt s (i + 1)).toNat + (byteAt s (i + 2)).toNat := by
  rw [memRead_succ (by omega), memRead_succ (by omega), memRead_one (by omega), fromBe24_toNat]

/-- The byte after the first part of a concatenation. -/
theorem byteAt_append_cons {s : Bytes} {n : Nat} (h : s.length = n) (b : Byte) (t : Bytes) :
    byteAt (s ++ b :: t) n = b := by
  subst h
  simp [byteAt]

/-- The field of a short string: its length byte after a zero byte. -/
theorem vb16_of_short {s : Bytes} {n : Nat} (hn : s.length = n) (h : n < 256) :
    vb16 s = 0x00 :: BitVec.ofNat 8 n :: s := by
  rw [vb16_eq_ofNat, hn, Nat.div_eq_of_lt h]
  rfl

/-! ## Header, body and trailer: the packers and the parsers (R110 to R132) -/

/-- A header that is all there parses to the fields at the front of the buffer (R117). -/
theorem parseHeader_headerAt {buf : Bytes} (h : 4 + (idLenOf (byteAt buf 2)).toNat ≤ buf.length) :
    parseHeader buf = .ok (headerAt buf) := by
  simp only [parseHeader]
  rw [if_neg (by omega), if_neg (by omega)]
  rfl

/-- A buffer without bytes 0 to 2 or without the bodyLen byte is Truncated (R118). -/
theorem parseHeader_truncated {buf : Bytes}
    (h : buf.length < 3 ∨ buf.length < 4 + (idLenOf (byteAt buf 2)).toNat) : parseHeader buf = .error .truncated := by
  simp only [parseHeader]
  split
  · rfl
  · rw [if_pos (by omega)]

/-- The fields of a parsed header by arithmetic (R85). -/
theorem headerFields_eq (h : Header) :
    resultFields (.header h) =
      [h.len, BitVec.ofNat 8 h.secure.toNat, BitVec.ofNat 8 h.frameType.toNat, BitVec.ofNat 8 h.seqNo.toNat,
        BitVec.ofNat 8 h.id.length] ++ h.id ++ [h.bodyLen] := by
  simp [resultFields, headerPrefixFields, boolByte_eq_ofNat, vb8, lenByte]

/-- A packed header parses to its fields (R132). -/
theorem parseHeader_of_packHeader {len blen : Byte} {sec : Bool} {ftype : BitVec 7} {seq : BitVec 4} {id hdr : Bytes}
    (h : packHeader len sec ftype seq id blen = .ok hdr) :
    parseHeader hdr =
      .ok { len := len, secure := sec, frameType := ftype, seqNo := seq, id := id, bodyLen := blen } := by
  obtain ⟨hid, hhdr⟩ := packHeader_ok h
  have hlen : byteAt hdr 0 = len := by rw [hhdr]; rfl
  have htype : byteAt hdr 1 = typeByte sec ftype := by rw [hhdr]; rfl
  have hseq : byteAt hdr 2 = seqIdLenByte seq id.length := by rw [hhdr]; rfl
  have hread : memRead hdr 3 id.length = id := by rw [hhdr]; exact memRead_slice rfl rfl
  have hbodyLen : byteAt hdr (3 + id.length) = blen := by
    rw [hhdr]
    exact byteAt_append_cons (by simp; omega) blen []
  have hidLen : (idLenOf (byteAt hdr 2)).toNat = id.length := by rw [hseq, idLenOf_seqIdLenByte seq hid]
  have hfull : 4 + id.length ≤ hdr.length := by
    rw [hhdr]
    simp
    omega
  rw [parseHeader_headerAt (by rwa [hidLen]), headerAt, hidLen, hlen, htype, hseq, hread, hbodyLen, topBit_typeByte,
    low7_typeByte, seqOf_seqIdLenByte seq hid]

/-- A body string of two bytes or more parses to its fields (R123). -/
theorem parseBody_of_two_le {s : Bytes} (h : 2 ≤ s.length) : parseBody s = .ok (some (bodyOf s)) := by
  obtain ⟨h0, -⟩ | ⟨h1, -⟩ | ⟨-, hs⟩ := parseBody_cases s
  · omega
  · omega
  · exact hs

/-- The content of a body gives its fields. -/
theorem bodyOf_bodyContent (b : Body) : bodyOf (bodyContent b) = b := by
  simp [bodyOf, bodyContent, byteAt]

/-- The fields of a body string serialise to the string. -/
theorem bodyContent_bodyOf {s : Bytes} (h : 2 ≤ s.length) : bodyContent (bodyOf s) = s := by
  match s, h with
  | b0 :: b1 :: stats, _ => simp [bodyContent, bodyOf, byteAt, valveHeatByte_topBit_low7]

/-- A trailer's fields serialise to the trailer (R130). -/
theorem packTrailer_parseTrailer {trl : Bytes} (h : trl.length = 23) : packTrailer (parseTrailer trl) = trl := by
  calc packTrailer (parseTrailer trl)
      = memRead trl 0 3 ++ memRead trl 3 3 ++ memRead trl 6 16 ++ memRead trl 22 1 := by
        rw [packTrailer, parseTrailer, be24_fromBe24 (by simp [h]), be24_fromBe24 (by simp [h]), memRead_one (by omega)]
    _ = memRead trl 0 trl.length := by
        rw [memRead_append_memRead trl 0 3 3, memRead_append_memRead trl 0 6 16, memRead_append_memRead trl 0 22 1, h]
    _ = trl := memRead_all trl

/-- A packed trailer parses to its fields (R132). -/
theorem parseTrailer_packTrailer {t : Trailer} (h : t.tag.length = 16) : parseTrailer (packTrailer t) = t := by
  have hrestart : memRead (packTrailer t) 0 3 = be24 t.restartCounter := rfl
  have hmsg : memRead (packTrailer t) 3 3 = be24 t.msgCounter := rfl
  have htag : memRead (packTrailer t) 6 16 = t.tag := memRead_slice rfl h
  have halg : byteAt (packTrailer t) 22 = t.alg := byteAt_append_cons (by simp [h]) t.alg []
  rw [parseTrailer, hrestart, hmsg, htag, halg, fromBe24_be24, fromBe24_be24]

/-- Settles O29: each parser reads back the fields its packer laid out, and a body's fields serialise to its string. -/
theorem packersAndParsersInvertEachOther : Obligations.PackersAndParsersInvertEachOther := by
  unfold Obligations.PackersAndParsersInvertEachOther
  refine ⟨fun len blen sec ftype seq id hdr _ hpack => parseHeader_of_packHeader hpack, fun b s hlen hpack => ?_,
    fun t ht => parseTrailer_packTrailer ht, fun s b hmin hmax hparse => ?_⟩
  · obtain ⟨-, hs⟩ | ⟨hlong, -⟩ := packBody_cases b
    · rw [hs] at hpack
      cases hpack
      rw [parseBody_of_two_le (by simp [bodyContent]), bodyOf_bodyContent]
    · omega
  · rw [parseBody_of_two_le hmin] at hparse
    cases hparse
    obtain ⟨-, hs⟩ | ⟨hlong, -⟩ := packBody_cases (bodyOf s)
    · rw [hs, bodyContent_bodyOf hmin]
    · simp [bodyOf] at hlong
      omega

end Sys2Proof

namespace Sys2Proof.Machine

/-! ## The unit commands of 41_fields.md -/

/-- Settles O23: the header packed, or refused for its `id`. -/
theorem hdrPackAnswersTheHeader : Obligations.HdrPackAnswersTheHeader := by
  unfold Obligations.HdrPackAnswersTheHeader
  intro s r len blen sec ftype seq id hs
  rw [exec_busy_of_hiddenAfter hs rfl, commandResult, hdrPackResult]
  by_cases hid : 15 < id.length
  · rw [packHeader, if_pos hid, if_pos hid]
    rfl
  · have hshort : id.length ≤ 15 := Nat.le_of_not_lt hid
    rw [packHeader, if_neg hid, if_neg hid, typeByte_eq_ofNat, seqIdLenByte_eq_ofNat seq hshort, responseBytes,
      resultFields, vb16_of_short (n := 4 + id.length) (by simp; omega) (by omega)]
    rfl

/-- Settles O24: the header parsed, or Truncated. -/
theorem hdrParseAnswersTheFields : Obligations.HdrParseAnswersTheFields := by
  unfold Obligations.HdrParseAnswersTheFields
  intro s r buf hs
  rw [exec_busy_of_hiddenAfter hs rfl, commandResult, hdrParseResult, ← idLenOf_toNat]
  by_cases hshort : buf.length < 3 ∨ buf.length < 4 + (idLenOf (byteAt buf 2)).toNat
  · rw [parseHeader_truncated hshort, if_pos hshort]
    rfl
  · have hid : (headerAt buf).id.length = (idLenOf (byteAt buf 2)).toNat := by
      simp [headerAt]
      omega
    rw [parseHeader_headerAt (by omega), if_neg hshort]
    simp only [responseBytes, headerFields_eq, hid]
    simp only [headerAt, topBit_toNat, low7_toNat, seqOf_toNat]
    rfl

/-- Settles O25: the body packed, or refused for its length. -/
theorem bodyPackAnswersTheBody : Obligations.BodyPackAnswersTheBody := by
  unfold Obligations.BodyPackAnswersTheBody
  intro s r cfh valve flags stats hs
  rw [exec_busy_of_hiddenAfter hs rfl, commandResult, bodyPackResult]
  obtain ⟨(hlen : stats.length ≤ 249), hpack⟩ | ⟨(hlen : 249 < stats.length), hpack⟩ :=
    packBody_cases ⟨cfh, valve, flags, stats⟩
  · rw [hpack, if_neg (by omega)]
    simp only [responseBytes, resultFields]
    rw [vb16_of_short (n := 2 + stats.length) (by simp [bodyContent]; omega) (by omega), bodyContent, valveHeatByte_eq_ofNat]
    rfl
  · rw [hpack, if_pos (by omega)]
    rfl

/-- Settles O26: the body string parsed, by its length. -/
theorem bodyParseAnswersTheFields : Obligations.BodyParseAnswersTheFields := by
  unfold Obligations.BodyParseAnswersTheFields
  intro s r body hs
  rw [exec_busy_of_hiddenAfter hs rfl, commandResult, bodyParseResult]
  obtain ⟨hlen, hparse⟩ | ⟨hlen, hparse⟩ | ⟨hlen, hparse⟩ := parseBody_cases body
  · rw [hparse, if_pos hlen]
    rfl
  · rw [hparse, if_neg (by omega), if_pos hlen]
    rfl
  · rw [hparse, if_neg (by omega), if_neg (by omega)]
    simp only [responseBytes, resultFields, optionalBodyFields_some, bodyOf, topBit_toNat, low7_toNat, List.length_drop]
    rfl

/-- Settles O28: the fields of a trailer serialise to it, and its counters are the reads at its front. -/
theorem trlParseAnswersTheFields : Obligations.TrlParseAnswersTheFields := by
  unfold Obligations.TrlParseAnswersTheFields
  intro s r trl hs hlen
  have hfields : resultFields (.trailer (parseTrailer trl)) = trl := packTrailer_parseTrailer hlen
  refine ⟨?_, fromBe24_memRead_toNat (by omega), fromBe24_memRead_toNat (by omega), rfl, rfl⟩
  rw [exec_busy_of_hiddenAfter hs rfl, commandResult, trlParseResult, responseBytes, hfields]
  rfl

/-- Settles O27: the packed trailer, its counters by arithmetic. -/
theorem trlPackAnswersTheTrailer : Obligations.TrlPackAnswersTheTrailer := by
  unfold Obligations.TrlPackAnswersTheTrailer
  intro s r rc mc tag alg hs
  rw [exec_busy_of_hiddenAfter hs rfl, commandResult, trlPackResult, responseBytes, resultFields, packTrailer,
    be24_eq_ofNat, be24_eq_ofNat]
  rfl

end Sys2Proof.Machine

namespace Sys2Proof

/-! ## Nonce and AAD (R140 to R146) -/

/-- `be24` loses no bit, so it tells counters apart. -/
theorem be24_inj {v w : U24} (h : be24 v = be24 w) : v = w := by
  rw [← fromBe24_be24 v, ← fromBe24_be24 w, h]

/-- The nonce by arithmetic: identity bytes, then both counters most significant byte first (R52, R140). -/
theorem buildNonce_eq_ofNat (id4 pre : Bytes) (rc mc : U24) :
    buildNonce id4 pre rc mc = id4 ++ pre ++
      [BitVec.ofNat 8 (rc.toNat / 65536), BitVec.ofNat 8 (rc.toNat / 256), BitVec.ofNat 8 rc.toNat,
        BitVec.ofNat 8 (mc.toNat / 65536), BitVec.ofNat 8 (mc.toNat / 256), BitVec.ofNat 8 mc.toNat] := by
  rw [buildNonce, be24_eq_ofNat, be24_eq_ofNat, List.append_assoc _ _ [_, _, _]]
  rfl

/-- An AAD that passes its buffer is Truncated (R143). -/
theorem buildAad_of_lt {buf : Bytes} {hbc : Nat} (h : buf.length < hbc) : buildAad buf hbc = .error .truncated := by
  rw [buildAad, if_pos h]

/-- An AAD inside its buffer is the buffer's first bytes (R143). -/
theorem buildAad_of_le {buf : Bytes} {hbc : Nat} (h : hbc ≤ buf.length) : buildAad buf hbc = .ok (buf.take hbc) := by
  rw [buildAad, if_neg (by omega), memRead, List.drop_zero]

/-- What follows a header that reaches its bodyLen byte does not change the AAD (R144, R146). -/
theorem frameAad_append {cfg : Config} {header : Bytes} {n : Nat} (h : 4 + n ≤ header.length) (rest : Bytes) :
    frameAad cfg (header ++ rest) n = frameAad cfg header n := by
  have hfront : memRead (header ++ rest) 0 header.length = header := by
    rw [memRead_append_left _ _ _ _ (by omega), memRead_all]
  rw [← frameAad_memRead (buf := header ++ rest) (by simp) h, hfront]

/-- The AAD of a whole header: all of it, or all but its bodyLen byte, by the open parameter (R144). -/
theorem frameAad_of_length {cfg : Config} {header : Bytes} {n : Nat} (h : header.length = 4 + n) :
    frameAad cfg header n = .ok (if cfg.aadIncludesBodyLen then header else header.take (3 + n)) := by
  unfold frameAad
  cases cfg.aadIncludesBodyLen with
  | true =>
    rw [if_pos rfl, if_pos rfl, ← h, buildAad_of_le (Nat.le_refl _), List.take_length]
  | false =>
    rw [if_neg Bool.false_ne_true, if_neg Bool.false_ne_true, buildAad_of_le (by omega)]

/-- Settles O33: the encoder's header reaches its bodyLen byte, so the AAD reads nothing after it. -/
theorem bothSidesFeedTheSameAad : Obligations.BothSidesFeedTheSameAad := by
  unfold Obligations.BothSidesFeedTheSameAad
  intro cfg f header rest hheader
  have hlen : header.length = 4 + f.id.length := frameHeader_length hheader
  exact ⟨frameAad_append (Nat.le_of_eq hlen.symm) rest, frameAad_of_length hlen⟩

/-- Settles O31: the counters are the last two three-byte parts of the nonce, and `be24` tells each apart. -/
theorem nonceIsInjectiveInTheCounters : Obligations.NonceIsInjectiveInTheCounters := by
  unfold Obligations.NonceIsInjectiveInTheCounters
  intro id4 pre rc mc rc' mc' h
  obtain ⟨hfront, hmc⟩ := List.append_inj' h rfl
  exact ⟨be24_inj (List.append_cancel_left hfront), be24_inj hmc⟩

end Sys2Proof

namespace Sys2Proof.Machine

/-! ## The unit commands of 42_nonce_aad.md -/

/-- Settles O30: the nonce built, its counters by arithmetic. -/
theorem nonceBuildAnswersTheNonce : Obligations.NonceBuildAnswersTheNonce := by
  unfold Obligations.NonceBuildAnswersTheNonce
  intro s r id4 pre rc mc hs
  rw [exec_busy_of_hiddenAfter hs rfl, commandResult, nonceBuildResult, responseBytes, resultFields, buildNonce_eq_ofNat]
  rfl

/-- Settles O32: the first bytes of the buffer, or Truncated. -/
theorem aadBuildAnswersTheFirstBytes : Obligations.AadBuildAnswersTheFirstBytes := by
  unfold Obligations.AadBuildAnswersTheFirstBytes
  intro s r buf hbc hs
  rw [exec_busy_of_hiddenAfter hs rfl, commandResult, aadBuildResult]
  by_cases hshort : buf.length < hbc.toNat
  · rw [buildAad_of_lt hshort, if_pos hshort]
    rfl
  · have hfits : hbc.toNat ≤ buf.length := Nat.le_of_not_lt hshort
    rw [buildAad_of_le hfits, if_neg hshort]
    simp only [responseBytes, resultFields, vb16_eq_ofNat, List.length_take_of_le hfits]
    rfl

end Sys2Proof.Machine

namespace Sys2Proof

/-! ## Padding (R150 to R156) -/

/-- The fields of a body by arithmetic (R85). -/
theorem bodyFields_eq (b : Body) :
    bodyFields b =
      [BitVec.ofNat 8 b.callForHeat.toNat, BitVec.ofNat 8 b.valvePos.toNat, b.flags,
        BitVec.ofNat 8 (b.stats.length / 256), BitVec.ofNat 8 b.stats.length] ++ b.stats :=
  (List.cons.inj (optionalBodyFields_some b)).2

/-- The content of a body is two bytes and the stats (R150). -/
theorem bodyContent_length (b : Body) : (bodyContent b).length = 2 + b.stats.length := by
  rw [bodyContent, List.length_append]
  rfl

/-- A string in which no byte differs from zero is all zeros. -/
theorem any_ne_zero_eq_false_iff {s : Bytes} : s.any (fun x => x != 0x00) = false ↔ s = zeros s.length := by
  simp [List.eq_replicate_iff]

/-- A declared length of 32 or more is refused first (R150). -/
theorem padBlock_of_tooLarge (b : Body) {dbl : Nat} (h : 32 ≤ dbl) :
    padBlock b dbl = .error .bodyTooLargeForSecureBlock := if_pos h

/-- A declared length that fits the block and is not the content's is refused next (R150). -/
theorem padBlock_of_wrongLength {b : Body} {dbl : Nat} (hfits : ¬ 32 ≤ dbl) (h : dbl ≠ 2 + b.stats.length) :
    padBlock b dbl = .error .invalidBodyLength := by
  rw [padBlock, if_neg hfits, if_pos h]

/-- A body of up to 29 stats bytes pads to its content, zeros, and the count of those zeros (R151, R152). -/
theorem padBlock_of_stats_le {b : Body} (h : b.stats.length ≤ 29) :
    padBlock b (2 + b.stats.length) =
      .ok (bodyContent b ++ zeros (29 - b.stats.length) ++ [lenByte (29 - b.stats.length)]) := by
  have hfits : ¬ 32 ≤ 2 + b.stats.length := by omega
  have hcount : 31 - (2 + b.stats.length) = 29 - b.stats.length := by omega
  rw [padBlock, if_neg hfits, if_neg (not_not.mpr rfl), hcount]

/-- A block whose count is above 29, or whose padding is not all zeros, is refused (R154). -/
theorem unpadBlock_of_malformed {pt : Bytes}
    (h : 29 < (byteAt pt 31).toNat ∨
      (memRead pt (31 - (byteAt pt 31).toNat) (byteAt pt 31).toNat).any (fun x => x != 0x00) = true) :
    unpadBlock pt = .error .malformedHeader := by
  cases hres : unpadBlock pt with
  | error err => rw [unpadBlock_error hres]
  | ok b =>
    obtain ⟨hcount, hzeros, -⟩ := unpadBlock_ok hres
    obtain hlarge | hnonzero := h
    · omega
    · exact absurd hnonzero (by rw [hzeros]; decide)

section PaddedBlock
variable {pt : Bytes} {c : Nat}

/-- A block with a count `c` of at most 29 and `c` zeros before it unpads to the fields of its first `31 - c` bytes
(R153, R155). -/
theorem unpadBlock_of_zeros (hlen : pt.length = 32) (hc : (byteAt pt 31).toNat = c) (hmax : c ≤ 29)
    (hzeros : (memRead pt (31 - c) c).any (fun x => x != 0x00) = false) :
    unpadBlock pt = .ok (bodyOf (memRead pt 0 (31 - c))) := by
  have hparse : parseBody (memRead pt 0 (31 - c)) = .ok (some (bodyOf (memRead pt 0 (31 - c)))) :=
    parseBody_of_two_le (by rw [memRead_length]; omega)
  simp only [unpadBlock, hc]
  rw [if_neg (by omega), if_neg (by omega), if_neg (Bool.eq_false_iff.mp hzeros), hparse]

/-- The fields of a block's content are read from the block itself (R123, R155). -/
theorem bodyOf_blockContent (hmax : c ≤ 29) :
    bodyOf (memRead pt 0 (31 - c)) =
      { callForHeat := topBit (byteAt pt 0), valvePos := low7 (byteAt pt 0), flags := byteAt pt 1
        stats := memRead pt 2 (29 - c) } := by
  have hstats : (memRead pt 0 (31 - c)).drop 2 = memRead pt 2 (29 - c) := by
    simp only [memRead, List.drop_zero, List.drop_take, Nat.sub_right_comm 31 c 2]
  rw [bodyOf, byteAt_memRead (by omega), byteAt_memRead (by omega), hstats]

/-- A block with a count `c` holds 29 less `c` stats bytes (R153). -/
theorem blockStats_length (hlen : pt.length = 32) : (memRead pt 2 (29 - c)).length = 29 - c := by
  rw [memRead_length]
  omega

/-- A block is its content, its padding and its last byte, wherever the content ends. -/
theorem block_eq_parts (hlen : pt.length = 32) (hc : c ≤ 31) :
    pt = memRead pt 0 (31 - c) ++ memRead pt (31 - c) c ++ [byteAt pt 31] := by
  have hcontent : memRead pt 0 (31 - c) ++ memRead pt (31 - c) c = memRead pt 0 31 := by
    simpa [Nat.sub_add_cancel hc] using memRead_append_memRead pt 0 (31 - c) c
  calc pt = memRead pt 0 pt.length := (memRead_all pt).symm
    _ = memRead pt 0 (31 + 1) := by rw [hlen]
    _ = memRead pt 0 31 ++ [byteAt pt 31] := by rw [memRead_concat (by omega), Nat.zero_add]
    _ = _ := by rw [hcontent]

end PaddedBlock

/-- A content, zeros up to byte 31 and a last byte are a whole block (R152). -/
theorem paddedBlock_length {content : Bytes} {c : Nat} (hsum : content.length + c = 31) (last : Byte) :
    (content ++ zeros c ++ [last]).length = 32 := by
  rw [List.length_append, List.length_append, List.length_replicate, hsum, List.length_singleton]

/-- A content of two bytes or more, zeros up to byte 31 and their count unpad to the fields of the content (R153,
R155). -/
theorem unpadBlock_layout {content : Bytes} {c : Nat} (hmin : 2 ≤ content.length) (hsum : content.length + c = 31) :
    unpadBlock (content ++ zeros c ++ [lenByte c]) = .ok (bodyOf content) := by
  have hcontent : 31 - c = content.length := by omega
  have hcount : byteAt (content ++ zeros c ++ [lenByte c]) 31 = lenByte c :=
    byteAt_append_cons (by simp [hsum]) (lenByte c) []
  have hzeros : memRead (content ++ zeros c ++ [lenByte c]) (31 - c) c = zeros c :=
    memRead_slice hcontent.symm List.length_replicate
  have hread : memRead (content ++ zeros c ++ [lenByte c]) 0 (31 - c) = content := by
    rw [hcontent, List.append_assoc, memRead_append_left _ _ _ _ (by omega), memRead_all]
  rw [unpadBlock_of_zeros (paddedBlock_length hsum _) (by rw [hcount, lenByte_toNat c (by omega)]) (by omega)
    (by rw [hzeros]; simp), hread]

/-- Padding a body of up to 29 stats bytes gives a whole block that unpads to the body (R156). -/
theorem unpadBlock_padBlock {b : Body} (h : b.stats.length ≤ 29) :
    ∃ pt, padBlock b (2 + b.stats.length) = .ok pt ∧ pt.length = 32 ∧ unpadBlock pt = .ok b := by
  have hlen : (bodyContent b).length = 2 + b.stats.length := bodyContent_length b
  have hsum : (bodyContent b).length + (29 - b.stats.length) = 31 := by omega
  refine ⟨_, padBlock_of_stats_le h, paddedBlock_length hsum _, ?_⟩
  rw [unpadBlock_layout (by omega) hsum, bodyOf_bodyContent]

/-- A block that unpads is the padding of the fields it gives: its padding is zeros and its last byte counts them
(R156). -/
theorem padBlock_of_unpadBlock {pt : Bytes} {b : Body} (hlen : pt.length = 32) (h : unpadBlock pt = .ok b) :
    padBlock b (2 + b.stats.length) = .ok pt := by
  obtain ⟨hmax, hany, hparse⟩ := unpadBlock_ok h
  generalize hc : (byteAt pt 31).toNat = c at hmax hany hparse
  have hcontent : 2 ≤ (memRead pt 0 (31 - c)).length := by
    rw [memRead_length]
    omega
  have hzeros : memRead pt (31 - c) c = zeros c := by
    rw [any_ne_zero_eq_false_iff.mp hany, memRead_length, Nat.min_eq_left (by omega)]
  have hlast : lenByte c = byteAt pt 31 := by
    rw [← hc, lenByte, BitVec.ofNat_toNat, BitVec.setWidth_eq]
  rw [parseBody_of_two_le hcontent] at hparse
  cases hparse
  have hstats : (bodyOf (memRead pt 0 (31 - c))).stats.length = 29 - c := by
    rw [bodyOf_blockContent hmax, blockStats_length hlen]
  rw [padBlock_of_stats_le (by omega), hstats, bodyContent_bodyOf hcontent, Nat.sub_sub_self hmax, hlast, ← hzeros,
    ← block_eq_parts hlen (by omega)]

/-- Settles O36: a padded body unpads to itself, and an accepted block is cut into the parts its padding has. -/
theorem unpadInvertsPad : Obligations.UnpadInvertsPad := by
  unfold Obligations.UnpadInvertsPad
  exact ⟨fun _ h => unpadBlock_padBlock h, fun _ _ hlen h => padBlock_of_unpadBlock hlen h⟩

end Sys2Proof

namespace Sys2Proof.Machine

/-! ## The unit commands of 43_padding.md -/

/-- Settles O34: the block padded, or refused for the declared length. -/
theorem padBodyAnswersTheBlock : Obligations.PadBodyAnswersTheBlock := by
  unfold Obligations.PadBodyAnswersTheBlock
  intro s r cfh valve flags dbl stats hs
  rw [exec_busy_of_hiddenAfter hs rfl, commandResult, padBodyResult]
  by_cases hlarge : 32 ≤ dbl.toNat
  · rw [padBlock_of_tooLarge _ hlarge, if_pos hlarge]
    rfl
  · rw [if_neg hlarge]
    by_cases hwrong : dbl.toNat ≠ 2 + stats.length
    · rw [padBlock_of_wrongLength hlarge hwrong, if_pos hwrong]
      rfl
    · have hdbl : dbl.toNat = 2 + stats.length := not_not.mp hwrong
      have hpad := padBlock_of_stats_le (b := ⟨cfh, valve, flags, stats⟩) (show stats.length ≤ 29 by omega)
      rw [if_neg hwrong, hdbl, hpad, bodyContent, valveHeatByte_eq_ofNat]
      rfl

/-- Settles O35: the fields of the block's content, or MalformedHeader. -/
theorem padUnpadAnswersTheFields : Obligations.PadUnpadAnswersTheFields := by
  unfold Obligations.PadUnpadAnswersTheFields
  intro s r pt hs hlen
  rw [exec_busy_of_hiddenAfter hs rfl, commandResult, padUnpadResult, ← memRead, ← memRead]
  by_cases hbad : 29 < (byteAt pt 31).toNat ∨
      (memRead pt (31 - (byteAt pt 31).toNat) (byteAt pt 31).toNat).any (fun x => x != 0x00) = true
  · rw [unpadBlock_of_malformed hbad, if_pos hbad]
    rfl
  · rw [if_neg hbad]
    obtain ⟨hcount, hzeros⟩ := not_or.mp hbad
    have hmax : (byteAt pt 31).toNat ≤ 29 := Nat.le_of_not_lt hcount
    have hshort : 29 - (byteAt pt 31).toNat < 256 := by omega
    rw [unpadBlock_of_zeros hlen rfl hmax (Bool.eq_false_iff.mpr hzeros), bodyOf_blockContent hmax]
    simp only [responseBytes, resultFields, bodyFields_eq, topBit_toNat, low7_toNat, blockStats_length hlen,
      Nat.div_eq_of_lt hshort]
    rfl

end Sys2Proof.Machine

namespace Sys2Proof

/-! ## AES-128-GCM meets the AEAD contract (R160 to R164) -/

/-- XOR with a string that is long enough keeps the length. -/
theorem xorBytes_length {s t : Bytes} (h : s.length ≤ t.length) : (xorBytes s t).length = s.length := by
  rw [xorBytes, List.length_zipWith, Nat.min_eq_left h]

/-- XOR with a string that is long enough is its own inverse. -/
theorem xorBytes_xorBytes {s t : Bytes} (h : s.length ≤ t.length) : xorBytes (xorBytes s t) t = s := by
  refine List.ext_getElem (by rw [xorBytes_length (by rwa [xorBytes_length h]), xorBytes_length h]) ?_
  intro i _ _
  simp only [xorBytes, List.getElem_zipWith]
  rw [BitVec.xor_assoc, BitVec.xor_self, BitVec.xor_zero]

/-- Each counter value gives one block of 16 bytes. -/
@[simp] theorem gcmStreamBlock_length (key nonce : Bytes) (c : Nat) : (gcmStreamBlock key nonce c).length = 16 := by
  simp [gcmStreamBlock, blockBytes]

/-- The keystream of `n` blocks has 16 bytes for each. -/
theorem gcmStream_length (key nonce : Bytes) (n : Nat) : (gcmStream key nonce n).length = 16 * n := by
  simp [gcmStream, List.length_flatMap, Nat.mul_comm]

/-- The keystream that `gcmCrypt` takes for a string covers the string. -/
theorem length_le_gcmStream_length (key nonce s : Bytes) :
    s.length ≤ (gcmStream key nonce (s.length / 16 + 1)).length := by
  rw [gcmStream_length]
  omega

/-- Counter mode keeps the length. -/
theorem gcmCrypt_length (key nonce s : Bytes) : (gcmCrypt key nonce s).length = s.length :=
  xorBytes_length (length_le_gcmStream_length key nonce s)

/-- Counter mode is its own inverse: the keystream is chosen by the length alone, which the first pass keeps. -/
theorem gcmCrypt_gcmCrypt (key nonce s : Bytes) : gcmCrypt key nonce (gcmCrypt key nonce s) = s := by
  rw [gcmCrypt, gcmCrypt_length, gcmCrypt]
  exact xorBytes_xorBytes (length_le_gcmStream_length key nonce s)

/-- AES-128-GCM opens exactly what it seals: the tag is a function of the ciphertext, and counter mode is its own
inverse (R162). -/
theorem aesGcmOpen_eq_some_iff {key : Vector Byte 16} {nonce : Vector Byte 12} {aad ct pt : Bytes}
    {tag : Vector Byte 16} :
    aesGcmOpen key nonce aad ct tag = some pt ↔ aesGcmSeal key nonce aad pt = (ct, tag) := by
  rw [aesGcmOpen, aesGcmSeal, Option.ite_none_right_eq_some]
  constructor
  · rintro ⟨rfl, hopen⟩
    rw [← Option.some.inj hopen, gcmCrypt_gcmCrypt]
  · intro hseal
    obtain ⟨rfl, rfl⟩ := Prod.mk.inj hseal
    exact ⟨rfl, congrArg some (gcmCrypt_gcmCrypt _ _ pt)⟩

/-- Settles O37: counter mode keeps the length, and what opens is exactly what was sealed. -/
theorem aesGcmMeetsTheAeadContract : Obligations.AesGcmMeetsTheAeadContract := by
  unfold Obligations.AesGcmMeetsTheAeadContract
  refine ⟨?plen, ?popenSeal, ?popenOnlySealed⟩
  case plen => exact fun key nonce _ pt => gcmCrypt_length key.toList nonce.toList pt
  case popenSeal => exact fun _ _ _ _ => aesGcmOpen_eq_some_iff.mpr rfl
  case popenOnlySealed => exact fun _ _ _ _ _ _ => aesGcmOpen_eq_some_iff.mp

end Sys2Proof

namespace Sys2Proof

/-! ## What the encoder checks, and the frame it makes when nothing is wrong (R170 to R181) -/

/-- The check before encoding, as the order of R181 over propositions. -/
theorem encodeError_eq (f : Frame) :
    encodeError f =
      if f.secure = true ∧ f.body ≠ none ∧ 32 ≤ declaredBodyLen f then some .bodyTooLargeForSecureBlock
      else if 15 < f.id.length then some .invalidIdLength
      else if f.secure = true ∧ f.id.length < 4 then some .invalidIdLength
      else if f.secure = false ∧ (251 < declaredBodyLen f ∨ 255 < 4 + f.id.length + declaredBodyLen f) then
        some .invalidBodyLength
      else none := by
  simp only [encodeError, Bool.and_eq_true, Bool.or_eq_true, Bool.not_eq_true', decide_eq_true_eq, and_assoc,
    Option.isSome_iff_ne_none]

/-- A frame without an encode error has the lengths that R171, R173 and R174 allow, and those lengths suffice. -/
theorem encodeError_eq_none_iff {f : Frame} :
    encodeError f = none ↔ f.id.length ≤ 15 ∧
      (f.secure = true → 4 ≤ f.id.length ∧ ∀ b, f.body = some b → b.stats.length ≤ 29) ∧
      (f.secure = false → declaredBodyLen f ≤ 251 ∧ 4 + f.id.length + declaredBodyLen f ≤ 255) := by
  have hblock : f.body ≠ none ∧ 32 ≤ declaredBodyLen f ↔ ¬ ∀ b, f.body = some b → b.stats.length ≤ 29 := by
    unfold declaredBodyLen
    cases f.body with
    | none => simp
    | some b => simp; omega
  cases hsec : f.secure with
  | false => simp [encodeError_eq, hsec, ite_eq_iff]
  | true => simpa [encodeError_eq, hsec, hblock, ite_eq_iff] using and_rotate

/-- An encode error is the encoder's answer (R181). -/
theorem encodeFrame_of_encodeError {f : Frame} {e : Status} (h : encodeError f = some e) (cfg : Config)
    (tx : TxContext) : encodeFrame cfg f tx = .error e := by
  rw [encodeFrame, h]

/-- The header of a frame whose `id` fits (R111, R176, R177). -/
def headerBytes (f : Frame) : Bytes :=
  [lenByte (frameLength f), typeByte f.secure f.frameType, seqIdLenByte f.seqNo f.id.length] ++ f.id ++
    [lenByte (wireBodyLen f)]

/-- The content of the body a frame carries in the clear, empty without a body (R176). -/
def clearContent (f : Frame) : Bytes :=
  match f.body with
  | none => []
  | some b => bodyContent b

/-- The plaintext a frame seals: its body's content padded to one block, empty without a body (R151, R152, R177). -/
def blockContent (f : Frame) : Bytes :=
  match f.body with
  | none => []
  | some b => bodyContent b ++ zeros (29 - b.stats.length) ++ [lenByte (29 - b.stats.length)]

/-- The ciphertext and tag of a frame: its block sealed under its clear header (R144, R177). -/
def sealedContent (cfg : Config) (f : Frame) (tx : TxContext) : Bytes × Vector Byte 16 :=
  sealFrame cfg tx f.id (if cfg.aadIncludesBodyLen then headerBytes f else (headerBytes f).take (3 + f.id.length))
    (blockContent f)

/-- The length of an insecure frame, its CRC byte not counted (R175). -/
theorem frameLength_insecure {f : Frame} (hsec : f.secure = false) :
    frameLength f = 4 + f.id.length + wireBodyLen f := by
  have htrailer : trailerLen f.secure = 1 := by rw [hsec]; rfl
  rw [frameLength, htrailer]
  omega

/-- The length of a secure frame, its algorithm id not counted (R175). -/
theorem frameLength_secure {f : Frame} (hsec : f.secure = true) :
    frameLength f = 26 + f.id.length + wireBodyLen f := by
  have htrailer : trailerLen f.secure = 23 := by rw [hsec]; rfl
  rw [frameLength, htrailer]
  omega

theorem headerBytes_length (f : Frame) : (headerBytes f).length = 4 + f.id.length := by
  simp [headerBytes]
  omega

/-- The content in the clear has the length that the bodyLen byte tells (R176). -/
theorem clearContent_length {f : Frame} (hsec : f.secure = false) : (clearContent f).length = wireBodyLen f := by
  rw [wireBodyLen, if_neg (Bool.eq_false_iff.mp hsec), clearContent, declaredBodyLen]
  cases f.body with
  | none => rfl
  | some b => exact bodyContent_length b

section
variable {f : Frame} (herr : encodeError f = none)
include herr

theorem frameHeader_eq_headerBytes : frameHeader f = .ok (headerBytes f) := by
  obtain ⟨hid, -⟩ := encodeError_eq_none_iff.mp herr
  exact if_neg (Nat.not_lt.mpr hid)

theorem insecureBody_eq_clearContent (hsec : f.secure = false) : insecureBody f = .ok (clearContent f) := by
  obtain ⟨-, -, hfit⟩ := encodeError_eq_none_iff.mp herr
  obtain ⟨hmax, -⟩ := hfit hsec
  unfold declaredBodyLen at hmax
  unfold insecureBody clearContent
  cases hbody : f.body with
  | none => rfl
  | some b =>
    rw [hbody] at hmax
    exact if_neg (Nat.not_lt.mpr hmax)

theorem securePlaintext_eq_blockContent (hsec : f.secure = true) : securePlaintext f = .ok (blockContent f) := by
  obtain ⟨-, hfit, -⟩ := encodeError_eq_none_iff.mp herr
  obtain ⟨-, hstats⟩ := hfit hsec
  unfold securePlaintext blockContent declaredBodyLen
  cases hbody : f.body with
  | none => rfl
  | some b => exact padBlock_of_stats_le (hstats b hbody)

/-- A sealed plaintext has the length that the bodyLen byte tells (R174). -/
theorem blockContent_length (hsec : f.secure = true) : (blockContent f).length = wireBodyLen f := by
  obtain ⟨-, hfit, -⟩ := encodeError_eq_none_iff.mp herr
  obtain ⟨-, hstats⟩ := hfit hsec
  rw [wireBodyLen, if_pos hsec, blockContent]
  cases hbody : f.body with
  | none => rfl
  | some b =>
    have hmax := hstats b hbody
    exact paddedBlock_length (by rw [bodyContent_length]; omega) _

/-- Without an encode error an insecure frame is header, content and the whitened CRC of both (R176). -/
theorem encodeFrame_insecure (hsec : f.secure = false) (cfg : Config) (tx : TxContext) :
    encodeFrame cfg f tx = .ok (headerBytes f ++ clearContent f ++
      [whiten (crc7Fold Params.crcInit (headerBytes f ++ clearContent f))]) := by
  simp only [encodeFrame, herr, frameHeader_eq_headerBytes herr, hsec, Bool.false_eq_true, if_false, encodeInsecure,
    insecureBody_eq_clearContent herr hsec, frameCrc_all]

/-- Without an encode error a secure frame is header, ciphertext and trailer (R177 to R180). -/
theorem encodeFrame_secure (hsec : f.secure = true) (cfg : Config) (tx : TxContext) :
    encodeFrame cfg f tx = .ok (headerBytes f ++ (sealedContent cfg f tx).1 ++
      packTrailer (secureTrailerOf tx (sealedContent cfg f tx).2)) := by
  simp only [encodeFrame, herr, frameHeader_eq_headerBytes herr, hsec, if_true, encodeSecure,
    securePlaintext_eq_blockContent herr hsec, frameAad_of_length (headerBytes_length f), sealedContent]

/-- Without an encode error the encoder makes a frame (R181). -/
theorem encodeFrame_isOk (cfg : Config) (tx : TxContext) : ∃ w, encodeFrame cfg f tx = .ok w := by
  cases hsec : f.secure with
  | false => exact ⟨_, encodeFrame_insecure herr hsec cfg tx⟩
  | true => exact ⟨_, encodeFrame_secure herr hsec cfg tx⟩

end

/-- Settles O38: the encoder's answer is the check's, and without an encode error every part of a frame packs. -/
theorem encoderErrorOrder : Obligations.EncoderErrorOrder := by
  unfold Obligations.EncoderErrorOrder
  refine ⟨fun cfg req e hreq => ?_, fun cfg f tx dbl hdbl => ?_⟩
  · rw [respond, hreq]
    rfl
  · obtain rfl : dbl = declaredBodyLen f := hdbl
    have herr := encodeError_eq f
    split_ifs at herr ⊢
    · exact encodeFrame_of_encodeError herr cfg tx
    · exact encodeFrame_of_encodeError herr cfg tx
    · exact encodeFrame_of_encodeError herr cfg tx
    · exact encodeFrame_of_encodeError herr cfg tx
    · exact encodeFrame_isOk herr cfg tx

/-! ## The layout of an encoded frame (R185) -/

/-- The first byte of a frame is its length byte (R175). -/
theorem byteAt_headerBytes_zero (f : Frame) (rest : Bytes) :
    byteAt (headerBytes f ++ rest) 0 = lenByte (frameLength f) := rfl

/-- The byte behind the ID is the bodyLen byte (R176, R177). -/
theorem byteAt_headerBytes_bodyLen (f : Frame) (rest : Bytes) :
    byteAt (headerBytes f ++ rest) (3 + f.id.length) = lenByte (wireBodyLen f) := by
  rw [headerBytes, List.append_assoc _ [_] rest]
  exact byteAt_append_cons (by simp; omega) _ rest

/-- An encoded frame is its header and what follows, `L` bytes together, and one byte more: the CRC of those before it,
or the algorithm id 0x80 (R175, R176, R180). -/
theorem encodeFrame_layout {cfg : Config} {f : Frame} {tx : TxContext} {w : Bytes} (hlen : PLen cfg)
    (e : encodeFrame cfg f tx = .ok w) :
    encodeError f = none ∧ ∃ rest last, w = headerBytes f ++ rest ++ [last] ∧
      (headerBytes f ++ rest).length = frameLength f ∧
      (f.secure = false → last = whiten (crc7Fold Params.crcInit (headerBytes f ++ rest))) ∧
      (f.secure = true → last = 0x80) := by
  obtain ⟨herr, -⟩ := encodeFrame_ok e
  refine ⟨herr, ?_⟩
  cases hsec : f.secure with
  | false =>
    rw [encodeFrame_insecure herr hsec] at e
    cases e
    refine ⟨_, _, rfl, ?_, fun _ => rfl, nofun⟩
    rw [List.length_append, headerBytes_length, clearContent_length hsec, frameLength_insecure hsec]
  | true =>
    rw [encodeFrame_secure herr hsec] at e
    cases e
    have hct : (sealedContent cfg f tx).1.length = wireBodyLen f :=
      (hlen _ _ _ _).trans (blockContent_length herr hsec)
    refine ⟨(sealedContent cfg f tx).1 ++
      (be24 tx.restartCounter ++ be24 tx.msgCounter ++ (sealedContent cfg f tx).2.toList), 0x80, ?_, ?_, nofun,
      fun _ => rfl⟩
    · simp [packTrailer, secureTrailerOf]
    · simp [headerBytes_length, hct, frameLength_secure hsec]
      omega

/-- Settles O42: each clause reads one place of the layout. -/
theorem encodedFramesHaveTheFrameLayout : Obligations.EncodedFramesHaveTheFrameLayout := by
  unfold Obligations.EncodedFramesHaveTheFrameLayout
  intro cfg f tx w hlen e
  obtain ⟨herr, rest, last, rfl, hL, hinsecure, hsecure⟩ := encodeFrame_layout hlen e
  have hfirst : (byteAt (headerBytes f ++ rest ++ [last]) 0).toNat = frameLength f := lenByte_frameLength herr
  have hlast : byteAt (headerBytes f ++ rest ++ [last]) (frameLength f) = last := byteAt_append_cons hL last []
  have hbyte : frameLength f < 256 := hfirst ▸ byte_toNat_lt _
  have hbodyLen : (lenByte (wireBodyLen f)).toNat = wireBodyLen f :=
    lenByte_toNat _ (by unfold frameLength at hbyte; omega)
  have hsize : (headerBytes f ++ rest ++ [last]).length = frameLength f + 1 := by rw [List.length_append, hL]; rfl
  rw [hfirst, hlast, hsize]
  refine ⟨rfl, hbyte, ?_, rfl, fun hsec => ?_, hsecure⟩
  · rw [List.append_assoc, byteAt_headerBytes_bodyLen, hbodyLen]
  · rw [hinsecure hsec]
    exact frameCrc_slice (before := []) rfl hL

/-! ## The frame that FRAME.ENC's operands spread, by arithmetic (R170) -/

/-- The header of a frame of at most 15 ID bytes, by arithmetic (R72, R73, R111). -/
theorem headerBytes_eq_ofNat {f : Frame} (hid : f.id.length ≤ 15) :
    headerBytes f = [BitVec.ofNat 8 (frameLength f), BitVec.ofNat 8 (128 * f.secure.toNat + f.frameType.toNat),
      BitVec.ofNat 8 (16 * f.seqNo.toNat + f.id.length)] ++ f.id ++ [BitVec.ofNat 8 (wireBodyLen f)] := by
  rw [headerBytes, typeByte_eq_ofNat, seqIdLenByte_eq_ofNat _ hid]
  rfl

section
variable {sec hasBody cfh : Bool} {ftype valve : BitVec 7} {seq : BitVec 4} {flags : Byte} {id stats : Bytes}

/-- The content of the operands in the clear: empty without a body, whatever the body operands hold (R170). -/
theorem clearContent_frameOfOperands :
    clearContent (frameOfOperands sec ftype seq id hasBody cfh valve flags stats) =
      if hasBody then [BitVec.ofNat 8 (128 * cfh.toNat + valve.toNat), flags] ++ stats else [] := by
  rw [← valveHeatByte_eq_ofNat]
  cases hasBody <;> rfl

/-- The block of the operands: empty without a body, whatever the body operands hold (R170, R177). -/
theorem blockContent_frameOfOperands :
    blockContent (frameOfOperands sec ftype seq id hasBody cfh valve flags stats) =
      if hasBody then [BitVec.ofNat 8 (128 * cfh.toNat + valve.toNat), flags] ++ stats ++ zeros (29 - stats.length) ++
        [BitVec.ofNat 8 (29 - stats.length)] else [] := by
  rw [← valveHeatByte_eq_ofNat]
  cases hasBody <;> rfl

end

end Sys2Proof

namespace Sys2Proof.Machine

/-! ## FRAME.ENC (R170 to R183) -/

section
variable {s : State} {r : Request} {sec hasBody cfh : Bool} {ftype valve : BitVec 7} {seq : BitVec 4} {flags : Byte}
  {id stats key pre : Bytes} {rc mc : U24}

/-- From BUSY a FRAME.ENC answers its result, laid out, and leaves the latches cleared (R170, R184). -/
theorem exec_frameEnc_busy (h : s.phase = .busy r) :
    exec (.frameEnc sec ftype seq id hasBody cfh valve flags stats key pre rc mc) s = .next { answeredWith s r
      (responseBytes (frameEncResult Config.block sec ftype seq id hasBody cfh valve flags stats key pre rc mc))
      with hidden := Hidden.cleared } := by
  rw [exec_eq]
  simp only [hiddenAfter, encHidden_eq_cleared]
  rw [deliver_busy (s := { s with hidden := Hidden.cleared }) h]
  rfl

/-- From BUSY a FRAME.ENC whose operands encode answers 0x00 and the frame (R85, R170). -/
theorem exec_frameEnc_of_ok (h : s.phase = .busy r) {w : Bytes}
    (hw : encodeFrame Config.block (frameOfOperands sec ftype seq id hasBody cfh valve flags stats)
      { key := key, presharedId := pre, restartCounter := rc, msgCounter := mc } = .ok w) :
    exec (.frameEnc sec ftype seq id hasBody cfh valve flags stats key pre rc mc) s =
      .next { answeredWith s r ([0x00] ++ vb16 w) with hidden := Hidden.cleared } := by
  rw [exec_frameEnc_busy h, frameEncResult, hw]
  rfl

end

/-- Settles O39: the error of `EncodeFrame` is the response. -/
theorem frameEncAnswersItsErrorsAlone : Obligations.FrameEncAnswersItsErrorsAlone := by
  unfold Obligations.FrameEncAnswersItsErrorsAlone
  intro s r sec hasBody cfh ftype valve seq flags id stats key pre rc mc e hs he
  rw [exec_frameEnc_busy hs, frameEncResult, he]
  rfl

/-- Settles O40: the lengths exclude every encode error, and the covered bytes are header and content. -/
theorem frameEncAnswersTheInsecureFrame : Obligations.FrameEncAnswersTheInsecureFrame := by
  unfold Obligations.FrameEncAnswersTheInsecureFrame
  intro s r hasBody cfh ftype valve seq flags id stats key pre content covered rc mc hs hcontent hcovered hid htotal
  generalize hf : frameOfOperands false ftype seq id hasBody cfh valve flags stats = f
  have hsec : f.secure = false := by rw [← hf]; rfl
  have hfid : f.id = id := by rw [← hf]; rfl
  have hclear : clearContent f = content := by rw [← hf, clearContent_frameOfOperands, hcontent]
  have hwire : wireBodyLen f = content.length := by rw [← hclear, clearContent_length hsec]
  have hdeclared : declaredBodyLen f = content.length := by rw [← hwire, wireBodyLen, hsec]; rfl
  have herr : encodeError f = none :=
    encodeError_eq_none_iff.mpr ⟨by rwa [hfid], by simp [hsec], fun _ => by rw [hfid]; omega⟩
  have hlength : frameLength f = 4 + id.length + content.length := by
    rw [frameLength_insecure hsec, hfid, hwire]
  have hcover : headerBytes f ++ clearContent f = covered := by
    rw [headerBytes_eq_ofNat (by rwa [hfid]), hlength, hwire, hclear, hcovered, hfid, ← hf]
    simp [frameOfOperands]
  rw [exec_frameEnc_of_ok hs (by rw [hf]; exact encodeFrame_insecure herr hsec _ _), hcover, vb16_eq_ofNat,
    List.length_append]
  rfl

/-- Settles O41: the lengths exclude every encode error, and the block is sealed under the header's clear bytes. -/
theorem frameEncAnswersTheSecureFrame : Obligations.FrameEncAnswersTheSecureFrame := by
  unfold Obligations.FrameEncAnswersTheSecureFrame
  intro s r hasBody cfh ftype valve seq flags id stats key pre pt header ct tag rc mc hs hpt hheader hseal hmin hid
    hstats
  generalize hf : frameOfOperands true ftype seq id hasBody cfh valve flags stats = f
  have hsec : f.secure = true := by rw [← hf]; rfl
  have hfid : f.id = id := by rw [← hf]; rfl
  have hblock : blockContent f = pt := by rw [← hf, blockContent_frameOfOperands, hpt]
  have hbody : ∀ b, f.body = some b → b.stats.length ≤ 29 := by
    rw [← hf]
    intro b hb
    cases hasBody <;> cases hb
    exact hstats rfl
  have herr : encodeError f = none :=
    encodeError_eq_none_iff.mpr ⟨by rwa [hfid], fun _ => ⟨by rwa [hfid], hbody⟩, by simp [hsec]⟩
  have hwire : wireBodyLen f = pt.length := by rw [← hblock, blockContent_length herr hsec]
  have hlength : frameLength f = 26 + id.length + pt.length := by
    rw [frameLength_secure hsec, hfid, hwire]
  have hhead : headerBytes f = header := by
    rw [headerBytes_eq_ofNat (by rwa [hfid]), hlength, hwire, hheader, hfid, ← hf]
    rfl
  have hsealed : sealedContent Config.block f ⟨key, pre, rc, mc⟩ = (ct, tag) := by
    rw [sealedContent, hhead, hblock, hfid, hseal]
    rfl
  rw [exec_frameEnc_of_ok hs (by rw [hf]; exact encodeFrame_secure herr hsec _ _), hsealed, hhead]
  simp [packTrailer, secureTrailerOf]

end Sys2Proof.Machine

namespace Sys2Proof

/-! ## Reads of a read, and the frame at the front of a buffer (R16, R191 to R196) -/

/-- A read inside a read is a read at the sum of the places. -/
theorem memRead_memRead_at {s : Bytes} {a m i n : Nat} (h : i + n ≤ m) :
    memRead (memRead s a m) i n = memRead s (a + i) n := by
  simp only [memRead, List.drop_take, List.drop_drop, List.take_take, Nat.min_eq_left (show n ≤ m - i by omega)]

/-- A byte of a read is the byte at the sum of the places. -/
theorem byteAt_memRead_at {s : Bytes} {a m i : Nat} (h : i < m) : byteAt (memRead s a m) i = byteAt s (a + i) := by
  simp [byteAt, memRead, List.getElem?_take_of_lt h, List.getElem?_drop]

/-- A byte in the first part of a concatenation. -/
theorem byteAt_append_left {s : Bytes} {i : Nat} (h : i < s.length) (t : Bytes) : byteAt (s ++ t) i = byteAt s i := by
  simp [byteAt, List.getElem?_append_left h]

/-- The secure flag is set where the byte is 128 or more (R72). -/
theorem topBit_eq_decide (b : Byte) : topBit b = decide (128 ≤ b.toNat) := by
  have hb : b.toNat < 256 := byte_toNat_lt b
  have htop := topBit_toNat b
  cases h : topBit b <;> rw [h] at htop <;> simp at htop ⊢ <;> omega

/-- The bodyLen values that a mode refuses, over propositions (R194, R196). -/
theorem badBodyLen_eq_true_iff {secure : Bool} {bodyLen : Nat} :
    badBodyLen secure bodyLen = true ↔
      (secure = true ∧ bodyLen ≠ 0 ∧ bodyLen ≠ 32) ∨ (secure = false ∧ bodyLen = 1) := by
  cases secure <;> simp [badBodyLen]

/-- A buffer begins with a whole frame whose header is `h` and agrees with its length byte: every check of R191 to R196
passes. -/
structure FrameFits (buf : Bytes) (h : Header) : Prop where
  header : headerAt buf = h
  inBuffer : h.len.toNat + 1 ≤ buf.length
  length_eq : h.len.toNat = expectedLength h
  secureId : h.secure = true → 4 ≤ h.id.length
  bodyLen_ok : badBodyLen h.secure h.bodyLen.toNat = false

/-- The length byte of a secure frame (R195). -/
theorem expectedLength_secure {h : Header} (hsec : h.secure = true) :
    expectedLength h = 26 + h.id.length + h.bodyLen.toNat := by
  simp only [expectedLength, trailerLen, hsec, if_true, Params.secureTrailer]
  omega

/-- The length byte of an insecure frame (R195). -/
theorem expectedLength_insecure {h : Header} (hsec : h.secure = false) :
    expectedLength h = 4 + h.id.length + h.bodyLen.toNat := by
  simp only [expectedLength, trailerLen, hsec, Params.insecureTrailer, Bool.false_eq_true, if_false]
  omega

/-- A frame has at least its header and one trailer byte (R195). -/
theorem expectedLength_ge (h : Header) : 4 + h.id.length + h.bodyLen.toNat ≤ expectedLength h := by
  cases hsec : h.secure with
  | true => rw [expectedLength_secure hsec]; omega
  | false => rw [expectedLength_insecure hsec]

/-- An ID that the buffer holds whole has the length that the seq/idLen byte tells. -/
theorem headerAt_id_length {buf : Bytes} (h : 3 + (idLenOf (byteAt buf 2)).toNat ≤ buf.length) :
    (headerAt buf).id.length = (idLenOf (byteAt buf 2)).toNat := by
  simp only [headerAt, memRead_length]
  omega

/-- The checks of R204, passed, are what it takes to fit. -/
theorem frameFits_headerAt {buf : Bytes} (hbuf : (byteAt buf 0).toNat + 1 ≤ buf.length)
    (hreach : 3 + (idLenOf (byteAt buf 2)).toNat ≤ (byteAt buf 0).toNat)
    (hpre : ¬ (topBit (byteAt buf 1) = true ∧ (idLenOf (byteAt buf 2)).toNat < 4))
    (hbad : badBodyLen (headerAt buf).secure (headerAt buf).bodyLen.toNat = false)
    (hlen : (headerAt buf).len.toNat = expectedLength (headerAt buf)) : FrameFits buf (headerAt buf) where
  header := rfl
  inBuffer := hbuf
  length_eq := hlen
  secureId hsec := by
    rw [headerAt_id_length (by omega)]
    exact Nat.le_of_not_lt fun hshort => hpre ⟨hsec, hshort⟩
  bodyLen_ok := hbad

section
variable {buf : Bytes} {h : Header} (hf : FrameFits buf h)
include hf

theorem FrameFits.len_eq : h.len = byteAt buf 0 := by rw [← hf.header]; rfl
theorem FrameFits.secure_eq : h.secure = topBit (byteAt buf 1) := by rw [← hf.header]; rfl

/-- The header and the body lie in the frame. -/
theorem FrameFits.reach : 4 + h.id.length + h.bodyLen.toNat ≤ h.len.toNat := by
  have := expectedLength_ge h
  have := hf.length_eq
  omega

theorem FrameFits.idLen_eq : h.id.length = (idLenOf (byteAt buf 2)).toNat := by
  have hreach := hf.reach
  have hbuf := hf.inBuffer
  have hlen : h.id.length = min (idLenOf (byteAt buf 2)).toNat (buf.length - 3) := by
    rw [← hf.header, headerAt, memRead_length]
  omega

theorem FrameFits.id_eq : h.id = memRead buf 3 h.id.length := by
  rw [hf.idLen_eq]
  conv_lhs => rw [← hf.header]
  rfl

theorem FrameFits.bodyLen_eq : h.bodyLen = byteAt buf (3 + h.id.length) := by
  rw [hf.idLen_eq]
  conv_lhs => rw [← hf.header]
  rfl

theorem FrameFits.bodyRegion_length : (bodyRegion buf h).length = h.bodyLen.toNat := by
  have hreach := hf.reach
  have hbuf := hf.inBuffer
  rw [bodyRegion, memRead_length]
  omega

end

/-- The checks of R204 before the header is read, over propositions; then the frame is decoded. -/
theorem decodeFrame_eq (cfg : Config) (buf : Bytes) (rx : RxContext) :
    decodeFrame cfg buf rx =
      if buf.length = 0 then .error .truncated
      else if (byteAt buf 0).toNat < 2 ∨ buf.length < 3 then .error .truncated
      else if topBit (byteAt buf 1) = true ∧ (idLenOf (byteAt buf 2)).toNat < 4 then .error .malformedHeader
      else if buf.length < (byteAt buf 0).toNat + 1 then .error .truncated
      else decodeStructure cfg (frameAt buf) rx := by
  simp only [decodeFrame, Nat.lt_one_iff, Bool.and_eq_true, decide_eq_true_eq]
  rfl

/-- The checks of R204 on the header of a whole frame, over propositions; then its mode's path decodes it. -/
theorem decodeStructure_frameAt {cfg : Config} {buf : Bytes} {rx : RxContext}
    (hbuf : (byteAt buf 0).toNat + 1 ≤ buf.length)
    (hreach : 3 + (idLenOf (byteAt buf 2)).toNat ≤ (byteAt buf 0).toNat) :
    decodeStructure cfg (frameAt buf) rx =
      if ((headerAt buf).secure = true ∧ (headerAt buf).bodyLen.toNat ≠ 0 ∧ (headerAt buf).bodyLen.toNat ≠ 32) ∨
          ((headerAt buf).secure = false ∧ (headerAt buf).bodyLen.toNat = 1) then .error .malformedHeader
      else if (headerAt buf).len.toNat < expectedLength (headerAt buf) then .error .truncated
      else if expectedLength (headerAt buf) < (headerAt buf).len.toNat then .error .malformedHeader
      else if (headerAt buf).secure = true then decodeSecure cfg (frameAt buf) (headerAt buf) rx
      else decodeInsecure (frameAt buf) (headerAt buf) := by
  simp only [decodeStructure, parseHeader_frameAt hbuf hreach, badBodyLen_eq_true_iff]

/-- A frame that does not reach its bodyLen byte is Truncated (R192). -/
theorem decodeStructure_frameAt_short {cfg : Config} {buf : Bytes} {rx : RxContext}
    (hbuf : (byteAt buf 0).toNat + 1 ≤ buf.length) (h2 : 2 ≤ (byteAt buf 0).toNat)
    (hshort : (byteAt buf 0).toNat < 3 + (idLenOf (byteAt buf 2)).toNat) :
    decodeStructure cfg (frameAt buf) rx = .error .truncated := by
  rw [decodeStructure, parseHeader_frameAt_short hbuf h2 hshort]

/-! ## What each path of the decoder answers on a frame that fits (R197 to R203) -/

/-- What the decoder answers to what the AEAD opened: nothing is AuthenticationFailure, a plaintext is unpadded
(R201, R202, R203). -/
def answerOpened (h : Header) (t : Trailer) : Option Bytes → Except Status DecodedFrame
  | none => .error .authenticationFailure
  | some pt =>
    match openedBody h.bodyLen.toNat pt with
    | .error e => .error e
    | .ok body => .ok (decodedOf h body t.restartCounter t.msgCounter)

/-- Any other algorithm id than 0x80 is refused before the AEAD (R199). -/
theorem decodeSecure_of_alg_ne {cfg : Config} {frame : Bytes} {h : Header} {rx : RxContext}
    (halg : (trailerOf frame h).alg ≠ 0x80) : decodeSecure cfg frame h rx = .error .unsupportedAlgorithm := if_pos halg

/-- With algorithm id 0x80 the AEAD decides (R200 to R203). -/
theorem decodeSecure_of_alg_eq {cfg : Config} {frame aad : Bytes} {h : Header} {rx : RxContext}
    (halg : (trailerOf frame h).alg = 0x80) (haad : frameAad cfg frame h.id.length = .ok aad) :
    decodeSecure cfg frame h rx =
      answerOpened h (trailerOf frame h) (openFrame cfg rx h.id aad (bodyRegion frame h) (trailerOf frame h)) := by
  simp only [decodeSecure, haad]
  exact if_neg (not_not.mpr halg)

/-- A body region of a length that R196 allows parses (R197). -/
theorem parseBody_isOk {s : Bytes} (h : s.length ≠ 1) : ∃ body, parseBody s = .ok body := by
  obtain ⟨-, hs⟩ | ⟨hone, -⟩ | ⟨-, hs⟩ := parseBody_cases s
  · exact ⟨none, hs⟩
  · exact absurd hone h
  · exact ⟨some (bodyOf s), hs⟩

section
variable {cfg : Config} {buf : Bytes} {h : Header} {rx : RxContext} (hf : FrameFits buf h)
include hf

/-- Reading the frame is reading the buffer. -/
theorem FrameFits.memRead_frameAt {i n : Nat} (hin : i + n ≤ h.len.toNat + 1) :
    memRead (frameAt buf) i n = memRead buf i n := by
  rw [hf.len_eq] at hin
  exact memRead_memRead hin

theorem FrameFits.trailerOf_frameAt (hsec : h.secure = true) : trailerOf (frameAt buf) h = trailerOf buf h := by
  have hlen := hf.length_eq
  rw [expectedLength_secure hsec] at hlen
  exact congrArg parseTrailer (hf.memRead_frameAt (by simp only [Params.secureTrailer]; omega))

theorem FrameFits.bodyRegion_frameAt : bodyRegion (frameAt buf) h = bodyRegion buf h :=
  hf.memRead_frameAt (Nat.le_succ_of_le hf.reach)

/-- A frame that fits passes the checks of R204: its mode's path decodes it. -/
theorem FrameFits.decodeFrame_eq_path :
    decodeFrame cfg buf rx =
      if h.secure = true then decodeSecure cfg (frameAt buf) h rx else decodeInsecure (frameAt buf) h := by
  have hreach := hf.reach
  have hbuf := hf.inBuffer
  have hlen := hf.length_eq
  have hid := hf.idLen_eq
  have hpre : ¬ (topBit (byteAt buf 1) = true ∧ (idLenOf (byteAt buf 2)).toNat < 4) := by
    rintro ⟨hsec, hshort⟩
    have := hf.secureId (hf.secure_eq.trans hsec)
    omega
  have hbad := badBodyLen_eq_true_iff.not.mp (Bool.eq_false_iff.mp hf.bodyLen_ok)
  rw [hf.len_eq] at hreach hbuf
  rw [decodeFrame_eq, if_neg (by omega), if_neg (by omega), if_neg hpre, if_neg (by omega),
    decodeStructure_frameAt hbuf (by omega), hf.header, if_neg hbad, if_neg (by omega), if_neg (by omega)]

/-- An insecure frame that fits is decided by its CRC alone (R197). -/
theorem FrameFits.decodeFrame_insecure (hsec : h.secure = false) :
    decodeFrame cfg buf rx =
      if whiten (crc7Fold Params.crcInit (buf.take h.len.toNat)) ≠ byteAt buf h.len.toNat then .error .checksumMismatch
      else (parseBody (bodyRegion buf h)).map fun body => decodedOf h body 0 0 := by
  have hcrc : frameCrc (frameAt buf) 0 h.len.toNat =
      .ok (whiten (crc7Fold Params.crcInit (buf.take h.len.toNat))) := by
    have hin : ¬ (frameAt buf).length < 0 + h.len.toNat := by
      rw [frameAt_length (hf.len_eq ▸ hf.inBuffer), hf.len_eq]
      omega
    rw [frameCrc, if_neg hin, hf.memRead_frameAt (by omega), memRead, List.drop_zero]
  have hlast : byteAt (frameAt buf) h.len.toNat = byteAt buf h.len.toNat :=
    byteAt_memRead (by rw [hf.len_eq]; omega)
  rw [hf.decodeFrame_eq_path, if_neg (Bool.eq_false_iff.mp hsec)]
  simp only [decodeInsecure, hcrc, hlast, hf.bodyRegion_frameAt]
  cases parseBody (bodyRegion buf h) <;> rfl

/-- A secure frame that fits is decoded by what the buffer has for it (R198 to R203). -/
theorem FrameFits.decodeFrame_secure (hsec : h.secure = true) : decodeFrame cfg buf rx = decodeSecure cfg buf h rx := by
  have haad : frameAad cfg (frameAt buf) h.id.length = frameAad cfg buf h.id.length := by
    have hreach := hf.reach
    have hbuf := hf.inBuffer
    rw [hf.len_eq] at hreach hbuf
    exact frameAad_memRead hbuf (by omega)
  rw [hf.decodeFrame_eq_path, if_pos hsec]
  simp only [decodeSecure, hf.bodyRegion_frameAt, hf.trailerOf_frameAt hsec, haad]

end

/-- Only a frame that fits decodes (R204). -/
theorem frameFits_of_decodeFrame_ok {cfg : Config} {buf : Bytes} {rx : RxContext} {d : DecodedFrame}
    (e : decodeFrame cfg buf rx = .ok d) : FrameFits buf (headerAt buf) := by
  obtain ⟨hbuf, h2, hpre, h, hheader, hbad, hlen, -⟩ := decodeFrame_ok e
  have hreach : 3 + (idLenOf (byteAt buf 2)).toNat ≤ (byteAt buf 0).toNat := by
    by_contra hshort
    rw [← frameAt, parseHeader_frameAt_short hbuf h2 (Nat.lt_of_not_le hshort)] at hheader
    cases hheader
  rw [← frameAt, parseHeader_frameAt hbuf hreach] at hheader
  cases hheader
  exact frameFits_headerAt hbuf hreach hpre hbad hlen

end Sys2Proof

namespace Sys2Proof

/-! ## The header's bytes, and a frame laid out from its parts (R70 to R78) -/

/-- The bytes of a header's fields (R111). -/
def wireHeader (h : Header) : Bytes :=
  [h.len, typeByte h.secure h.frameType, seqIdLenByte h.seqNo h.id.length] ++ h.id ++ [h.bodyLen]

/-- Bytes after a header that reaches its bodyLen byte do not change its fields. -/
theorem headerAt_append {hdr : Bytes} (hlen : 4 + (idLenOf (byteAt hdr 2)).toNat ≤ hdr.length) (rest : Bytes) :
    headerAt (hdr ++ rest) = headerAt hdr := by
  have hbyte : ∀ i, i < hdr.length → byteAt (hdr ++ rest) i = byteAt hdr i := fun i hi => byteAt_append_left hi rest
  have hid : memRead (hdr ++ rest) 3 (idLenOf (byteAt hdr 2)).toNat = memRead hdr 3 (idLenOf (byteAt hdr 2)).toNat :=
    memRead_append_left _ _ _ _ (by omega)
  simp only [headerAt, hbyte 0 (by omega), hbyte 1 (by omega), hbyte 2 (by omega), hid,
    hbyte (3 + (idLenOf (byteAt hdr 2)).toNat) (by omega)]

section
variable {h : Header} (hid : h.id.length ≤ 15)

theorem wireHeader_length (h : Header) : (wireHeader h).length = 4 + h.id.length := by
  simp [wireHeader]
  omega

include hid

/-- A header's bytes hold its fields, whatever follows them (R132). -/
theorem headerAt_wireHeader (rest : Bytes) : headerAt (wireHeader h ++ rest) = h := by
  have hpack : packHeader h.len h.secure h.frameType h.seqNo h.id h.bodyLen = .ok (wireHeader h) :=
    if_neg (Nat.not_lt.mpr hid)
  have hparse := parseHeader_of_packHeader hpack
  have hreach : 4 + (idLenOf (byteAt (wireHeader h) 2)).toNat ≤ (wireHeader h).length := (parseHeader_ok hparse).1
  rw [headerAt_append hreach]
  rw [parseHeader_headerAt hreach] at hparse
  exact Except.ok.inj hparse

/-- A header and the rest of its frame fit, where the header's lengths agree with each other and with the rest. -/
theorem frameFits_wireHeader {rest : Bytes} (hlen : h.len.toNat = expectedLength h)
    (hrest : h.len.toNat + 1 ≤ 4 + h.id.length + rest.length) (hsec : h.secure = true → 4 ≤ h.id.length)
    (hbad : badBodyLen h.secure h.bodyLen.toNat = false) : FrameFits (wireHeader h ++ rest) h where
  header := headerAt_wireHeader hid rest
  inBuffer := by rwa [List.length_append, wireHeader_length]
  length_eq := hlen
  secureId := hsec
  bodyLen_ok := hbad

end

section
variable {h : Header} {body tail : Bytes} (hbody : body.length = h.bodyLen.toNat)
include hbody

/-- The body behind a header is its body region (R197, R200). -/
theorem bodyRegion_layout : bodyRegion (wireHeader h ++ body ++ tail) h = body :=
  memRead_slice (wireHeader_length h) hbody

/-- The trailer behind header and ciphertext is the frame's trailer (R198). -/
theorem trailerOf_layout {t : Trailer} (htag : t.tag.length = 16) :
    trailerOf (wireHeader h ++ body ++ packTrailer t ++ tail) h = t := by
  have hread : memRead (wireHeader h ++ body ++ packTrailer t ++ tail) (4 + h.id.length + h.bodyLen.toNat) 23 =
      packTrailer t :=
    memRead_slice (by rw [List.length_append, wireHeader_length, hbody]) (by simp [packTrailer, htag])
  rw [trailerOf, hread, parseTrailer_packTrailer htag]

end

/-- The AAD of a frame that begins with a header's bytes (R144). -/
def aadOf (cfg : Config) (h : Header) : Bytes :=
  if cfg.aadIncludesBodyLen then wireHeader h else (wireHeader h).take (3 + h.id.length)

theorem frameAad_wireHeader (cfg : Config) (h : Header) (rest : Bytes) :
    frameAad cfg (wireHeader h ++ rest) h.id.length = .ok (aadOf cfg h) := by
  rw [frameAad_append (Nat.le_of_eq (wireHeader_length h).symm), frameAad_of_length (wireHeader_length h), aadOf]

section SecureLayout
variable {cfg : Config} {rx : RxContext} {h : Header} {ct : Bytes} {t : Trailer} (extra : Bytes)
  (hsec : h.secure = true) (hmin : 4 ≤ h.id.length) (hmax : h.id.length ≤ 15)
  (hlen : h.len.toNat = 26 + h.id.length + ct.length) (hct : ct.length = h.bodyLen.toNat)
  (hblock : ct.length = 0 ∨ ct.length = 32) (htag : t.tag.length = 16)
include hsec hmin hmax hlen hct hblock htag

/-- Header, ciphertext and trailer of agreeing lengths are a frame that fits, whatever follows. -/
theorem frameFits_secureLayout : FrameFits (wireHeader h ++ ct ++ packTrailer t ++ extra) h := by
  have htrailer : (packTrailer t).length = 23 := by simp [packTrailer, htag]
  rw [List.append_assoc, List.append_assoc]
  refine frameFits_wireHeader hmax ?_ ?_ (fun _ => hmin) ?_
  · rw [expectedLength_secure hsec, hlen, hct]
  · rw [List.length_append, List.length_append, htrailer]
    omega
  · rw [← Bool.not_eq_true, badBodyLen_eq_true_iff, ← hct, hsec]
    rintro (⟨-, hempty, hfull⟩ | ⟨hclear, -⟩)
    · exact hblock.elim hempty hfull
    · cases hclear

/-- A secure frame laid out from its parts is decided by its algorithm id and by what the AEAD opens (R198 to R203). -/
theorem decodeFrame_secureLayout :
    decodeFrame cfg (wireHeader h ++ ct ++ packTrailer t ++ extra) rx =
      if t.alg ≠ 0x80 then .error .unsupportedAlgorithm
      else answerOpened h t (openFrame cfg rx h.id (aadOf cfg h) ct t) := by
  have hfits := frameFits_secureLayout extra hsec hmin hmax hlen hct hblock htag
  have htrailer := trailerOf_layout (tail := extra) hct htag
  have hregion : bodyRegion (wireHeader h ++ ct ++ packTrailer t ++ extra) h = ct := by
    rw [List.append_assoc]
    exact bodyRegion_layout hct
  have haad : frameAad cfg (wireHeader h ++ ct ++ packTrailer t ++ extra) h.id.length = .ok (aadOf cfg h) := by
    rw [List.append_assoc, List.append_assoc]
    exact frameAad_wireHeader cfg h _
  rw [hfits.decodeFrame_secure hsec]
  by_cases halg : t.alg ≠ 0x80
  · rw [if_pos halg, decodeSecure_of_alg_ne (by rwa [htrailer])]
  · rw [if_neg halg, decodeSecure_of_alg_eq (by rw [htrailer]; exact not_not.mp halg) haad, htrailer, hregion]

end SecureLayout

/-- An insecure frame laid out from its parts, its CRC right, is decided by its body (R197). -/
theorem decodeFrame_insecureLayout {cfg : Config} {rx : RxContext} {h : Header} {body : Bytes} (extra : Bytes)
    (hsec : h.secure = false) (hmax : h.id.length ≤ 15) (hlen : h.len.toNat = 4 + h.id.length + body.length)
    (hbody : body.length = h.bodyLen.toNat) (hone : body.length ≠ 1) :
    decodeFrame cfg (wireHeader h ++ body ++ [whiten (crc7Fold Params.crcInit (wireHeader h ++ body))] ++ extra) rx =
      (parseBody body).map fun b => decodedOf h b 0 0 := by
  generalize hcrc : whiten (crc7Fold Params.crcInit (wireHeader h ++ body)) = crc
  have hcover : (wireHeader h ++ body).length = h.len.toNat := by rw [List.length_append, wireHeader_length, hlen]
  have hfits : FrameFits (wireHeader h ++ body ++ [crc] ++ extra) h := by
    rw [List.append_assoc, List.append_assoc]
    refine frameFits_wireHeader hmax ?_ ?_ (by simp [hsec]) ?_
    · rw [expectedLength_insecure hsec, hlen, hbody]
    · simp
      omega
    · rw [← Bool.not_eq_true, badBodyLen_eq_true_iff, ← hbody, hsec]
      simpa using hone
  have hregion : bodyRegion (wireHeader h ++ body ++ [crc] ++ extra) h = body := by
    rw [List.append_assoc]
    exact bodyRegion_layout hbody
  have hfold : (wireHeader h ++ body ++ [crc] ++ extra).take h.len.toNat = wireHeader h ++ body := by
    rw [List.append_assoc _ [crc], List.take_left' hcover]
  have hlast : byteAt (wireHeader h ++ body ++ [crc] ++ extra) h.len.toNat = crc := by
    rw [List.append_assoc _ [crc]]
    exact byteAt_append_cons hcover crc extra
  rw [hfits.decodeFrame_insecure hsec, hfold, hlast, hregion, hcrc, if_neg (not_not.mpr rfl)]

end Sys2Proof

namespace Sys2Proof

/-! ## Round trip (R206) -/

/-- The header fields of an encoded frame (R171 to R177). -/
def headerOf (f : Frame) : Header where
  len := lenByte (frameLength f)
  secure := f.secure
  frameType := f.frameType
  seqNo := f.seqNo
  id := f.id
  bodyLen := lenByte (wireBodyLen f)

theorem headerBytes_eq_wireHeader (f : Frame) : headerBytes f = wireHeader (headerOf f) := rfl

/-- The content of an insecure frame parses to its body (R132). -/
theorem parseBody_clearContent (f : Frame) : parseBody (clearContent f) = .ok f.body := by
  unfold clearContent
  cases f.body with
  | none => rfl
  | some b =>
    have hparse := parseBody_of_two_le (s := bodyContent b) (by rw [bodyContent_length]; omega)
    rwa [bodyOf_bodyContent] at hparse

/-- The content of an insecure frame is empty or holds two bytes at least (R172). -/
theorem clearContent_length_ne_one (f : Frame) : (clearContent f).length ≠ 1 := by
  intro hone
  have hparse := parseBody_clearContent f
  rw [parseBody, if_neg (by omega), if_pos hone] at hparse
  cases hparse

/-- The ciphertext is empty or one block (R163, R174). -/
theorem wireBodyLen_secure {f : Frame} (hsec : f.secure = true) : wireBodyLen f = 0 ∨ wireBodyLen f = 32 := by
  rw [wireBodyLen, if_pos hsec]
  split
  · exact .inr rfl
  · exact .inl rfl

section
variable {f : Frame} (herr : encodeError f = none)
include herr

theorem headerOf_len_toNat : (headerOf f).len.toNat = frameLength f := lenByte_frameLength herr

theorem headerOf_bodyLen_toNat : (headerOf f).bodyLen.toNat = wireBodyLen f := by
  have hbyte := byte_toNat_lt (headerOf f).len
  rw [headerOf_len_toNat herr, frameLength] at hbyte
  exact lenByte_toNat _ (by omega)

/-- The block of a secure frame opens to its body (R156, R202). -/
theorem openedBody_blockContent (hsec : f.secure = true) :
    openedBody (wireBodyLen f) (blockContent f) = .ok f.body := by
  obtain ⟨-, hfit, -⟩ := encodeError_eq_none_iff.mp herr
  obtain ⟨-, hstats⟩ := hfit hsec
  have hlen := blockContent_length herr hsec
  rw [openedBody, if_neg (not_not.mpr hlen), ← hlen]
  unfold blockContent
  cases hbody : f.body with
  | none => rfl
  | some b =>
    have hmax := hstats b hbody
    obtain ⟨pt, hpad, hblock, hunpad⟩ := unpadBlock_padBlock hmax
    rw [padBlock_of_stats_le hmax] at hpad
    cases hpad
    simp only [hblock, hunpad]
    rfl

end

/-- The length of an encoded frame is its length byte and one more (R175); of a secure one by P_LEN. -/
theorem encodeFrame_length {cfg : Config} {f : Frame} {tx : TxContext} {w : Bytes} (hlen : f.secure = true → PLen cfg)
    (e : encodeFrame cfg f tx = .ok w) : w.length = frameLength f + 1 := by
  cases hsec : f.secure with
  | false =>
    obtain ⟨herr, -⟩ := encodeFrame_ok e
    rw [encodeFrame_insecure herr hsec] at e
    cases e
    rw [List.length_append, List.length_append, headerBytes_length, clearContent_length hsec, frameLength_insecure hsec]
    rfl
  | true =>
    obtain ⟨-, rest, last, rfl, hL, -⟩ := encodeFrame_layout (hlen hsec) e
    rw [List.length_append, hL]
    rfl

/-- What an encoded insecure frame decodes to, whatever follows it and under any configuration and context (R206). -/
theorem decodeFrame_encoded_insecure {cfg : Config} {f : Frame} {tx : TxContext} {w : Bytes} (hsec : f.secure = false)
    (e : encodeFrame cfg f tx = .ok w) (cfg' : Config) (rx : RxContext) (extra : Bytes) :
    decodeFrame cfg' (w ++ extra) rx = .ok (decodedOf (headerOf f) f.body 0 0) := by
  obtain ⟨herr, -⟩ := encodeFrame_ok e
  obtain ⟨hid, -⟩ := encodeError_eq_none_iff.mp herr
  have hcontent := clearContent_length hsec
  rw [encodeFrame_insecure herr hsec] at e
  cases e
  rw [headerBytes_eq_wireHeader, decodeFrame_insecureLayout extra hsec hid ?_ ?_ (clearContent_length_ne_one f),
    parseBody_clearContent]
  · rfl
  · rw [headerOf_len_toNat herr, frameLength_insecure hsec, hcontent]
    rfl
  · rw [hcontent, headerOf_bodyLen_toNat herr]

/-- The trailer of an encoded secure frame (R179). -/
abbrev trailerFor (cfg : Config) (f : Frame) (tx : TxContext) : Trailer :=
  secureTrailerOf tx (sealedContent cfg f tx).2

section
variable {cfg : Config} {f : Frame} {tx : TxContext} {w : Bytes} (hlen : PLen cfg) (hsec : f.secure = true)
  (e : encodeFrame cfg f tx = .ok w)
include hlen hsec e

/-- An encoded secure frame is laid out from its parts, and their lengths agree (R174 to R179). -/
theorem encodeFrame_secure_parts :
    w = wireHeader (headerOf f) ++ (sealedContent cfg f tx).1 ++ packTrailer (trailerFor cfg f tx) ∧
      4 ≤ f.id.length ∧ f.id.length ≤ 15 ∧
      (headerOf f).len.toNat = 26 + f.id.length + (sealedContent cfg f tx).1.length ∧
      (sealedContent cfg f tx).1.length = (headerOf f).bodyLen.toNat ∧
      ((sealedContent cfg f tx).1.length = 0 ∨ (sealedContent cfg f tx).1.length = 32) := by
  obtain ⟨herr, -⟩ := encodeFrame_ok e
  obtain ⟨hmax, hfit, -⟩ := encodeError_eq_none_iff.mp herr
  obtain ⟨hmin, -⟩ := hfit hsec
  have hct : (sealedContent cfg f tx).1.length = wireBodyLen f := (hlen _ _ _ _).trans (blockContent_length herr hsec)
  rw [encodeFrame_secure herr hsec] at e
  cases e
  refine ⟨rfl, hmin, hmax, ?_, ?_, ?_⟩
  · rw [headerOf_len_toNat herr, frameLength_secure hsec, hct]
  · rw [hct, headerOf_bodyLen_toNat herr]
  · rw [hct]
    exact wireBodyLen_secure hsec

/-- An encoded secure frame fits. -/
theorem frameFits_encoded_secure : FrameFits w (headerOf f) := by
  obtain ⟨rfl, hmin, hmax, hL, hct, hblock⟩ := encodeFrame_secure_parts hlen hsec e
  rw [← List.append_nil (_ ++ _)]
  exact frameFits_secureLayout [] hsec hmin hmax hL hct hblock Vector.length_toList

/-- An encoded secure frame is decided by what the receiver's AEAD opens, whatever follows it (R200 to R203). -/
theorem decodeFrame_encoded_secure (rx : RxContext) (extra : Bytes) :
    decodeFrame cfg (w ++ extra) rx = answerOpened (headerOf f) (trailerFor cfg f tx)
      (openFrame cfg rx f.id (aadOf cfg (headerOf f)) (sealedContent cfg f tx).1 (trailerFor cfg f tx)) := by
  obtain ⟨rfl, hmin, hmax, hL, hct, hblock⟩ := encodeFrame_secure_parts hlen hsec e
  rw [decodeFrame_secureLayout extra hsec hmin hmax hL hct hblock Vector.length_toList]
  exact if_neg (not_not.mpr rfl)

end

/-- What was sealed under the same key and pre-shared bytes opens to the frame's block (P_OPEN_SEAL, R162). -/
theorem openFrame_sealedContent {cfg : Config} (hopen : POpenSeal cfg) (f : Frame) {tx : TxContext} {rx : RxContext}
    (hkey : rx.key = tx.key) (hpre : rx.presharedId = tx.presharedId) :
    openFrame cfg rx f.id (aadOf cfg (headerOf f)) (sealedContent cfg f tx).1 (trailerFor cfg f tx) =
      some (blockContent f) := by
  rw [openFrame, hkey, hpre, trailerFor, secureTrailerOf, fixedBytes_of_toList]
  exact hopen _ _ _ _

/-- Settles O50: the decoder reads back the header, and the CRC or the AEAD gives back the content. -/
theorem decodeInvertsEncodeFrame : Obligations.DecodeInvertsEncodeFrame := by
  unfold Obligations.DecodeInvertsEncodeFrame
  intro cfg f tx rx w extra e hkey hpre hcontract
  obtain ⟨herr, -⟩ := encodeFrame_ok e
  have hflen : BitVec.ofNat 8 (w.length - 1) = lenByte (frameLength f) := by
    rw [encodeFrame_length (fun hsec => (hcontract hsec).1) e, Nat.add_sub_cancel, lenByte]
  rw [hflen]
  cases hsec : f.secure with
  | false => exact decodeFrame_encoded_insecure hsec e cfg rx extra
  | true =>
    obtain ⟨hlen, hopen⟩ := hcontract hsec
    rw [decodeFrame_encoded_secure hlen hsec e, openFrame_sealedContent hopen f hkey hpre]
    simp only [answerOpened, headerOf_bodyLen_toNat herr, openedBody_blockContent herr hsec]
    rfl

end Sys2Proof

namespace Sys2Proof

/-! ## One byte's change and the CRC (R101, R102, R210) -/

/-- A register's own part of an update (R102). -/
theorem crc7Update_xor_left (acc acc' d : Byte) :
    crc7Update (acc ^^^ acc') d = crc7Update acc d ^^^ crc7Update acc' 0 := by simp [← crc7Update_xor]

/-- A data byte's own part of an update (R102). -/
theorem crc7Update_xor_right (acc d e : Byte) :
    crc7Update acc (d ^^^ e) = crc7Update acc d ^^^ crc7Update 0 e := by simp [← crc7Update_xor]

/-- The generator pattern has no part in an update (R210). -/
theorem crc7Update_generator : crc7Update 0 0xB7 = 0 := by decide

/-- The fold is linear: what is XORed into the register is carried on by zero bytes (R102). -/
theorem crc7Fold_xor (acc acc' : Byte) (s : Bytes) :
    crc7Fold (acc ^^^ acc') s = crc7Fold acc s ^^^ crc7Fold acc' (zeros s.length) := by
  induction s generalizing acc acc' with
  | nil => rfl
  | cons d s ih =>
    calc crc7Fold (acc ^^^ acc') (d :: s)
        = crc7Fold (crc7Update acc d ^^^ crc7Update acc' 0) s := by rw [← crc7Update_xor_left]; rfl
      _ = crc7Fold (crc7Update acc d) s ^^^ crc7Fold (crc7Update acc' 0) (zeros s.length) := ih _ _

/-- What a pattern XORed into byte `i` of a string of `n` bytes adds to the fold. -/
def crcDifference (e : Byte) (n i : Nat) : Byte := crc7Fold (crc7Update 0 e) (zeros (n - i - 1))

/-- A pattern XORed into one byte adds its difference to the fold, whatever the string and the register hold. -/
theorem crc7Fold_set_xor {s : Bytes} {i : Nat} (hi : i < s.length) (acc e : Byte) :
    crc7Fold acc (s.set i (byteAt s i ^^^ e)) = crc7Fold acc s ^^^ crcDifference e s.length i := by
  induction s generalizing acc i with
  | nil => cases hi
  | cons d s ih =>
    cases i with
    | zero =>
      calc crc7Fold acc ((d ^^^ e) :: s)
          = crc7Fold (crc7Update acc d ^^^ crc7Update 0 e) s := by rw [← crc7Update_xor_right]; rfl
        _ = crc7Fold acc (d :: s) ^^^ crcDifference e (s.length + 1) 0 := crc7Fold_xor _ _ s
    | succ i =>
      have hrest : crcDifference e (s.length + 1) (i + 1) = crcDifference e s.length i := by
        rw [crcDifference, Nat.add_sub_add_right, crcDifference]
      rw [List.length_cons, hrest]
      exact ih (Nat.lt_of_succ_lt_succ hi) (crc7Update acc d)

/-- The generator pattern adds nothing (R210). -/
theorem crcDifference_generator (n i : Nat) : crcDifference 0xB7 n i = 0 := by
  have hzeros : ∀ k, crc7Fold 0 (zeros k) = 0 := by
    intro k
    induction k with
    | zero => rfl
    | succ k ih => exact ih
  rw [crcDifference, crc7Update_generator, hzeros]

/-- A byte changed in a buffer is that byte changed in a read that holds it, and not changed in any other. -/
theorem memRead_set (s : Bytes) (i off len : Nat) (b : Byte) :
    memRead (s.set i b) off len = if i < off then memRead s off len else (memRead s off len).set (i - off) b := by
  simp only [memRead, List.drop_set]
  split
  · rfl
  · rw [List.take_set]

/-- Settles O21: the pattern adds nothing to the register, so nothing to a fold over a slice that holds the byte. -/
theorem generatorPatternIsUndetected : Obligations.GeneratorPatternIsUndetected := by
  unfold Obligations.GeneratorPatternIsUndetected
  refine ⟨fun a d => ?_, fun buf i off len => ?_⟩
  · rw [crc7Update_xor_right, crc7Update_generator]
    exact BitVec.xor_zero
  · have hfold : crc7Fold Params.crcInit (memRead (buf.set i (byteAt buf i ^^^ 0xB7)) off len) =
        crc7Fold Params.crcInit (memRead buf off len) := by
      rw [memRead_set]
      split
      · rfl
      · rename_i hoff
        by_cases hin : i - off < (memRead buf off len).length
        · have hbyte : byteAt buf i = byteAt (memRead buf off len) (i - off) := by
            rw [memRead_length] at hin
            rw [byteAt_memRead_at (by omega), Nat.add_sub_cancel' (Nat.le_of_not_lt hoff)]
          rw [hbyte, crc7Fold_set_xor hin, crcDifference_generator]
          exact BitVec.xor_zero
        · rw [List.set_eq_of_length_le (Nat.le_of_not_lt hin)]
    simp only [frameCrc, List.length_set, hfold]

/-- A zero byte never empties a register that holds something: the generator has a constant term (R101). -/
theorem crc7Update_zero_right_ne_zero : ∀ c : Byte, c ≠ 0 → c.toNat < 0x80 → crc7Update c 0 ≠ 0 := by decide +kernel

/-- Zero bytes never empty a register that holds something. -/
theorem crc7Fold_zeros_ne_zero {c : Byte} (hc : c ≠ 0) (hlt : c.toNat < 0x80) (n : Nat) : crc7Fold c (zeros n) ≠ 0 := by
  induction n generalizing c with
  | zero => exact hc
  | succ n ih => exact ih (crc7Update_zero_right_ne_zero c hc hlt) (crc7Update_lt c 0)

/-- A single bit is never a multiple of the generator (R210). -/
theorem crcDifference_bit_ne_zero {k : Nat} (hk : k < 8) (n i : Nat) : crcDifference ((1 : Byte) <<< k) n i ≠ 0 := by
  have hbit : ∀ k < 8, crc7Update 0 ((1 : Byte) <<< k) ≠ 0 := by decide +kernel
  exact crc7Fold_zeros_ne_zero (hbit k hk) (crc7Update_lt _ _) _

/-- Whitening tells the values of the register apart (R104). -/
theorem whiten_inj {c c' : Byte} (hc : c.toNat < 0x80) (hc' : c'.toNat < 0x80) (h : whiten c = whiten c') : c = c' := by
  have hne : ∀ {x : Byte}, x.toNat < 0x80 → x ≠ Params.crcZeroSubst := by
    rintro x hx rfl
    exact absurd hx (by decide)
  unfold whiten at h
  split at h <;> split at h
  case isTrue.isTrue h0 h0' => rw [h0, h0']
  case isTrue.isFalse => exact absurd h.symm (hne hc')
  case isFalse.isTrue => exact absurd h (hne hc)
  case isFalse.isFalse => exact h

end Sys2Proof

namespace Sys2Proof

/-! ## The checks of R204 in their order (R191, R193, R204) -/

/-- Settles O46: of the checks before this one, none looks further than byte 2. -/
theorem secureIdLenBelowFourIsMalformedHeader : Obligations.SecureIdLenBelowFourIsMalformedHeader := by
  unfold Obligations.SecureIdLenBelowFourIsMalformedHeader
  intro cfg buf rx hbuf hlen hsec hid
  have hpre : topBit (byteAt buf 1) = true ∧ (idLenOf (byteAt buf 2)).toNat < 4 :=
    ⟨by rw [topBit_eq_decide, decide_eq_true hsec], by rwa [idLenOf_toNat]⟩
  rw [decodeFrame_eq, if_neg (by omega), if_neg (by omega), if_pos hpre]

/-- Settles O51: below `L = 2` the length byte alone decides; else the checks read bytes 0 to 2 and the frame. -/
theorem bytesPastTheFrameAreIgnored : Obligations.BytesPastTheFrameAreIgnored := by
  unfold Obligations.BytesPastTheFrameAreIgnored
  intro cfg buf extra rx hne hbuf
  have hpos : 0 < buf.length := List.length_pos_iff.mpr hne
  have hlonger : buf.length ≤ (buf ++ extra).length := by rw [List.length_append]; omega
  have h0 : byteAt (buf ++ extra) 0 = byteAt buf 0 := byteAt_append_left hpos extra
  rw [decodeFrame_eq, decodeFrame_eq, h0, if_neg (by omega), if_neg (show ¬ buf.length = 0 by omega)]
  by_cases hshort : (byteAt buf 0).toNat < 2
  · rw [if_pos (.inl hshort), if_pos (.inl hshort)]
  · have h1 : byteAt (buf ++ extra) 1 = byteAt buf 1 := byteAt_append_left (by omega) extra
    have h2 : byteAt (buf ++ extra) 2 = byteAt buf 2 := byteAt_append_left (by omega) extra
    have hframe : frameAt (buf ++ extra) = frameAt buf := by
      rw [frameAt, h0, memRead_append_left _ _ _ _ (by omega), frameAt]
    rw [h1, h2, hframe, if_neg (by omega), if_neg (show ¬ (_ ∨ buf.length < 3) by omega),
      if_neg (show ¬ (buf ++ extra).length < _ by omega), if_neg (show ¬ buf.length < _ by omega)]

/-! ## A secure frame's parts, read from the buffer (R198 to R200) -/

theorem trailerOf_restartCounter (buf : Bytes) (h : Header) :
    (trailerOf buf h).restartCounter = fromBe24 (memRead buf (4 + h.id.length + h.bodyLen.toNat) 3) :=
  congrArg fromBe24 (memRead_memRead_at (by decide))

theorem trailerOf_msgCounter (buf : Bytes) (h : Header) :
    (trailerOf buf h).msgCounter = fromBe24 (memRead buf (4 + h.id.length + h.bodyLen.toNat + 3) 3) :=
  congrArg fromBe24 (memRead_memRead_at (by decide))

/-- The tag is the trailer's bytes 6 to 21 (R77, R198). -/
theorem trailerOf_tag (buf : Bytes) (h : Header) :
    (trailerOf buf h).tag = memRead buf (4 + h.id.length + h.bodyLen.toNat + 6) 16 := memRead_memRead_at (by decide)

/-- The algorithm id is the trailer's last byte (R77, R198). -/
theorem trailerOf_alg (buf : Bytes) (h : Header) :
    (trailerOf buf h).alg = byteAt buf (4 + h.id.length + h.bodyLen.toNat + 22) := byteAt_memRead_at (by decide)

section
variable {buf : Bytes} {h : Header} (hf : FrameFits buf h) (hsec : h.secure = true)
include hf hsec

/-- The trailer region of a secure frame lies in the buffer and ends the frame (R198). -/
theorem FrameFits.trailer_end : 4 + h.id.length + h.bodyLen.toNat + 22 = h.len.toNat := by
  have hlen := hf.length_eq
  rw [expectedLength_secure hsec] at hlen
  omega

/-- The algorithm id is the last byte of the frame (R198, R199). -/
theorem FrameFits.alg_eq : (trailerOf buf h).alg = byteAt buf h.len.toNat := by
  rw [trailerOf_alg, hf.trailer_end hsec]

/-- The nonce is the first four ID bytes, the pre-shared bytes and the counters' six bytes, as the buffer has them
(R200). -/
theorem FrameFits.nonce_eq (pre : Bytes) :
    frameNonce h.id pre (trailerOf buf h).restartCounter (trailerOf buf h).msgCounter =
      memRead buf 3 4 ++ pre ++ memRead buf (4 + h.id.length + h.bodyLen.toNat) 6 := by
  have hid : memRead h.id 0 4 = memRead buf 3 4 := by
    rw [hf.id_eq]
    exact memRead_memRead_at (hf.secureId hsec)
  have hin : 4 + h.id.length + h.bodyLen.toNat + 23 ≤ buf.length := by
    have := hf.inBuffer
    have := hf.trailer_end hsec
    omega
  rw [frameNonce, buildNonce, hid, trailerOf_restartCounter, trailerOf_msgCounter,
    be24_fromBe24 (by rw [memRead_length]; omega), be24_fromBe24 (by rw [memRead_length]; omega),
    List.append_assoc _ (memRead _ _ _), memRead_append_memRead]

/-- What the AEAD opens, as the buffer has its inputs (R200). -/
theorem FrameFits.openFrame_eq {cfg : Config} {rx : RxContext} (aad : Bytes) :
    openFrame cfg rx h.id aad (bodyRegion buf h) (trailerOf buf h) =
      cfg.aeadOpen (fixedBytes 16 rx.key)
        (fixedBytes 12 (memRead buf 3 4 ++ rx.presharedId ++ memRead buf (4 + h.id.length + h.bodyLen.toNat) 6)) aad
        (memRead buf (4 + h.id.length) h.bodyLen.toNat)
        (fixedBytes 16 (memRead buf (10 + h.id.length + h.bodyLen.toNat) 16)) := by
  have htag : 4 + h.id.length + h.bodyLen.toNat + 6 = 10 + h.id.length + h.bodyLen.toNat := by omega
  rw [openFrame, hf.nonce_eq hsec, trailerOf_tag, bodyRegion, htag]

end

/-- The AAD of a buffer that reaches the bodyLen byte is its first bytes (R143, R144). -/
theorem frameAad_of_le {cfg : Config} {buf : Bytes} {n : Nat} (h : 4 + n ≤ buf.length) :
    frameAad cfg buf n = .ok (buf.take (if cfg.aadIncludesBodyLen then 4 + n else 3 + n)) :=
  buildAad_of_le (by split <;> omega)

/-- An opened plaintext is answered MalformedHeader where its length or its padding is wrong, else with its body
(R202, R203). -/
theorem answerOpened_some (h : Header) (t : Trailer) (pt : Bytes) :
    if pt.length ≠ h.bodyLen.toNat then answerOpened h t (some pt) = .error .malformedHeader
    else if h.bodyLen.toNat ≠ 0 ∧ (unpadBlock pt).toOption = none then
      answerOpened h t (some pt) = .error .malformedHeader
    else ∃ d, answerOpened h t (some pt) = .ok d := by
  simp only [answerOpened, openedBody]
  by_cases hlen : pt.length ≠ h.bodyLen.toNat
  · simp only [if_pos hlen]
  · simp only [if_neg hlen]
    by_cases hempty : h.bodyLen.toNat = 0
    · simp [hempty]
    · cases hunpad : unpadBlock pt with
      | error err => simp [hempty, unpadBlock_error hunpad, Except.toOption]
      | ok b => simp [hempty, Except.toOption]

/-- An outcome given by a check and what follows it, one check at a time. -/
theorem ite_outcome {α : Type} {c : Prop} [Decidable c] {x a b : α} {P : Prop} (heq : x = if c then a else b)
    (hrest : ¬ c → x = b → P) : if c then x = a else P := by
  split
  · rwa [if_pos ‹c›] at heq
  · exact hrest ‹_› (by rwa [if_neg ‹¬ c›] at heq)

/-- A CRC mismatch is ChecksumMismatch, and otherwise an insecure frame that fits decodes (R196, R197). -/
theorem FrameFits.insecure_outcome {cfg : Config} {buf : Bytes} {h : Header} {rx : RxContext} (hf : FrameFits buf h)
    (hsec : h.secure = false) :
    if whiten (crc7Fold Params.crcInit (buf.take h.len.toNat)) ≠ byteAt buf h.len.toNat then
      decodeFrame cfg buf rx = .error .checksumMismatch
    else ∃ d, decodeFrame cfg buf rx = .ok d := by
  refine ite_outcome (hf.decodeFrame_insecure hsec) fun hcrc hout => ?_
  have hone : (bodyRegion buf h).length ≠ 1 := by
    rw [hf.bodyRegion_length]
    exact fun hone => Bool.eq_false_iff.mp hf.bodyLen_ok (badBodyLen_eq_true_iff.mpr (.inr ⟨hsec, hone⟩))
  obtain ⟨body, hbody⟩ := parseBody_isOk hone
  rw [hbody] at hout
  exact ⟨_, hout⟩

/-- Settles O45: the checks in their order, then on a frame that fits the CRC, or the algorithm id, the AEAD and the
padding. -/
theorem decoderErrorOrder : Obligations.DecoderErrorOrder := by
  unfold Obligations.DecoderErrorOrder
  refine ⟨fun cfg req e hreq => ?_, fun cfg buf rx n len idLen bodyLen e sec hn hlen hsec hid hbody he => ?_⟩
  · rw [respond, hreq]
    rfl
  rw [← topBit_eq_decide] at hsec
  rw [← idLenOf_toNat] at hid
  have heq := decodeFrame_eq cfg buf rx
  rw [← hn, ← hlen, ← hsec, ← hid] at heq
  refine ite_outcome heq fun hempty heq => ite_outcome heq fun hshort heq => ite_outcome heq fun hpre heq =>
    ite_outcome heq fun hcut heq => ?_
  have hbuf : (byteAt buf 0).toNat + 1 ≤ buf.length := by omega
  by_cases hreach : len < 3 + idLen
  · rw [if_pos hreach, heq, decodeStructure_frameAt_short hbuf (by omega) (by omega)]
  have hidLen : (headerAt buf).id.length = idLen := by rw [headerAt_id_length (by omega), hid]
  have hbodyLen : (headerAt buf).bodyLen.toNat = bodyLen := by rw [hbody, hid]; rfl
  have hheaderLen : (headerAt buf).len.toNat = len := hlen.symm
  have hheaderSec : (headerAt buf).secure = sec := hsec.symm
  have hexpected : expectedLength (headerAt buf) = e := by
    rw [he, expectedLength, hidLen, hbodyLen, hheaderSec]
    rfl
  rw [if_neg hreach]
  rw [decodeStructure_frameAt hbuf (by omega), hbodyLen, hheaderLen, hheaderSec, hexpected] at heq
  refine ite_outcome heq fun hbad heq => ite_outcome heq fun hless heq => ite_outcome heq fun hmore heq => ?_
  have hfits : FrameFits buf (headerAt buf) := by
    refine frameFits_headerAt hbuf (by omega) (by rwa [← hsec, ← hid]) ?_ (by omega)
    rwa [← Bool.not_eq_true, badBodyLen_eq_true_iff, hbodyLen, hheaderSec]
  cases sec with
  | false =>
    have hout := hfits.insecure_outcome (cfg := cfg) (rx := rx) hheaderSec
    rw [hheaderLen] at hout
    rw [if_pos rfl]
    exact hout
  | true =>
    have hout := hfits.decodeFrame_secure (cfg := cfg) (rx := rx) hheaderSec
    have halg := hfits.alg_eq hheaderSec
    rw [hheaderLen] at halg
    rw [if_neg (by decide), hout]
    by_cases h80 : byteAt buf len ≠ 0x80
    · rw [if_pos h80, decodeSecure_of_alg_ne (by rwa [halg])]
    rw [if_neg h80, decodeSecure_of_alg_eq (by rw [halg]; exact not_not.mp h80) (frameAad_of_le (by rw [hidLen]; omega)),
      hfits.openFrame_eq hheaderSec, hidLen, hbodyLen]
    split
    · rename_i hopen
      rw [hopen]
      rfl
    · rename_i pt hopen
      rw [hopen, ← hbodyLen]
      exact answerOpened_some _ _ pt

end Sys2Proof

namespace Sys2Proof

/-! ## FRAME.DEC's response, by arithmetic (R85, R203) -/

/-- The fields of a body whose stats length fits one byte (R85). -/
theorem optionalBodyFields_of_short {b : Body} (h : b.stats.length < 256) :
    optionalBodyFields (some b) =
      [0x01, BitVec.ofNat 8 b.callForHeat.toNat, BitVec.ofNat 8 b.valvePos.toNat, b.flags, 0x00,
        BitVec.ofNat 8 b.stats.length] ++ b.stats := by
  rw [optionalBodyFields_some, Nat.div_eq_of_lt h]
  rfl

/-- The response to a decoded frame (R85). -/
theorem responseBytes_decodedOf (h : Header) (body : Option Body) (rc mc : U24) :
    responseBytes (.ok (.decoded (decodedOf h body rc mc))) =
      [0x00, h.len, BitVec.ofNat 8 h.secure.toNat, BitVec.ofNat 8 h.frameType.toNat, BitVec.ofNat 8 h.seqNo.toNat,
        BitVec.ofNat 8 h.id.length] ++ h.id ++ optionalBodyFields body ++ be24 rc ++ be24 mc := by
  rw [responseBytes, decodedFields_eq]
  rfl

/-- FRAME.DEC answers what `DecodeFrame` gives (R190). -/
theorem frameDecResult_eq (cfg : Config) (buf key pre : Bytes) :
    frameDecResult cfg buf key pre = (decodeFrame cfg buf { key := key, presharedId := pre }).map Result.decoded := by
  unfold frameDecResult
  cases decodeFrame cfg buf { key := key, presharedId := pre } <;> rfl

/-- The bytes of a header, by arithmetic (R72, R73, R111). -/
theorem wireHeader_eq_ofNat {h : Header} (hid : h.id.length ≤ 15) :
    wireHeader h = [h.len, BitVec.ofNat 8 (128 * h.secure.toNat + h.frameType.toNat),
      BitVec.ofNat 8 (16 * h.seqNo.toNat + h.id.length)] ++ h.id ++ [h.bodyLen] := by
  rw [wireHeader, typeByte_eq_ofNat, seqIdLenByte_eq_ofNat _ hid]

/-- The header of a secure frame with `n` bytes of ciphertext, its lengths agreeing (R174, R175). -/
def secureHeader (ftype : BitVec 7) (seq : BitVec 4) (id : Bytes) (n : Nat) : Header where
  len := BitVec.ofNat 8 (26 + id.length + n)
  secure := true
  frameType := ftype
  seqNo := seq
  id := id
  bodyLen := BitVec.ofNat 8 n

section
variable {ftype : BitVec 7} {seq : BitVec 4} {id : Bytes} {n : Nat} (hid : id.length ≤ 15) (hn : n = 0 ∨ n = 32)

include hn

theorem secureHeader_bodyLen_toNat : (secureHeader ftype seq id n).bodyLen.toNat = n :=
  lenByte_toNat n (by omega)

include hid in
theorem secureHeader_len_toNat : (secureHeader ftype seq id n).len.toNat = 26 + id.length + n :=
  lenByte_toNat _ (by omega)

end

/-- The response to a secure frame whose AEAD opened `pt`: its length and its padding decide (R202, R203). -/
theorem responseBytes_answerOpened_some (h : Header) (t : Trailer) (pt : Bytes) :
    responseBytes ((answerOpened h t (some pt)).map Result.decoded) =
      if pt.length ≠ h.bodyLen.toNat then [0x12]
      else if h.bodyLen.toNat = 0 then
        responseBytes (.ok (.decoded (decodedOf h none t.restartCounter t.msgCounter)))
      else ((unpadBlock pt).toOption.elim [0x12] fun b =>
        responseBytes (.ok (.decoded (decodedOf h (some b) t.restartCounter t.msgCounter)))) := by
  simp only [answerOpened, openedBody]
  by_cases hlen : pt.length ≠ h.bodyLen.toNat
  · simp only [if_pos hlen]
    rfl
  · simp only [if_neg hlen]
    by_cases hempty : h.bodyLen.toNat = 0
    · simp only [if_pos hempty]
      rfl
    · simp only [if_neg hempty]
      cases hunpad : unpadBlock pt with
      | error err =>
        obtain rfl := unpadBlock_error hunpad
        rfl
      | ok b => rfl

end Sys2Proof

namespace Sys2Proof.Machine

/-! ## FRAME.DEC on frames laid out from their parts (R190 to R203) -/

/-- Settles O48: the frame decodes by the round trip, and its stats fit one length byte. -/
theorem frameDecAnswersAnEncodedInsecureFrame : Obligations.FrameDecAnswersAnEncodedInsecureFrame := by
  unfold Obligations.FrameDecAnswersAnEncodedInsecureFrame
  intro s r cfg f b tx w extra key pre hs hsec hbody e
  obtain ⟨herr, -⟩ := encodeFrame_ok e
  have hstats : b.stats.length < 256 := by
    obtain ⟨-, -, hfit⟩ := encodeError_eq_none_iff.mp herr
    obtain ⟨hmax, -⟩ := hfit hsec
    rw [declaredBodyLen, hbody] at hmax
    simp only at hmax
    omega
  have hflen : (headerOf f).len = BitVec.ofNat 8 (w.length - 1) := by
    rw [encodeFrame_length (by simp [hsec]) e, Nat.add_sub_cancel]
    rfl
  rw [exec_frameDec_busy hs, frameDecResult_eq, decodeFrame_encoded_insecure hsec e, Except.map, responseBytes_decodedOf,
    hbody, optionalBodyFields_of_short hstats, hflen]
  simp only [headerOf, hsec, List.append_assoc]
  rfl

/-- Settles O49: the parts are a frame that fits, and its AEAD inputs are the parts. -/
theorem frameDecOpensAStructurallyRightSecureFrame : Obligations.FrameDecOpensAStructurallyRightSecureFrame := by
  unfold Obligations.FrameDecOpensAStructurallyRightSecureFrame
  intro s r ftype seq alg rc mc id ct tag extra key pre header fields hs hmin hmax hblock htag hheader hfields
  have hwire : wireHeader (secureHeader ftype seq id ct.length) = header := by
    rw [hheader, wireHeader_eq_ofNat hmax]
    rfl
  have hbodyLen := secureHeader_bodyLen_toNat (ftype := ftype) (seq := seq) (id := id) hblock
  have hlen := secureHeader_len_toNat (ftype := ftype) (seq := seq) hmax hblock
  generalize ht : Trailer.mk rc mc tag alg = t
  have hlayout : header ++ ct ++ be24 rc ++ be24 mc ++ tag ++ [alg] ++ extra =
      wireHeader (secureHeader ftype seq id ct.length) ++ ct ++ packTrailer t ++ extra := by
    rw [hwire, ← ht]
    simp only [packTrailer, List.append_assoc]
  have hdecoded := decodeFrame_secureLayout (cfg := Config.block) (rx := { key := key, presharedId := pre })
    (h := secureHeader ftype seq id ct.length) (t := t) extra rfl hmin hmax hlen hbodyLen.symm hblock
    (by rw [← ht]; exact htag)
  have hopen : openFrame Config.block { key := key, presharedId := pre } id
      (aadOf Config.block (secureHeader ftype seq id ct.length)) ct t =
      Config.block.aeadOpen (fixedBytes 16 key) (fixedBytes 12 (id.take 4 ++ pre ++ be24 rc ++ be24 mc))
        (if Config.block.aadIncludesBodyLen then header else header.take (3 + id.length)) ct (fixedBytes 16 tag) := by
    rw [aadOf, hwire, ← ht]
    rfl
  have hresponse : ∀ body, responseBytes (.ok (.decoded (decodedOf (secureHeader ftype seq id ct.length) body
      t.restartCounter t.msgCounter))) = fields ++ optionalBodyFields body ++ be24 rc ++ be24 mc := by
    intro body
    rw [responseBytes_decodedOf, hfields, ← ht]
    rfl
  rw [exec_frameDec_busy hs, frameDecResult_eq, hlayout, hdecoded, ← hopen]
  refine congrArg (fun bytes => Host.Outcome.next { answeredWith s r bytes with hidden := Hidden.cleared }) ?_
  have halgEq : t.alg = alg := by rw [← ht]
  rw [halgEq]
  by_cases halg : alg ≠ 0x80
  · rw [if_pos halg, if_pos halg]
    rfl
  rw [if_neg halg, if_neg halg]
  change responseBytes ((answerOpened _ t (openFrame _ _ id _ ct t)).map Result.decoded) = _
  cases openFrame Config.block { key := key, presharedId := pre } id
      (aadOf Config.block (secureHeader ftype seq id ct.length)) ct t with
  | none => rfl
  | some pt =>
    rw [responseBytes_answerOpened_some, hbodyLen]
    refine if_congr Iff.rfl rfl (if_congr Iff.rfl ?_ ?_)
    · rw [hresponse, optionalBodyFields_none]
    · cases hunpad : unpadBlock pt with
      | error err => rfl
      | ok b =>
        have hstats := unpadBlock_stats_length hunpad
        refine (hresponse (some b)).trans ?_
        rw [optionalBodyFields_of_short (by omega), ← List.append_assoc fields]

end Sys2Proof.Machine

namespace Sys2Proof

/-! ## One bit inverted in a string -/

@[simp] theorem flipBit_length (s : Bytes) (i k : Nat) : (flipBit s i k).length = s.length := List.length_set

theorem byteAt_flipBit_of_ne {s : Bytes} {i j : Nat} (h : i ≠ j) (k : Nat) :
    byteAt (flipBit s i k) j = byteAt s j := by
  simp [byteAt, flipBit, List.getElem?_set_ne h]

theorem byteAt_flipBit_self {s : Bytes} {i : Nat} (h : i < s.length) (k : Nat) :
    byteAt (flipBit s i k) i = byteAt s i ^^^ ((1 : Byte) <<< k) := by
  simp [byteAt, flipBit, List.getElem?_set_self h]

/-- An inverted bit makes another byte. -/
theorem xor_bit_ne {k : Nat} (hk : k < 8) (b : Byte) : b ^^^ ((1 : Byte) <<< k) ≠ b := by
  have hbit : ∀ k < 8, ((1 : Byte) <<< k) ≠ 0 := by decide
  exact fun h => hbit k hk (by simpa using h)

theorem byteAt_flipBit_ne {s : Bytes} {i k : Nat} (hi : i < s.length) (hk : k < 8) :
    byteAt (flipBit s i k) i ≠ byteAt s i := by
  rw [byteAt_flipBit_self hi]
  exact xor_bit_ne hk _

/-- An inverted bit makes another string. -/
theorem flipBit_ne {s : Bytes} {i k : Nat} (hi : i < s.length) (hk : k < 8) : flipBit s i k ≠ s := fun h =>
  byteAt_flipBit_ne hi hk (by rw [h])

/-- A bit inverted in the first bytes of a string is inverted in the string. -/
theorem flipBit_take {s : Bytes} {i n : Nat} (h : i < n) (k : Nat) :
    (flipBit s i k).take n = flipBit (s.take n) i k := by
  have hbyte : byteAt (s.take n) i = byteAt s i := by simp [byteAt, List.getElem?_take_of_lt h]
  rw [flipBit, flipBit, List.take_set, hbyte]

/-- A bit inverted past the first bytes of a string leaves them alone. -/
theorem flipBit_take_of_le {s : Bytes} {i n : Nat} (h : n ≤ i) (k : Nat) : (flipBit s i k).take n = s.take n := by
  rw [flipBit, List.take_set_of_le h]

/-- Bits 0 to 6 of the type byte are not the secure flag (R72). -/
theorem topBit_flipBit {s : Bytes} {i j k : Nat} (h : i = j → k < 7) :
    topBit (byteAt (flipBit s i k) j) = topBit (byteAt s j) := by
  by_cases hij : i = j
  · subst hij
    have hk := h rfl
    by_cases hi : i < s.length
    · have hflag : ∀ k < 7, topBit ((1 : Byte) <<< k) = false := by decide
      have hxor : topBit (byteAt s i ^^^ ((1 : Byte) <<< k)) = (topBit (byteAt s i) ^^ topBit ((1 : Byte) <<< k)) :=
        BitVec.getLsbD_xor
      rw [byteAt_flipBit_self hi, hxor, hflag k hk, Bool.xor_false]
    · rw [flipBit, List.set_eq_of_length_le (Nat.le_of_not_lt hi)]
  · rw [byteAt_flipBit_of_ne hij]

/-- Bits 4 to 7 of the seq/idLen byte are not idLen's (R73). -/
theorem idLenOf_flipBit {s : Bytes} {i j k : Nat} (hk : k < 8) (h : i = j → 4 ≤ k) :
    idLenOf (byteAt (flipBit s i k) j) = idLenOf (byteAt s j) := by
  by_cases hij : i = j
  · subst hij
    by_cases hi : i < s.length
    · have hnibble : ∀ k < 8, 4 ≤ k → idLenOf ((1 : Byte) <<< k) = 0 := by decide
      have hxor : idLenOf (byteAt s i ^^^ ((1 : Byte) <<< k)) = idLenOf (byteAt s i) ^^^ idLenOf ((1 : Byte) <<< k) :=
        BitVec.extractLsb'_xor
      rw [byteAt_flipBit_self hi, hxor, hnibble k hk (h rfl)]
      exact BitVec.xor_zero
    · rw [flipBit, List.set_eq_of_length_le (Nat.le_of_not_lt hi)]
  · rw [byteAt_flipBit_of_ne hij]

/-! ## Single-bit changes of an insecure frame (R210) -/

section
variable {w : Bytes} {h : Header} {i k : Nat}

/-- A bit of the length or type byte inverted leaves idLen and bodyLen as they were. -/
theorem FrameFits.flipBit_front (hf : FrameFits w h) (hf' : FrameFits (flipBit w i k) (headerAt (flipBit w i k)))
    (hi : i < 2) :
    (headerAt (flipBit w i k)).id.length = h.id.length ∧ (headerAt (flipBit w i k)).bodyLen = h.bodyLen := by
  have hid : (headerAt (flipBit w i k)).id.length = h.id.length := by
    rw [hf'.idLen_eq, hf.idLen_eq, byteAt_flipBit_of_ne (by omega)]
  refine ⟨hid, ?_⟩
  rw [hf'.bodyLen_eq, hf.bodyLen_eq, hid, byteAt_flipBit_of_ne (by omega)]

/-- The length byte agrees with the structure, so no other length byte does (R195). -/
theorem not_frameFits_flipBit_len (hf : FrameFits w h) (hk : k < 8) :
    ¬ FrameFits (flipBit w 0 k) (headerAt (flipBit w 0 k)) := by
  intro hf'
  obtain ⟨hid, hbody⟩ := hf.flipBit_front hf' (by decide)
  have hsec : (headerAt (flipBit w 0 k)).secure = h.secure := by
    rw [hf'.secure_eq, hf.secure_eq, byteAt_flipBit_of_ne (by decide)]
  have hlen : (headerAt (flipBit w 0 k)).len.toNat = h.len.toNat := by
    rw [hf'.length_eq, hf.length_eq, expectedLength, expectedLength, hid, hbody, hsec]
  rw [hf'.len_eq, hf.len_eq] at hlen
  have hpos : 0 < w.length := Nat.lt_of_lt_of_le (Nat.succ_pos _) hf.inBuffer
  exact byteAt_flipBit_ne hpos hk (BitVec.eq_of_toNat_eq hlen)

/-- The length of an insecure frame is that of no secure one with the same idLen and bodyLen (R175, R195). -/
theorem FrameFits.flipBit_secure (hf : FrameFits w h) (hsec : h.secure = false) (h0 : i ≠ 0)
    (hf' : FrameFits (flipBit w i k) (headerAt (flipBit w i k))) : (headerAt (flipBit w i k)).secure = false := by
  by_contra hne
  have hset : (headerAt (flipBit w i k)).secure = true := by simpa using hne
  have h1 : i = 1 := by
    by_contra h1
    rw [hf'.secure_eq, byteAt_flipBit_of_ne h1, ← hf.secure_eq, hsec] at hset
    cases hset
  obtain ⟨hid, hbody⟩ := hf.flipBit_front hf' (by omega)
  have hlen' := hf'.length_eq
  have hlen := hf.length_eq
  rw [expectedLength_secure hset, hid, hbody, hf'.len_eq, byteAt_flipBit_of_ne h0, ← hf.len_eq] at hlen'
  rw [expectedLength_insecure hsec] at hlen
  omega

/-- A bit inverted in a frame, before the CRC byte or in it, breaks the CRC (R104, R210). -/
theorem crc_flipBit_ne {n : Nat} (hcrc : whiten (crc7Fold Params.crcInit (w.take n)) = byteAt w n)
    (hn : n < w.length) (hi : i ≤ n) (hk : k < 8) :
    whiten (crc7Fold Params.crcInit ((flipBit w i k).take n)) ≠ byteAt (flipBit w i k) n := by
  obtain rfl | hlt := Nat.eq_or_lt_of_le hi
  · rw [flipBit_take_of_le (Nat.le_refl i), hcrc]
    exact (byteAt_flipBit_ne hn hk).symm
  · intro heq
    have hinit : Params.crcInit.toNat < 0x80 := by decide
    have hin : i < (w.take n).length := by
      rw [List.length_take]
      omega
    rw [flipBit_take hlt, byteAt_flipBit_of_ne (by omega), ← hcrc] at heq
    have hsame := whiten_inj (crc7Fold_lt hinit _) (crc7Fold_lt hinit _) heq
    rw [flipBit, crc7Fold_set_xor hin] at hsame
    exact crcDifference_bit_ne_zero hk _ _ (by simpa using hsame)

end

/-- An encoded insecure frame fits (R185). -/
theorem frameFits_encoded_insecure {cfg : Config} {f : Frame} {tx : TxContext} {w : Bytes} (hsec : f.secure = false)
    (e : encodeFrame cfg f tx = .ok w) : FrameFits w (headerOf f) := by
  have hheader : headerAt w = headerOf f := by
    obtain ⟨herr, -⟩ := encodeFrame_ok e
    obtain ⟨hid, -⟩ := encodeError_eq_none_iff.mp herr
    rw [encodeFrame_insecure herr hsec] at e
    cases e
    rw [headerBytes_eq_wireHeader, List.append_assoc]
    exact headerAt_wireHeader hid _
  have hdecoded := decodeFrame_encoded_insecure hsec e cfg { key := [], presharedId := [] } []
  rw [List.append_nil] at hdecoded
  rw [← hheader]
  exact frameFits_of_decodeFrame_ok hdecoded

/-- Settles O56: a change of the length byte or the secure flag no longer fits, and any other breaks the CRC. -/
theorem singleBitChangesOfInsecureFramesAreDetected : Obligations.SingleBitChangesOfInsecureFramesAreDetected := by
  unfold Obligations.SingleBitChangesOfInsecureFramesAreDetected
  intro cfg f tx rx w i k hsec e hi hk
  have hf := frameFits_encoded_insecure hsec e
  have hcrc : whiten (crc7Fold Params.crcInit (w.take (headerOf f).len.toNat)) = byteAt w (headerOf f).len.toNat := by
    have hdecoded := decodeFrame_encoded_insecure hsec e cfg rx []
    rw [List.append_nil, hf.decodeFrame_insecure hsec] at hdecoded
    by_contra hne
    rw [if_pos hne] at hdecoded
    cases hdecoded
  have hlength : w.length = (headerOf f).len.toNat + 1 := by
    obtain ⟨herr, -⟩ := encodeFrame_ok e
    rw [encodeFrame_length (by simp [hsec]) e, headerOf_len_toNat herr]
  cases hout : decodeFrame cfg (flipBit w i k) rx with
  | error err => exact ⟨err, rfl⟩
  | ok d =>
    exfalso
    have hf' := frameFits_of_decodeFrame_ok hout
    have h0 : i ≠ 0 := by
      rintro rfl
      exact not_frameFits_flipBit_len hf hk hf'
    have hlen : (headerAt (flipBit w i k)).len.toNat = (headerOf f).len.toNat := by
      rw [hf'.len_eq, hf.len_eq, byteAt_flipBit_of_ne h0]
    have hbroken := crc_flipBit_ne hcrc (by omega) (show i ≤ _ by omega) hk
    rw [hf'.decodeFrame_insecure (hf.flipBit_secure hsec h0 hf'), hlen, if_pos hbroken] at hout
    cases hout

end Sys2Proof

namespace Sys2Proof

/-! ## A frame is what its AEAD inputs and its algorithm id say (R200, R209) -/

/-- How many bytes of a frame are its AAD (R144). -/
def aadLength (cfg : Config) (h : Header) : Nat := if cfg.aadIncludesBodyLen then 4 + h.id.length else 3 + h.id.length

theorem aadLength_bounds (cfg : Config) (h : Header) :
    3 + h.id.length ≤ aadLength cfg h ∧ aadLength cfg h ≤ 4 + h.id.length := by
  unfold aadLength
  split <;> omega

/-- What the AEAD is given for a received frame, its key apart: nonce, AAD, ciphertext and tag (R200). -/
def aeadInputs (cfg : Config) (pre buf : Bytes) (h : Header) : Vector Byte 12 × Bytes × Bytes × Vector Byte 16 :=
  (fixedBytes 12 (frameNonce h.id pre (trailerOf buf h).restartCounter (trailerOf buf h).msgCounter),
    buf.take (aadLength cfg h), bodyRegion buf h, fixedBytes 16 (trailerOf buf h).tag)

section
variable {cfg : Config} {buf buf' pre : Bytes} {h h' : Header}

/-- A secure frame is its clear header, its bodyLen byte, its ciphertext and its trailer (R71). -/
theorem FrameFits.frameAt_eq_parts (hf : FrameFits buf h) (hsec : h.secure = true) :
    frameAt buf = buf.take (3 + h.id.length) ++ [h.bodyLen] ++ bodyRegion buf h ++ packTrailer (trailerOf buf h) := by
  have hend := hf.trailer_end hsec
  have hbuf := hf.inBuffer
  have htrailer : packTrailer (trailerOf buf h) = memRead buf (4 + h.id.length + h.bodyLen.toNat) 23 :=
    packTrailer_parseTrailer (by rw [memRead_length, Params.secureTrailer]; omega)
  have hbodyLen : [h.bodyLen] = memRead buf (0 + (3 + h.id.length)) 1 := by
    rw [Nat.zero_add, memRead_one (by omega), hf.bodyLen_eq]
  have hregion : bodyRegion buf h = memRead buf (0 + (3 + h.id.length + 1)) h.bodyLen.toNat := by
    rw [bodyRegion]
    congr 1
    omega
  have hstart : 4 + h.id.length + h.bodyLen.toNat = 0 + (3 + h.id.length + 1 + h.bodyLen.toNat) := by omega
  have hfront : buf.take (3 + h.id.length) = memRead buf 0 (3 + h.id.length) := by rw [memRead, List.drop_zero]
  rw [htrailer, hregion, hstart, hbodyLen, hfront, memRead_append_memRead, memRead_append_memRead,
    memRead_append_memRead, frameAt, ← hf.len_eq]
  congr 1
  omega

/-- A nonce of four ID bytes and two pre-shared bytes tells its counters (R140, R145). -/
theorem frameNonce_counters_inj {id id' : Bytes} {rc rc' mc mc' : U24} (hid : 4 ≤ id.length) (hid' : 4 ≤ id'.length)
    (hpre : pre.length = 2) (h : fixedBytes 12 (frameNonce id pre rc mc) = fixedBytes 12 (frameNonce id' pre rc' mc')) :
    rc = rc' ∧ mc = mc' := by
  have hlen : ∀ {i : Bytes} {r m : U24}, 4 ≤ i.length → (frameNonce i pre r m).length = 12 := by
    intro i r m hi
    simp [frameNonce, buildNonce, hpre]
    omega
  obtain ⟨hfront, hmc⟩ := List.append_inj' (fixedBytes_inj (hlen hid) (hlen hid') h) rfl
  obtain ⟨-, hrc⟩ := List.append_inj' hfront rfl
  exact ⟨be24_inj hrc, be24_inj hmc⟩

/-- The tag of a frame that fits is whole (R77). -/
theorem FrameFits.tag_length (hf : FrameFits buf h) (hsec : h.secure = true) : (trailerOf buf h).tag.length = 16 := by
  have hend := hf.trailer_end hsec
  have hbuf := hf.inBuffer
  rw [trailerOf_tag, memRead_length]
  omega

/-- Two secure frames with the same AEAD inputs and algorithm id are the same bytes: the AAD tells the clear header, its
length byte the bodyLen byte, the nonce the counters. -/
theorem frameAt_eq_of_aeadInputs (hf : FrameFits buf h) (hf' : FrameFits buf' h') (hsec : h.secure = true)
    (hsec' : h'.secure = true) (hpre : pre.length = 2) (halg : (trailerOf buf h).alg = (trailerOf buf' h').alg)
    (hinputs : aeadInputs cfg pre buf h = aeadInputs cfg pre buf' h') : frameAt buf = frameAt buf' := by
  simp only [aeadInputs, Prod.mk.injEq] at hinputs
  obtain ⟨hnonce, haad, hct, htag⟩ := hinputs
  have hreach := hf.reach
  have hreach' := hf'.reach
  have hbuf := hf.inBuffer
  have hbuf' := hf'.inBuffer
  have hid : h.id.length = h'.id.length := by
    have hlen := congrArg List.length haad
    have hbounds := aadLength_bounds cfg h
    have hbounds' := aadLength_bounds cfg h'
    rw [List.length_take, List.length_take, Nat.min_eq_left (by omega), Nat.min_eq_left (by omega)] at hlen
    unfold aadLength at hlen
    split at hlen <;> omega
  have hfront : buf.take (3 + h.id.length) = buf'.take (3 + h'.id.length) := by
    have htake := congrArg (List.take (3 + h.id.length)) haad
    rw [List.take_take, List.take_take, Nat.min_eq_left (aadLength_bounds cfg h).1,
      Nat.min_eq_left (hid ▸ (aadLength_bounds cfg h').1)] at htake
    rw [← hid, htake]
  have hlen : h.len = h'.len := by
    have hbyte : ∀ (s : Bytes) n, byteAt (s.take (3 + n)) 0 = byteAt s 0 := fun s n => byteAt_memRead (by omega)
    rw [hf.len_eq, hf'.len_eq, ← hbyte buf h.id.length, hfront, hbyte]
  have hbodyLen : h.bodyLen = h'.bodyLen := by
    apply BitVec.eq_of_toNat_eq
    have hend := hf.trailer_end hsec
    have hend' := hf'.trailer_end hsec'
    rw [hlen] at hend
    omega
  obtain ⟨hrc, hmc⟩ := frameNonce_counters_inj (hf.secureId hsec) (hf'.secureId hsec') hpre hnonce
  have htag' : (trailerOf buf h).tag = (trailerOf buf' h').tag :=
    fixedBytes_inj (hf.tag_length hsec) (hf'.tag_length hsec') htag
  rw [hf.frameAt_eq_parts hsec, hf'.frameAt_eq_parts hsec', hfront, hbodyLen, hct, packTrailer, packTrailer, hrc, hmc,
    htag', halg]

end

/-! ## The one sealed frame (R209) -/

/-- What the sender sealed for a frame: nonce, AAD, ciphertext and tag (R177). -/
def sealedTuple (cfg : Config) (f : Frame) (tx : TxContext) : Vector Byte 12 × Bytes × Bytes × Vector Byte 16 :=
  (fixedBytes 12 (frameNonce f.id tx.presharedId tx.restartCounter tx.msgCounter), aadOf cfg (headerOf f),
    (sealedContent cfg f tx).1, (sealedContent cfg f tx).2)

/-- The sealed tuple, from the header, AAD and plaintext that the encoder makes (R177). -/
theorem sealedTuple_eq {cfg : Config} {f : Frame} {tx : TxContext} {header aad pt : Bytes}
    (herr : encodeError f = none) (hsec : f.secure = true) (hheader : frameHeader f = .ok header)
    (haad : frameAad cfg header f.id.length = .ok aad) (hpt : securePlaintext f = .ok pt) :
    (fixedBytes 12 (frameNonce f.id tx.presharedId tx.restartCounter tx.msgCounter), aad,
      (sealFrame cfg tx f.id aad pt).1, (sealFrame cfg tx f.id aad pt).2) = sealedTuple cfg f tx := by
  rw [frameHeader_eq_headerBytes herr] at hheader
  cases hheader
  rw [frameAad_of_length (headerBytes_length f)] at haad
  cases haad
  rw [securePlaintext_eq_blockContent herr hsec] at hpt
  cases hpt
  rfl

section
variable {cfg : Config} {f : Frame} {tx : TxContext} {rx : RxContext} {w : Bytes} (hlen : PLen cfg)
  (htx : tx.wf = true) (hsec : f.secure = true) (e : encodeFrame cfg f tx = .ok w)
  (hunf : PUnforgeable cfg (fixedBytes 16 tx.key) [sealedTuple cfg f tx])
  (hkey : rx.key = tx.key) (hpre : rx.presharedId = tx.presharedId)
include hlen hsec e

/-- The trailer of an encoded secure frame is the one the encoder packed (R179, R198). -/
theorem trailerOf_encoded : trailerOf w (headerOf f) = trailerFor cfg f tx := by
  obtain ⟨rfl, -, -, -, hct, -⟩ := encodeFrame_secure_parts hlen hsec e
  rw [← List.append_nil (_ ++ _)]
  exact trailerOf_layout hct Vector.length_toList

/-- The receiver's AEAD inputs for an encoded frame are what the sender sealed (R144, R200). -/
theorem aeadInputs_encoded : aeadInputs cfg tx.presharedId w (headerOf f) = sealedTuple cfg f tx := by
  have htrailer := trailerOf_encoded hlen hsec e
  obtain ⟨hw, -, -, -, hct, -⟩ := encodeFrame_secure_parts hlen hsec e
  have hregion : bodyRegion w (headerOf f) = (sealedContent cfg f tx).1 := by
    rw [hw]
    exact bodyRegion_layout hct
  have haad : w.take (aadLength cfg (headerOf f)) = aadOf cfg (headerOf f) := by
    have hreach : 4 + (headerOf f).id.length ≤ w.length := by
      rw [hw, List.length_append, List.length_append, wireHeader_length]
      omega
    have hfromBuffer := frameAad_of_le (cfg := cfg) hreach
    rw [hw, List.append_assoc, frameAad_wireHeader, ← List.append_assoc, ← hw] at hfromBuffer
    exact (Except.ok.inj hfromBuffer).symm
  rw [aeadInputs, htrailer, hregion, haad, trailerFor, secureTrailerOf, fixedBytes_of_toList, sealedTuple]
  rfl

/-- An encoded secure frame is the whole frame at its own front. -/
theorem frameAt_encoded : frameAt w = w := by
  have hL := encodeFrame_length (fun _ => hlen) e
  obtain ⟨herr, -⟩ := encodeFrame_ok e
  have hf := frameFits_encoded_secure hlen hsec e
  rw [frameAt, ← hf.len_eq, headerOf_len_toNat herr, ← hL, memRead_all]

include htx hunf hkey hpre

/-- Where only one frame was sealed under the key, what opens is that frame, byte for byte (P_UNFORGEABLE, R162). -/
theorem frameAt_eq_of_opens {buf aad pt : Bytes} {h : Header} (hf : FrameFits buf h) (hbsec : h.secure = true)
    (halg : (trailerOf buf h).alg = 0x80) (haad : frameAad cfg buf h.id.length = .ok aad)
    (hopen : openFrame cfg rx h.id aad (bodyRegion buf h) (trailerOf buf h) = some pt) : frameAt buf = w := by
  have hreach := hf.reach
  have hbuf := hf.inBuffer
  rw [frameAad_of_le (by omega)] at haad
  cases haad
  have hinputs : aeadInputs cfg tx.presharedId buf h = sealedTuple cfg f tx := by
    by_contra hne
    have hnone := hunf _ _ _ _ (List.mem_singleton.not.mpr hne)
    rw [openFrame, hkey, hpre] at hopen
    exact Option.some_ne_none _ (hopen.symm.trans hnone)
  have hpreLen : tx.presharedId.length = 2 := by
    simp only [TxContext.wf, fixedOk, Bool.and_eq_true, beq_iff_eq] at htx
    exact htx.2
  rw [← frameAt_encoded hlen hsec e]
  refine frameAt_eq_of_aeadInputs hf (frameFits_encoded_secure hlen hsec e) hbsec hsec hpreLen ?_
    (hinputs.trans (aeadInputs_encoded hlen hsec e).symm)
  rw [halg, trailerOf_encoded hlen hsec e]
  rfl

end

/-- The frame at the front of a buffer decodes as the buffer does (R191). -/
theorem decodeFrame_frameAt {cfg : Config} {buf : Bytes} {rx : RxContext}
    (hbuf : (byteAt buf 0).toNat + 1 ≤ buf.length) : decodeFrame cfg (frameAt buf) rx = decodeFrame cfg buf rx := by
  have hfront : byteAt (frameAt buf) 0 = byteAt buf 0 := byteAt_memRead (Nat.succ_pos _)
  have hlen := frameAt_length hbuf
  have hsplit : frameAt buf ++ buf.drop ((byteAt buf 0).toNat + 1) = buf := by
    rw [frameAt, memRead, List.drop_zero, List.take_append_drop]
  have hsame := bytesPastTheFrameAreIgnored cfg (frameAt buf) (buf.drop ((byteAt buf 0).toNat + 1)) rx
    (List.ne_nil_of_length_pos (by omega)) (by rw [hfront, hlen])
  rw [hsplit] at hsame
  exact hsame.symm

/-- Settles O55: what decodes was opened, so its frame is the sealed one. -/
theorem alteredSecureFramesNeverDecodeToOtherContent : Obligations.AlteredSecureFramesNeverDecodeToOtherContent := by
  unfold Obligations.AlteredSecureFramesNeverDecodeToOtherContent
  intro cfg f tx rx w header aad pt buf d hlen htx hsec e hheader haad hpt hunf hkey hpre hflag hd
  obtain ⟨herr, -⟩ := encodeFrame_ok e
  rw [sealedTuple_eq herr hsec hheader haad hpt] at hunf
  have hf := frameFits_of_decodeFrame_ok hd
  have hbsec : (headerAt buf).secure = true := by rw [hf.secure_eq, topBit_eq_decide, decide_eq_true hflag]
  have hpath := hd
  rw [hf.decodeFrame_secure hbsec] at hpath
  obtain ⟨_, _, _, halg, hbaad, hopen, -, -⟩ := decodeSecure_ok hpath
  rw [← frameAt_eq_of_opens hlen htx hsec e hunf hkey hpre hf hbsec halg hbaad hopen,
    decodeFrame_frameAt hf.inBuffer, hd]

/-- A buffer that keeps the length byte, the secure flag, idLen and bodyLen of a frame that fits is a frame that fits,
with the same lengths. -/
theorem FrameFits.of_same_structure {buf w : Bytes} {h : Header} (hf : FrameFits w h) (hlength : buf.length = w.length)
    (h0 : byteAt buf 0 = byteAt w 0) (hsec : topBit (byteAt buf 1) = topBit (byteAt w 1))
    (hid : idLenOf (byteAt buf 2) = idLenOf (byteAt w 2))
    (hbody : byteAt buf (3 + h.id.length) = byteAt w (3 + h.id.length)) :
    FrameFits buf (headerAt buf) ∧ (headerAt buf).len = h.len ∧ (headerAt buf).secure = h.secure := by
  have hreach := hf.reach
  have hbuf := hf.inBuffer
  have hlen : (headerAt buf).len = h.len := h0.trans hf.len_eq.symm
  have hsecure : (headerAt buf).secure = h.secure := hsec.trans hf.secure_eq.symm
  have hidLen : (headerAt buf).id.length = h.id.length := by
    rw [headerAt_id_length (by rw [hid, ← hf.idLen_eq]; omega), hid, hf.idLen_eq]
  have hbodyLen : (headerAt buf).bodyLen = h.bodyLen := by
    rw [headerAt, hid, ← hf.idLen_eq, hbody, hf.bodyLen_eq]
  refine ⟨⟨rfl, ?_, ?_, ?_, ?_⟩, hlen, hsecure⟩
  · rw [hlen, hlength]
    exact hbuf
  · rw [hlen, hf.length_eq, expectedLength, expectedLength, hidLen, hbodyLen, hsecure]
  · rw [hsecure, hidLen]
    exact hf.secureId
  · rw [hsecure, hbodyLen]
    exact hf.bodyLen_ok

/-- Settles O54: the changed frame fits and keeps its algorithm id, and what opened it would be the sealed frame. -/
theorem flippedBitsThatReachOpenFailAuthentication : Obligations.FlippedBitsThatReachOpenFailAuthentication := by
  unfold Obligations.FlippedBitsThatReachOpenFailAuthentication
  intro cfg f tx rx w header aad pt i k hlen htx hsec e hheader haad hpt hunf hkey hpre hk hi
  obtain ⟨herr, -⟩ := encodeFrame_ok e
  rw [sealedTuple_eq herr hsec hheader haad hpt] at hunf
  have hwf := frameFits_encoded_secure hlen hsec e
  have hlength : w.length = (headerOf f).len.toNat + 1 := by
    rw [encodeFrame_length (fun _ => hlen) e, headerOf_len_toNat herr]
  have hid : (headerOf f).id.length = f.id.length := rfl
  have hreach := hwf.reach
  obtain ⟨hf, hL, hfsec⟩ := hwf.of_same_structure (flipBit_length w i k) (byteAt_flipBit_of_ne (by omega) k)
    (topBit_flipBit (by omega)) (by rw [idLenOf_flipBit hk (by omega)]) (byteAt_flipBit_of_ne (by omega) k)
  have hbsec : (headerAt (flipBit w i k)).secure = true := hfsec.trans hsec
  have halg : (trailerOf (flipBit w i k) (headerAt (flipBit w i k))).alg = 0x80 := by
    rw [hf.alg_eq hbsec, hL, byteAt_flipBit_of_ne (by omega), ← hwf.alg_eq hsec, trailerOf_encoded hlen hsec e]
    rfl
  have hbreach := hf.reach
  have hbuf := hf.inBuffer
  have hbaad := frameAad_of_le (cfg := cfg) (buf := flipBit w i k) (n := (headerAt (flipBit w i k)).id.length)
    (by omega)
  rw [hf.decodeFrame_secure hbsec, decodeSecure_of_alg_eq halg hbaad]
  cases hopen : openFrame cfg rx (headerAt (flipBit w i k)).id _ (bodyRegion (flipBit w i k) (headerAt (flipBit w i k)))
      (trailerOf (flipBit w i k) (headerAt (flipBit w i k))) with
  | none => rfl
  | some pt' =>
    have hframe := frameAt_eq_of_opens hlen htx hsec e hunf hkey hpre hf hbsec halg hbaad hopen
    have hwhole : frameAt (flipBit w i k) = flipBit w i k := by
      rw [frameAt, ← hf.len_eq, hL, ← hlength, ← flipBit_length w i k, memRead_all]
    exact absurd (hwhole.symm.trans hframe) (flipBit_ne (by omega) hk)

end Sys2Proof

namespace Sys2Proof

/-! ## The statuses a request and a command can raise (R81, R221) -/

/-- Once the opcode is known, decoding fails only with IllegalOperand (R81). -/
theorem decodeOperands_error {op : Opcode} {r : Bytes} {err : Status} (e : decodeOperands op r = .error err) :
    err = .illegalOperand := by
  unfold decodeOperands at e
  split at e
  · exact (Except.error.inj e).symm
  · split_ifs at e
    · exact (Except.error.inj e).symm
    · exact (Except.error.inj e).symm
    · split at e
      · exact (Except.error.inj e).symm
      · cases e

/-- Decoding a request fails only with an interface error (R81, R87). -/
theorem decode_error {req : Bytes} {err : Status} (e : decode req = .error err) :
    err = .illegalCommand ∨ err = .illegalOperand := by
  cases req with
  | nil => exact .inl (Except.error.inj e).symm
  | cons op r =>
    rw [decode] at e
    split at e
    · exact .inl (Except.error.inj e).symm
    · exact .inr (decodeOperands_error e)

/-- Settles O8: the table of R221 read per command, and the two ways in which decoding a request fails. -/
theorem commandsRaiseOnlyTheirStatuses : Obligations.CommandsRaiseOnlyTheirStatuses := by
  unfold Obligations.CommandsRaiseOnlyTheirStatuses
  refine ⟨fun cfg i err e => ?_, fun req err e => decode_error e⟩
  have hmem : err ∈ commandStatuses i.opcode := commandResult_error e
  cases i with
  | crc7Upd | trlPack | trlParse | nonceBuild => exact List.not_mem_nil hmem
  | crc7Frame | hdrPack | hdrParse | bodyPack | bodyParse | aadBuild | padUnpad => exact List.mem_singleton.mp hmem
  | padBody | frameEnc | frameDec => simpa [Instr.opcode, commandStatuses] using hmem

end Sys2Proof

namespace Sys2Proof.Machine

/-! ## No error stops the block (R223) -/

/-- Settles O6: from IDLE a step is an acceptance, and from BUSY it answers the accepted request. -/
theorem everyStepGoesOn : Obligations.EveryStepGoesOn := by
  unfold Obligations.EveryStepGoesOn
  intro s
  cases hphase : s.phase with
  | idle => exact ⟨accept s, step_idle hphase⟩
  | busy r =>
    obtain ⟨hid, hstep⟩ := step_busy_answers hphase
    exact ⟨_, hstep⟩

end Sys2Proof.Machine

namespace Sys2Proof

/-! ## Nonces of a host whose message counter advances (R253, R254, R256) -/

/-- Below 2^24 the host's truncation loses nothing (R254). -/
theorem low24_inj {m n : Nat} (hm : m < 2 ^ 24) (hn : n < 2 ^ 24) (h : low24 m = low24 n) : m = n := by
  have hval := congrArg BitVec.toNat h
  rwa [low24, low24, BitVec.toNat_ofNat, BitVec.toNat_ofNat, Nat.mod_eq_of_lt hm, Nat.mod_eq_of_lt hn] at hval

/-- A nonce ends in its message counter, whatever identity stands before it (R140, R145). -/
theorem frameNonce_msgCounter_inj {id id' pre pre' : Bytes} {rc rc' mc mc' : U24}
    (h : frameNonce id pre rc mc = frameNonce id' pre' rc' mc') : mc = mc' :=
  be24_inj (List.append_inj' h rfl).2

/-- A host's encode uses its key and the nonce of its context exactly where the frame is secure (R141, R253). -/
theorem nonceUse_encodeCommand (h : HostContext) (f : Frame) :
    nonceUse (encodeCommand h f) =
      if f.secure then some (h.key, frameNonce f.id (h.nodeId.drop 4) (low24 h.restartCounter) (low24 h.msgCounter))
      else none := by
  cases hsec : f.secure with
  | true =>
    rw [encodeCommand, hsec]
    rfl
  | false =>
    rw [encodeCommand, hsec]
    rfl

/-- Two encodes that use one key and nonce have message counters with the same low 24 bits (R145, R254). -/
theorem low24_eq_of_nonceUse {h h' : HostContext} {f f' : Frame} {u : Bytes × Bytes}
    (huse : nonceUse (encodeCommand h f) = some u) (huse' : nonceUse (encodeCommand h' f') = some u) :
    low24 h.msgCounter = low24 h'.msgCounter := by
  simp only [nonceUse_encodeCommand, Option.ite_none_right_eq_some, Option.some.injEq] at huse huse'
  obtain ⟨-, rfl⟩ := huse
  obtain ⟨-, hsame⟩ := huse'
  exact frameNonce_msgCounter_inj (Prod.mk.inj hsame).2.symm

/-- The duty of R256 by parts, within one key and one restart counter. -/
theorem messageAdvanced_iff {before after : HostContext} :
    messageAdvanced before after = true ↔
      before.key = after.key ∧ before.restartCounter = after.restartCounter ∧ before.msgCounter < after.msgCounter := by
  simp [messageAdvanced, and_assoc]

/-- Settles O60: one nonce used twice would need one message counter twice, and the counter has advanced between. -/
theorem advancingCountersKeepNoncesUnique : Obligations.AdvancingCountersKeepNoncesUnique := by
  unfold Obligations.AdvancingCountersKeepNoncesUnique
  intro encodes hadvance hbelow
  refine List.pairwise_map.mpr (hadvance.imp_of_mem fun {a b} ha hb hab u huse huse' => ?_)
  obtain ⟨-, -, hlt⟩ := messageAdvanced_iff.mp hab
  have hsame : a.1.msgCounter = b.1.msgCounter :=
    low24_inj (hbelow a ha) (hbelow b hb) (low24_eq_of_nonceUse huse huse')
  exact absurd hsame hlt.ne

end Sys2Proof
